-- ==== Sys2Proof/Word.lean ====
section
/-! DEFINITION. The word types of FIFOMGR (10_state.md rule R31, 30_encoding.md rules R100, R107). -/

namespace Sys2Proof

/-- One byte, 0x00 to 0xFF (00_scope.md rule R10). -/
abbrev Byte := BitVec 8

/-- An index register's value: `IDX_W` is 8 and fixed (00_scope.md rule R7, 10_state.md rule R32). -/
abbrev Index := BitVec 8

/-- A command word (30_encoding.md rule R100). -/
abbrev CmdWord := BitVec 16

/-- A response word (30_encoding.md rule R107). -/
abbrev RespWord := BitVec 16

end Sys2Proof
end

