-- ==== Sys2Proof/Config.lean ====
section
/-! DEFINITION. The configuration parameters of 00_scope.md rule R7, and the free values. -/

namespace Sys2Proof

/-- `TX_MODE` and `RX_MODE` (00_scope.md rule R7). One static value per direction, so that "both" cannot be said (R8). -/
inductive Mode where
  | interrupt
  | polled
deriving DecidableEq, Repr

/-- `RX_OVERRUN` (00_scope.md rule R7, 44_peripheral_boundary.md rule R207). -/
inductive Overrun where
  | keepOld
  | replace
  | draw
deriving DecidableEq, Repr

/-- The parameters of a run that a rule reads (00_scope.md rule R7).
`IDX_W` is the width of `Index`; `CLOCK_SET` and `DIVISOR` are the constants below. -/
structure Config where
  /-- `N_TX` -/
  nTx : Nat
  /-- `N_RX` -/
  nRx : Nat
  /-- `TX_MODE` -/
  txMode : Mode
  /-- `RX_MODE` -/
  rxMode : Mode
  /-- `NCLK` -/
  nclk : Nat
  /-- `RX_OVERRUN` -/
  overrun : Overrun
deriving DecidableEq, Repr

/-- What may happen next: a step of one of the three agents (00_scope.md rule R6), or a power cycle
(60_exceptions.md rule R245).  The Bool of `rxArrive` is the choice `DRAW` leaves free: whether the arriving byte replaces
the unread one (44_peripheral_boundary.md rule R207); it is read at such an overrun only. -/
inductive Event where
  /-- FG's next micro-step. -/
  | fg
  /-- IH runs `TX_ISR`. -/
  | txIsr
  /-- IH runs `RX_ISR`. -/
  | rxIsr
  /-- PER's `TX_DONE`. -/
  | txDone
  /-- PER's `RX_ARRIVE`. -/
  | rxArrive (replaces : Bool)
  /-- The power supply: no agent's step. -/
  | powerCycle
deriving DecidableEq, Repr, Inhabited

/-- `CLOCK_SET[k]`: OPEN (00_scope.md rule R7); log entry 3. No body: nothing can be proved of a frequency. -/
opaque Config.clockSet : Nat → Nat

/-- The free choice among the indices of `CLOCK_SET` that hold one frequency, read where there are several: rule R111 of
30_encoding.md speaks of "the index" and no rule says that the frequencies differ; log entry 25. -/
opaque Config.freeClock : Nat → Nat

/-- `DIVISOR`: OPEN (00_scope.md rule R7); log entry 3. -/
opaque Config.divisor : Nat → Nat

/-- The free choice of the next step, read at the counter `draws` of the state, where `sched` is empty and more than one
step is enabled (00_scope.md rule R6, 60_exceptions.md rules R232, R233); log entry 7. -/
opaque Config.freeEvent : Nat → Event

/-- `CLOCK_SET` as the list of `NCLK` frequencies that rule R7 makes it. -/
def Config.clockList (c : Config) : List Nat := (List.range c.nclk).map Config.clockSet

end Sys2Proof
end

