-- ==== Sys2Proof/Syntax.lean ====
section
/-! DEFINITION. The six operations of spec/opcode_table.json (00_scope.md rule R2, 30_encoding.md rule R102). -/

namespace Sys2Proof

/-- One constructor per row of the opcode table. -/
inductive Instr where
  /-- `INIT k`, the source's `initialize(clock_frequency)` (40_line_controller.md rule R130). -/
  | init (k : BitVec 4)
  /-- `TX_PUSH b`, the source's `transmit(byte)` (41_transmit.md rule R141). -/
  | txPush (b : Byte)
  /-- `RX_POP`, the source's `receive()` (42_receive.md rule R165). -/
  | rxPop
  /-- `SERVICE`, the source's `service()` (43_polling.md rule R180). -/
  | service
  /-- `TX_ISR`, the transmit handler's entry; run by IH only (41_transmit.md rule R146). -/
  | txIsr
  /-- `RX_ISR`, the receive handler's entry; run by IH only (42_receive.md rule R162). -/
  | rxIsr
deriving DecidableEq, Repr

/-- The row's name in the opcode table (30_encoding.md rule R102). -/
def Instr.mnemonic : Instr → String
  | .init _ => "INIT"
  | .txPush _ => "TX_PUSH"
  | .rxPop => "RX_POP"
  | .service => "SERVICE"
  | .txIsr => "TX_ISR"
  | .rxIsr => "RX_ISR"

/-- Whether the row is a handler entry, "issued by IH only" (30_encoding.md rule R102). -/
def Instr.isHandler : Instr → Bool
  | .init _ => false
  | .txPush _ => false
  | .rxPop => false
  | .service => false
  | .txIsr => true
  | .rxIsr => true

end Sys2Proof
end

