-- ==== Sys2Proof/WellFormed.lean ====
section
/-! DEFINITION. Well-formed configurations (00_scope.md rules R7, R8) and instructions (40_line_controller.md rule R130). -/

namespace Sys2Proof

/-- The legal values of `N_RX`: the powers of two from 2 to 256 (00_scope.md rule R7). -/
def rxSizes : List Nat := [2, 4, 8, 16, 32, 64, 128, 256]

/-- Every parameter is within its legal values (00_scope.md rules R7, R8). -/
def Config.wf (c : Config) : Bool :=
  decide (2 ≤ c.nTx) && decide (c.nTx ≤ 256) && rxSizes.contains c.nRx
    && decide (1 ≤ c.nclk) && decide (c.nclk ≤ 16)

/-- An instruction is well-formed for a configuration: `INIT k` needs `k < NCLK` (30_encoding.md rules R101, R106). -/
def Instr.wf (c : Config) : Instr → Bool
  | .init k => decide (k.toNat < c.nclk)
  | .txPush _ => true
  | .rxPop => true
  | .service => true
  | .txIsr => true
  | .rxIsr => true

end Sys2Proof
end

