-- ==== Sys2Proof/Decode.lean ====
section
/-! DEFINITION. The decoder (30_encoding.md rules R100 to R105), then the encoder, the opcode table as data, and the
assembler's lines (rule R110). -/

namespace Sys2Proof

/-- `OPC`, bits 15:12 (30_encoding.md rule R100). -/
def opcOf (w : CmdWord) : BitVec 4 := w.extractLsb' 12 4

/-- `ARG`, bits 11:8 (30_encoding.md rule R100). -/
def argOf (w : CmdWord) : BitVec 4 := w.extractLsb' 8 4

/-- `DATA`, bits 7:0 (30_encoding.md rule R100). -/
def dataOf (w : CmdWord) : Byte := w.extractLsb' 0 8

/-- Why a word encodes no operation; both raise `ILLEGAL_OP` (60_exceptions.md rule R223). -/
inductive Illegal where
  /-- A reserved `OPC`: 0x0, 0x5 to 0x7, 0xA to 0xF (30_encoding.md rule R104). -/
  | reservedOpc
  /-- A reserved field that is not zero (30_encoding.md rule R103). -/
  | reservedField
deriving DecidableEq, Repr

/-- The decoder, total on every 16-bit word, rejecting by name (30_encoding.md rule R105). -/
def decodeWord (w : CmdWord) : Except Illegal Instr :=
  if opcOf w = 0x1#4 then
    if dataOf w = 0x00#8 then .ok (.init (argOf w)) else .error .reservedField
  else if opcOf w = 0x2#4 then
    if argOf w = 0x0#4 then .ok (.txPush (dataOf w)) else .error .reservedField
  else if opcOf w = 0x3#4 then
    if argOf w = 0x0#4 ∧ dataOf w = 0x00#8 then .ok .rxPop else .error .reservedField
  else if opcOf w = 0x4#4 then
    if argOf w = 0x0#4 ∧ dataOf w = 0x00#8 then .ok .service else .error .reservedField
  else if opcOf w = 0x8#4 then
    if argOf w = 0x0#4 ∧ dataOf w = 0x00#8 then .ok .txIsr else .error .reservedField
  else if opcOf w = 0x9#4 then
    if argOf w = 0x0#4 ∧ dataOf w = 0x00#8 then .ok .rxIsr else .error .reservedField
  else .error .reservedOpc

/-- The operation a word encodes; `none` is the spec's `ILLEGAL` (30_encoding.md rule R105). -/
def decode (w : CmdWord) : Option Instr :=
  match decodeWord w with
  | .ok i => some i
  | .error _ => none

/-- The command word the host's numbering gives: one 16-bit word, bit 0 the least significant (30_encoding.md rule R100);
every bit from `nbits` up is 0. -/
def tableWord (nbits w : Nat) : CmdWord := BitVec.ofNat 16 (w % 2 ^ nbits)

/-- What the decoder reads from an opcode-table word. -/
def decodeTableWord (nbits w : Nat) : Option Instr := decode (tableWord nbits w)

/-- The encoder: `OPC ++ ARG ++ DATA`, from the encoding strings of 30_encoding.md rule R102. -/
def encode : Instr → CmdWord
  | .init k => 0x1#4 ++ k ++ 0x00#8
  | .txPush b => 0x2#4 ++ 0x0#4 ++ b
  | .rxPop => 0x3#4 ++ 0x0#4 ++ 0x00#8
  | .service => 0x4#4 ++ 0x0#4 ++ 0x00#8
  | .txIsr => 0x8#4 ++ 0x0#4 ++ 0x00#8
  | .rxIsr => 0x9#4 ++ 0x0#4 ++ 0x00#8

/-- A row of the opcode table: its name, its fixed bits and where they stand (30_encoding.md rule R102). -/
structure Row where
  mnemonic : String
  pattern : CmdWord
  mask : CmdWord
deriving DecidableEq, Repr

/-- The six rows of spec/opcode_table.json (30_encoding.md rule R102). -/
def opcodeTable : List Row :=
  [ ⟨"INIT", 0x1000#16, 0xF0FF#16⟩, ⟨"TX_PUSH", 0x2000#16, 0xFF00#16⟩, ⟨"RX_POP", 0x3000#16, 0xFFFF#16⟩,
    ⟨"SERVICE", 0x4000#16, 0xFFFF#16⟩, ⟨"TX_ISR", 0x8000#16, 0xFFFF#16⟩, ⟨"RX_ISR", 0x9000#16, 0xFFFF#16⟩ ]

/-- The table's row of an instruction. -/
def Instr.row : Instr → Row
  | .init _ => ⟨"INIT", 0x1000#16, 0xF0FF#16⟩
  | .txPush _ => ⟨"TX_PUSH", 0x2000#16, 0xFF00#16⟩
  | .rxPop => ⟨"RX_POP", 0x3000#16, 0xFFFF#16⟩
  | .service => ⟨"SERVICE", 0x4000#16, 0xFFFF#16⟩
  | .txIsr => ⟨"TX_ISR", 0x8000#16, 0xFFFF#16⟩
  | .rxIsr => ⟨"RX_ISR", 0x9000#16, 0xFFFF#16⟩

/-- Whether a word matches a row's fixed bits. -/
def Row.covers (r : Row) (w : CmdWord) : Bool := (w &&& r.mask) == r.pattern

/-- One line of the assembler, its mnemonic and its numeric operand already read (30_encoding.md rule R110):
`INIT k` with `k` below `NCLK`, `TX_PUSH b` with `b` a byte, the others without an operand. -/
def assembleLine (c : Config) (mnemonic : String) (operand : Option Nat) : Option CmdWord :=
  match operand with
  | some n =>
    if mnemonic = "INIT" then (if n < c.nclk ∧ n < 16 then some (encode (.init (BitVec.ofNat 4 n))) else none)
    else if mnemonic = "TX_PUSH" then (if n < 256 then some (encode (.txPush (BitVec.ofNat 8 n))) else none)
    else none
  | none =>
    if mnemonic = "RX_POP" then some (encode .rxPop)
    else if mnemonic = "SERVICE" then some (encode .service)
    else if mnemonic = "TX_ISR" then some (encode .txIsr)
    else if mnemonic = "RX_ISR" then some (encode .rxIsr)
    else none

end Sys2Proof
end

