-- ==== Sys2Proof/Machine/State.lean ====
section
/-! DEFINITION. The state of FIFOMGR (10_state.md), the reasons a step can stop, and the state at power-up (rule R52). -/

namespace Sys2Proof.Machine

open Sys2Proof

/-- The named codes of the register `FAULT` (S9; 60_exceptions.md rule R221).  Codes 8 to 15 are "never raised" (log entry 18). -/
inductive FaultCode where
  | noFault
  | illegalOp
  | notInit
  | context
  | unwritten
  | indexRange
  | txBusy
  | rxEmpty
deriving DecidableEq, Repr

/-- `FG_PHASE` (10_state.md rule R34): the next micro-step of the operation in progress. -/
inductive Phase where
  | idle
  | tx2
  | tx3
  | tx4
  | rx2
  | rx3
  | svcTx
deriving DecidableEq, Repr

/-- The registers that may hold `⊥` and whose read names no fault of its own in the spec (log entry 9). -/
inductive Element where
  | txHead
  | txTail
  | rxHead
  | rxTail
  | txData
  | rxData
  | fgN
  | fgB
deriving DecidableEq, Repr

/-- A buffer space: the cells that hold a byte, addresses strictly rising.  An address that is not listed holds `⊥`
(10_state.md rule R48, 20_memory.md rule R70; log entry 17). -/
abbrev Memory := List Host.Cell

/-- The state.  An `Option` register is `none` where the spec's `⊥` stands (00_scope.md rule R11; log entry 8). -/
structure State where
  /-- The run's parameters (00_scope.md rule R7); no step writes them (log entry 1). -/
  cfg : Config
  /-- `PROG`, a parameter of the run (10_state.md rule R34); no step writes it (log entry 4). -/
  prog : List CmdWord
  /-- `CTRL` (S0; 10_state.md rule R37) -/
  ctrl : BitVec 8
  /-- `TX_HEAD` (S1) -/
  txHead : Option Index
  /-- `TX_TAIL` (S2) -/
  txTail : Option Index
  /-- `RX_HEAD` (S3) -/
  rxHead : Option Index
  /-- `RX_TAIL` (S4) -/
  rxTail : Option Index
  /-- `LINE_CLK` (S5; 10_state.md rule R42) -/
  lineClk : Option (BitVec 4)
  /-- `PSTAT` (S6; 10_state.md rules R43, R44) -/
  pstat : BitVec 2
  /-- `TXDATA` (S7) -/
  txData : Option Byte
  /-- `RXDATA` (S8) -/
  rxData : Option Byte
  /-- `FAULT` (S9) -/
  fault : FaultCode
  /-- `TXBUF` (M1) -/
  txBuf : Memory
  /-- `RXBUF` (M2) -/
  rxBuf : Memory
  /-- `FG_PC` (10_state.md rule R34) -/
  fgPc : Nat
  /-- `FG_PHASE` -/
  fgPhase : Phase
  /-- `FG_N` -/
  fgN : Option Index
  /-- `FG_B` -/
  fgB : Option Byte
  /-- `LINE_OUT` (10_state.md rule R47) -/
  lineOut : List Byte
  /-- `RX_IN` -/
  rxIn : List Byte
  /-- `RESP_LOG` -/
  respLog : List RespWord
  /-- The model's own: the events still to be taken, the next one first (log entry 6). -/
  sched : List Event
  /-- The model's own: how many free choices were read (log entry 7). -/
  draws : Nat
deriving DecidableEq, Repr

/-- Why the model stops.  A fault the spec RAISES is no stop: it is a next state with `FAULT` written (60_exceptions.md rule R222). -/
inductive Fault where
  /-- `step`, `exec` and PER's steps, in a state with `FAULT ≠ NONE`: no agent has a step (60_exceptions.md rule R222, the faulted
  end of 70_reset_and_hazards.md rule R281). It carries that state, a part of the run's observation. Safe: the spec's own stop. -/
  | faulted (final : State)
  /-- `step`, in a state with `FAULT = NONE` in which no agent has a step: the successful end of a run
  (70_reset_and_hazards.md rule R281). It carries that state, a part of the run's observation. Safe: the spec's own stop. -/
  | runEnded (final : State)
  /-- `exec` and PER's steps, asked for a step the agent does not have in this state: a handler whose request is not asserted,
  a foreground operation while another is in progress, a `TX_DONE` or `RX_ARRIVE` that is not enabled. `step` never asks for one.
  Safe. -/
  | notEnabled
  /-- A register that holds `⊥` was read where the spec names no fault for it (log entry 9). No state that a run reaches does this.
  Safe. -/
  | bottomRead (e : Element)
deriving DecidableEq, Repr

/-- Why the model gives no meaning (60_exceptions.md rule R228). -/
inductive Refusal where
  /-- `REF_CONFIG`: a parameter outside its legal values, raised by `step` before anything runs. Safe: the spec's own refusal. -/
  | refConfig
  /-- `REF_CLOCK`: `PROG` holds an `INIT k` with `k ≥ NCLK`, or its source an `initialize(f)` with f outside `CLOCK_SET`; raised by `step`
  and by the loading of the source before anything runs, and by `exec` of such an `INIT`.
  Safe: the spec's own refusal. -/
  | refClock
  /-- An instruction without a meaning yet; no arm of `exec` answers it now. Safe. -/
  | notModelled (mnemonic : String)
deriving DecidableEq, Repr

/-- The defaults of 00_scope.md rule R7; `NCLK` is OPEN there and 16 here (log entry 2). -/
def defaultConfig : Config :=
  { nTx := 128, nRx := 8, txMode := .interrupt, rxMode := .interrupt, nclk := 16, overrun := .draw }

/-- The power-up state with given run parameters and streams (10_state.md rule R52). -/
def State.powerUp (cfg : Config) (prog : List CmdWord) (rxIn lineOut : List Byte) (respLog : List RespWord)
    (sched : List Event) (draws : Nat) : State :=
  { cfg := cfg, prog := prog, ctrl := 0x00#8, txHead := none, txTail := none, rxHead := none, rxTail := none,
    lineClk := none, pstat := 0b01#2, txData := none, rxData := none, fault := .noFault, txBuf := [], rxBuf := [],
    fgPc := 0, fgPhase := .idle, fgN := none, fgB := none, lineOut := lineOut, rxIn := rxIn, respLog := respLog,
    sched := sched, draws := draws }

/-- The machine right after power-up (10_state.md rule R52, 70_reset_and_hazards.md rule R260), with no program loaded
(log entry 4), no byte on the line (log entry 5) and no schedule given (log entry 6). -/
def State.reset : State := State.powerUp defaultConfig [] [] [] [] [] 0

end Sys2Proof.Machine
end

