-- ==== Sys2Proof/Machine/Operands.lean ====
section
/-! DEFINITION. Operand assembly (30_encoding.md rule R101) and index arithmetic (00_scope.md rules R9, R14, R15). -/

namespace Sys2Proof.Machine

open Sys2Proof

/-- `k = zext_8(w[11:8])` (30_encoding.md rule R101). -/
def clockIndex (k : BitVec 4) : BitVec 8 := k.zeroExtend 8

/-- `next_tx`, "linear compare-and-wrap" (00_scope.md rule R14).  An index is 8 bits wide (log entry 15). -/
def nextTx (c : Config) (i : Index) : Index :=
  if i.toNat + 1 = c.nTx then 0#8 else BitVec.ofNat 8 (i.toNat + 1)

/-- `next_rx`, "power-of-two mask" (00_scope.md rule R14). -/
def nextRx (c : Config) (i : Index) : Index :=
  (i + 1#8) &&& BitVec.ofNat 8 (c.nRx - 1)

/-- `(head − tail) mod N`, the difference taken on unbounded integers (00_scope.md rule R15, 20_memory.md rule R91). -/
def pendingCount (n : Nat) (head tail : Index) : Nat :=
  (((head.toNat : Int) - (tail.toNat : Int)) % (n : Int)).toNat

/-- The usable capacity of a queue: one slot is sacrificed (00_scope.md rule R9). -/
def capacity (n : Nat) : Nat := n - 1

/-- The pending indices of a queue, oldest first: `next(tail)`, `next²(tail)`, …, as many as are pending
(41_transmit.md rule R140, 42_receive.md rule R160). -/
def pendingFrom (next : Index → Index) : Nat → Index → List Index
  | 0, _ => []
  | k + 1, t => next t :: pendingFrom next k (next t)

/-- A list of words with the word at one position replaced; positions that did not exist are filled with 0x0000, which encodes no
operation (30_encoding.md rule R104). -/
def placeWord : List CmdWord → Nat → CmdWord → List CmdWord
  | [], 0, w => [w]
  | [], n + 1, w => 0x0000#16 :: placeWord [] n w
  | _ :: ws, 0, w => w :: ws
  | v :: ws, n + 1, w => v :: placeWord ws n w

end Sys2Proof.Machine
end

