-- ==== Sys2Proof/Machine/Flags.lean ====
section
/-! DEFINITION. The bits of `CTRL` and `PSTAT`, the signals derived from them, the fault codes' numbers and the response word
(10_state.md rules R37, R43, R44, R49, R50; 30_encoding.md rule R107; 60_exceptions.md rule R221). -/

namespace Sys2Proof.Machine

open Sys2Proof

/-- One bit set, every other bit as it was (44_peripheral_boundary.md rules R197, R198). -/
def setBit {n : Nat} (w : BitVec n) (i : Nat) : BitVec n := w ||| (1#n <<< i)

/-- One bit cleared, every other bit as it was (44_peripheral_boundary.md rule R199). -/
def clearBit {n : Nat} (w : BitVec n) (i : Nat) : BitVec n := w &&& ~~~(1#n <<< i)

/-- `CTRL.TX_EN`, bit 0. -/
def State.txEn (s : State) : Bool := s.ctrl.getLsbD 0

/-- `CTRL.RX_EN`, bit 1. -/
def State.rxEn (s : State) : Bool := s.ctrl.getLsbD 1

/-- `CTRL.RXIE`, bit 2. -/
def State.rxie (s : State) : Bool := s.ctrl.getLsbD 2

/-- `CTRL.TXIE`, bit 3. -/
def State.txie (s : State) : Bool := s.ctrl.getLsbD 3

/-- `CTRL.INITED`, bit 4. -/
def State.inited (s : State) : Bool := s.ctrl.getLsbD 4

/-- `CTRL` bits 7:5, reserved. -/
def State.ctrlReserved (s : State) : BitVec 3 := s.ctrl.extractLsb' 5 3

/-- `PSTAT.TXE`, bit 0 (10_state.md rule R43). -/
def State.txe (s : State) : Bool := s.pstat.getLsbD 0

/-- `PSTAT.RXNE`, bit 1 (10_state.md rule R44). -/
def State.rxne (s : State) : Bool := s.pstat.getLsbD 1

/-- `TXIRQ = TXIE ∧ TXE` (10_state.md rule R50). -/
def State.txIrq (s : State) : Bool := s.txie && s.txe

/-- `RXIRQ = RXIE ∧ RXNE` (10_state.md rule R50). -/
def State.rxIrq (s : State) : Bool := s.rxie && s.rxne

/-- The two states of the transmit direction (41_transmit.md rule R150). -/
inductive TxState where
  | idle
  | armed
deriving DecidableEq, Repr

/-- `tx_state`, a function of `TXIE` alone (41_transmit.md rule R150). -/
def State.txState (s : State) : TxState := if s.txie then .armed else .idle

/-- The 4-bit code that `FAULT` holds (60_exceptions.md rule R221). -/
def FaultCode.code : FaultCode → BitVec 4
  | .noFault => 0#4
  | .illegalOp => 1#4
  | .notInit => 2#4
  | .context => 3#4
  | .unwritten => 4#4
  | .indexRange => 5#4
  | .txBusy => 6#4
  | .rxEmpty => 7#4

/-- A response word: bits 15:9 zero, bit 8 `FLAG`, bits 7:0 `RDATA` (30_encoding.md rule R107). -/
def respWord (flag : Bool) (rdata : Byte) : RespWord := 0#7 ++ BitVec.ofBool flag ++ rdata

/-- The response's `FLAG`: `OK` of a `TX_PUSH`, `VALID` of a `RX_POP` (10_state.md rule R49). -/
def respFlag (w : RespWord) : Bool := w.getLsbD 8

/-- The response's `RDATA`. -/
def respData (w : RespWord) : Byte := w.extractLsb' 0 8

/-- The line speed chosen by the last `INIT`: `DIVISOR(CLOCK_SET[k])` (10_state.md rule R42). No rule reads it (40_line_controller.md
rule R134). -/
def State.lineSpeed (s : State) : Option Nat :=
  s.lineClk.map fun k => Config.divisor (Config.clockSet (clockIndex k).toNat)

end Sys2Proof.Machine
end

