-- ==== Sys2Proof/Machine/Ops.lean ====
section
/-! DEFINITION. The operations every micro-step is written with: the two buffer spaces (20_memory.md rule R71), register reads,
raising a fault (60_exceptions.md rule R222), the foreground sequencer (10_state.md rule R35), the response log
(30_encoding.md rule R108) and the power cycle (60_exceptions.md rule R245). -/

namespace Sys2Proof.Machine

open Sys2Proof

/-- What a micro-step's body comes to: a value, a fault the spec raises, or the read of a `⊥` the spec names no fault for. -/
inductive Eff (α : Type) where
  | ok (a : α)
  | raises (c : FaultCode)
  | bottom (e : Element)
deriving DecidableEq, Repr

/-- One access after another, in pseudocode order (20_memory.md rule R87); the first cause stops the body
(60_exceptions.md rule R227). -/
def Eff.bind {α β : Type} (x : Eff α) (f : α → Eff β) : Eff β :=
  match x with
  | .ok a => f a
  | .raises c => .raises c
  | .bottom e => .bottom e

/-- A register's value; `⊥` has none (00_scope.md rule R11; log entry 9). -/
def readReg {α : Type} (e : Element) (r : Option α) : Eff α :=
  match r with
  | some v => .ok v
  | none => .bottom e

/-- The byte at an address of a space, or `none` for `⊥`. -/
def Memory.read : Memory → Nat → Option Byte
  | [], _ => none
  | (a, b) :: m, i => if a = i then some b else Memory.read m i

/-- A space with one byte written, its form kept. -/
def Memory.write : Memory → Nat → Byte → Memory
  | [], i, v => [(i, v)]
  | (a, b) :: m, i, v =>
    if i < a then (i, v) :: (a, b) :: m
    else if i = a then (i, v) :: m
    else (a, b) :: Memory.write m i v

/-- The canonical form: addresses strictly rising.  An unlisted address reads as `⊥`, which no entry equals. -/
abbrev Memory.wf (m : Memory) : Prop := m.Pairwise fun x y => x.1 < y.1

/-- `MemRead(S, i, 1)` of a space of `n` cells (20_memory.md rule R71). -/
def memRead (m : Memory) (n : Nat) (i : Index) : Eff Byte :=
  if n ≤ i.toNat then .raises .indexRange
  else match m.read i.toNat with
    | some v => .ok v
    | none => .raises .unwritten

/-- `MemWrite(S, i, 1, v)` of a space of `n` cells (20_memory.md rule R71). -/
def memWrite (m : Memory) (n : Nat) (i : Index) (v : Byte) : Eff Memory :=
  if n ≤ i.toNat then .raises .indexRange else .ok (m.write i.toNat v)

/-- `raise Fault(c)`: the step takes effect only as `FAULT <- c` (60_exceptions.md rule R222).  Nothing is saved: there is no handler for
faults and no return from one (R237), and a handler's entry saves and its return restores nothing (R235, R237).  Log entry 10. -/
def raiseFault (c : FaultCode) (s : State) : Host.Outcome State Fault Refusal :=
  .next { s with fault := c }

/-- The end of an atomic step that began in `s`: its writes land together, or none does (60_exceptions.md rule R222). -/
def commit (s : State) (body : Eff State) : Host.Outcome State Fault Refusal :=
  match body with
  | .ok s' => .next s'
  | .raises c => raiseFault c s
  | .bottom e => .fault (.bottomRead e)

/-- While `FAULT ≠ NONE`, no agent has a step (10_state.md rule R46). -/
def whileLive (s : State) (act : Host.Outcome State Fault Refusal) : Host.Outcome State Fault Refusal :=
  if s.fault = .noFault then act else .fault (.faulted s)

/-- `goto step X` (10_state.md rule R35). -/
def fgGoto (p : Phase) (s : State) : State := { s with fgPhase := p }

/-- `done` (10_state.md rule R35). -/
def fgDone (s : State) : State :=
  { s with fgPhase := .idle, fgPc := s.fgPc + 1, fgN := none, fgB := none }

/-- `respond(w)` (30_encoding.md rule R108). -/
def respond (w : RespWord) (s : State) : State := { s with respLog := s.respLog ++ [w] }

/-- A power cycle: every element at its power-up value (10_state.md rule R52, 60_exceptions.md rule R245); the run's parameters stay,
and so do the streams (10_state.md rule R47; log entry 13). -/
def powerCycle (s : State) : State :=
  State.powerUp s.cfg s.prog s.rxIn s.lineOut s.respLog s.sched s.draws

end Sys2Proof.Machine
end

