-- ==== Sys2Proof/Machine/Peripheral.lean ====
section
/-! DEFINITION. The nine peripheral primitives and the PER agent (44_peripheral_boundary.md). -/

namespace Sys2Proof.Machine

open Sys2Proof

/-- `P.set_line_speed(CLOCK_SET[k])` records `k` (44_peripheral_boundary.md rule R191); the speed itself is `State.lineSpeed`. -/
def setLineSpeed (k : BitVec 4) (s : State) : State := { s with lineClk := some k }

/-- `P.enable(tx, rx)`; a false argument leaves its bit (44_peripheral_boundary.md rule R192). -/
def enableLogic (tx rx : Bool) (s : State) : State :=
  let c := if tx then setBit s.ctrl 0 else s.ctrl
  { s with ctrl := if rx then setBit c 1 else c }

/-- `P.transmit_register_empty()` (44_peripheral_boundary.md rule R193). -/
def transmitRegisterEmpty (s : State) : Bool := s.txe

/-- `P.receive_data_ready()` (44_peripheral_boundary.md rule R194). -/
def receiveDataReady (s : State) : Bool := s.rxne

/-- `P.write_transmit_register(b)` (44_peripheral_boundary.md rule R195). -/
def writeTransmitRegister (b : Byte) (s : State) : Eff State :=
  if s.txe then .ok { s with txData := some b, pstat := clearBit s.pstat 0 } else .raises .txBusy

/-- `P.read_receive_register()`: the byte, and the state with `RXNE` cleared (44_peripheral_boundary.md rule R196). -/
def readReceiveRegister (s : State) : Eff (Byte × State) :=
  if s.rxne then
    (readReg .rxData s.rxData).bind fun v => .ok (v, { s with pstat := clearBit s.pstat 1 })
  else .raises .rxEmpty

/-- `P.enable_receive_interrupt()` (44_peripheral_boundary.md rule R197). -/
def enableReceiveInterrupt (s : State) : State := { s with ctrl := setBit s.ctrl 2 }

/-- `P.enable_transmit_interrupt()` (44_peripheral_boundary.md rule R198). -/
def enableTransmitInterrupt (s : State) : State := { s with ctrl := setBit s.ctrl 3 }

/-- `P.disable_transmit_interrupt()` (44_peripheral_boundary.md rule R199). -/
def disableTransmitInterrupt (s : State) : State := { s with ctrl := clearBit s.ctrl 3 }

/-- `overrun(b)`, at an arrival while `RXNE = 1`; `replaces` is read under `DRAW` only (44_peripheral_boundary.md rule R207). -/
def overrunArrival (replaces : Bool) (b : Byte) (s : State) : State :=
  match s.cfg.overrun with
  | .keepOld => s
  | .replace => { s with rxData := some b }
  | .draw => if replaces then { s with rxData := some b } else s

/-- The arrival of a byte already taken from `RX_IN` (44_peripheral_boundary.md rules R205, R206, R207). -/
def arrive (replaces : Bool) (b : Byte) (s : State) : State :=
  if !s.rxEn then s
  else if !s.rxne then { s with rxData := some b, pstat := setBit s.pstat 1 }
  else overrunArrival replaces b s

/-- PER's `RX_ARRIVE b` (44_peripheral_boundary.md rule R205). -/
def perRxArrive (replaces : Bool) (s : State) : Host.Outcome State Fault Refusal :=
  whileLive s <|
    match s.rxIn with
    | [] => .fault .notEnabled
    | b :: rest => .next (arrive replaces b { s with rxIn := rest })

/-- PER's `TX_DONE` (44_peripheral_boundary.md rule R204). -/
def perTxDone (s : State) : Host.Outcome State Fault Refusal :=
  whileLive s <|
    if s.txe then .fault .notEnabled
    else commit s <|
      (readReg .txData s.txData).bind fun b =>
        .ok { s with lineOut := s.lineOut ++ [b], pstat := setBit s.pstat 0 }

end Sys2Proof.Machine
end

