-- ==== Sys2Proof/Machine/Line.lean ====
section
/-! DEFINITION. The line controller: `INIT` (40_line_controller.md). -/

namespace Sys2Proof.Machine

open Sys2Proof

/-- "Resets both queues to empty": all four indices 0 (40_line_controller.md rule R130). -/
def resetIndices (s : State) : State :=
  { s with txHead := some 0#8, txTail := some 0#8, rxHead := some 0#8, rxTail := some 0#8 }

/-- `CTRL.INITED <- 1` (40_line_controller.md rule R130). -/
def markInited (s : State) : State := { s with ctrl := setBit s.ctrl 4 }

/-- The receive interrupt is enabled in interrupt mode only (40_line_controller.md rule R130, 90_conflicts.md C2). -/
def enableReceiveIfInterrupt (s : State) : State :=
  match s.cfg.rxMode with
  | .interrupt => enableReceiveInterrupt s
  | .polled => s

/-- The one micro-step of `INIT k`, in pseudocode order (40_line_controller.md rule R130). -/
def initStep (k : BitVec 4) (s : State) : State :=
  let s := disableTransmitInterrupt s
  let s := setLineSpeed k s
  let s := enableLogic true true s
  let s := resetIndices s
  let s := enableReceiveIfInterrupt s
  fgDone (markInited s)

/-- `INIT k` (40_line_controller.md rule R130): at an operation boundary (R132), for a supported clock (R106). -/
def execInit (k : BitVec 4) (s : State) : Host.Outcome State Fault Refusal :=
  if (clockIndex k).toNat < s.cfg.nclk then
    whileLive s <|
      match s.fgPhase with
      | .idle => .next (initStep k s)
      | .tx2 | .tx3 | .tx4 | .rx2 | .rx3 | .svcTx => .fault .notEnabled
  else .refused .refClock

end Sys2Proof.Machine
end

