-- ==== Sys2Proof/Machine/Transmit.lean ====
section
/-! DEFINITION. The transmit buffer manager: `TX_PUSH` and `TX_ISR` (41_transmit.md). -/

namespace Sys2Proof.Machine

open Sys2Proof

/-- `step TX.1` (41_transmit.md rule R141). -/
def txPush1 (b : Byte) (s : State) : Eff State :=
  if s.inited then
    (readReg .txHead s.txHead).bind fun h =>
    (readReg .txTail s.txTail).bind fun t =>
      let n := nextTx s.cfg h
      if n = t then .ok (fgDone (respond (respWord false 0x00#8) s))
      else .ok (fgGoto .tx2 { s with fgN := some n, fgB := some b })
  else .raises .notInit

/-- `step TX.2` (41_transmit.md rule R141). -/
def txPush2 (s : State) : Eff State :=
  (readReg .fgN s.fgN).bind fun n =>
  (readReg .fgB s.fgB).bind fun b =>
  (memWrite s.txBuf s.cfg.nTx n b).bind fun m =>
    .ok (fgGoto .tx3 { s with txBuf := m })

/-- `step TX.3` (41_transmit.md rule R141). -/
def txPush3 (s : State) : Eff State :=
  (readReg .fgN s.fgN).bind fun n => .ok (fgGoto .tx4 { s with txHead := some n })

/-- Arming after a successful enqueue: in interrupt mode, unconditionally; in polled mode, not at all (41_transmit.md rule R144). -/
def armTransmit (s : State) : State :=
  match s.cfg.txMode with
  | .interrupt => enableTransmitInterrupt s
  | .polled => s

/-- `step TX.4` (41_transmit.md rule R141). -/
def txPush4 (s : State) : Eff State := .ok (fgDone (respond (respWord true 0x00#8) (armTransmit s)))

/-- `TX_PUSH b`: its first micro-step between operations, and the micro-step `FG_PHASE` names while it is in progress
(41_transmit.md rule R141, 10_state.md rule R35; log entry 14). -/
def execTxPush (b : Byte) (s : State) : Host.Outcome State Fault Refusal :=
  whileLive s <|
    match s.fgPhase with
    | .idle => commit s (txPush1 b s)
    | .tx2 => commit s (txPush2 s)
    | .tx3 => commit s (txPush3 s)
    | .tx4 => commit s (txPush4 s)
    | .rx2 | .rx3 | .svcTx => .fault .notEnabled

/-- `tx_drain()` (41_transmit.md rule R145). -/
def txDrain (s : State) : Eff State :=
  (readReg .txHead s.txHead).bind fun h =>
  (readReg .txTail s.txTail).bind fun t =>
    if h = t then .ok (disableTransmitInterrupt s)
    else
      let t' := nextTx s.cfg t
      let s' := { s with txTail := some t' }
      (memRead s'.txBuf s'.cfg.nTx t').bind fun v => writeTransmitRegister v s'

/-- `TX_ISR`, the transmit handler, one atomic IH step, enabled exactly when `FAULT = NONE` and `TXIRQ = 1` (41_transmit.md
rule R146). -/
def execTxIsr (s : State) : Host.Outcome State Fault Refusal :=
  whileLive s <| if s.txIrq then commit s (txDrain s) else .fault .notEnabled

end Sys2Proof.Machine
end

