-- ==== Sys2Proof/Machine/Receive.lean ====
section
/-! DEFINITION. The receive buffer manager: `RX_ISR` and `RX_POP` (42_receive.md). -/

namespace Sys2Proof.Machine

open Sys2Proof

/-- `rx_fill()` (42_receive.md rule R161). -/
def rxFill (s : State) : Eff State :=
  (readReceiveRegister s).bind fun (b, s') =>
  (readReg .rxHead s'.rxHead).bind fun h =>
  (readReg .rxTail s'.rxTail).bind fun t =>
    let n := nextRx s'.cfg h
    if n = t then .ok s'
    else
      (memWrite s'.rxBuf s'.cfg.nRx n b).bind fun m =>
        .ok { s' with rxBuf := m, rxHead := some n }

/-- `RX_ISR`, the receive handler, one atomic IH step, enabled exactly when `FAULT = NONE` and `RXIRQ = 1` (42_receive.md
rule R162). -/
def execRxIsr (s : State) : Host.Outcome State Fault Refusal :=
  whileLive s <| if s.rxIrq then commit s (rxFill s) else .fault .notEnabled

/-- `step RX.1` (42_receive.md rule R165). -/
def rxPop1 (s : State) : Eff State :=
  if s.inited then
    (readReg .rxHead s.rxHead).bind fun h =>
    (readReg .rxTail s.rxTail).bind fun t =>
      if h = t then .ok (fgDone (respond (respWord false 0x00#8) s))
      else .ok (fgGoto .rx2 { s with fgN := some (nextRx s.cfg t) })
  else .raises .notInit

/-- `step RX.2` (42_receive.md rule R165). -/
def rxPop2 (s : State) : Eff State :=
  (readReg .fgN s.fgN).bind fun n => .ok (fgGoto .rx3 { s with rxTail := some n })

/-- `step RX.3` (42_receive.md rule R165). -/
def rxPop3 (s : State) : Eff State :=
  (readReg .fgN s.fgN).bind fun n =>
  (memRead s.rxBuf s.cfg.nRx n).bind fun v =>
    .ok (fgDone (respond (respWord true v) s))

/-- `RX_POP`: its first micro-step between operations, and the micro-step `FG_PHASE` names while it is in progress
(42_receive.md rule R165, 10_state.md rule R35; log entry 14). -/
def execRxPop (s : State) : Host.Outcome State Fault Refusal :=
  whileLive s <|
    match s.fgPhase with
    | .idle => commit s (rxPop1 s)
    | .rx2 => commit s (rxPop2 s)
    | .rx3 => commit s (rxPop3 s)
    | .tx2 | .tx3 | .tx4 | .svcTx => .fault .notEnabled

end Sys2Proof.Machine
end

