-- ==== Sys2Proof/Machine/Polling.lean ====
section
/-! DEFINITION. The polling fallback: `SERVICE` (43_polling.md). -/

namespace Sys2Proof.Machine

open Sys2Proof

/-- `step SVC.RX` (43_polling.md rules R180, R182). -/
def serviceRx (s : State) : Eff State :=
  if s.inited then
    (if s.cfg.rxMode = .polled ∧ receiveDataReady s then rxFill s else .ok s).bind fun s' => .ok (fgGoto .svcTx s')
  else .raises .notInit

/-- `step SVC.TX` (43_polling.md rules R180, R181). -/
def serviceTx (s : State) : Eff State :=
  (if s.cfg.txMode = .polled ∧ transmitRegisterEmpty s then txDrain s else .ok s).bind fun s' => .ok (fgDone s')

/-- `SERVICE`: `SVC.RX` between operations, `SVC.TX` while it is in progress (43_polling.md rule R180, 10_state.md rule R35;
log entry 14). -/
def execService (s : State) : Host.Outcome State Fault Refusal :=
  whileLive s <|
    match s.fgPhase with
    | .idle => commit s (serviceRx s)
    | .svcTx => commit s (serviceTx s)
    | .tx2 | .tx3 | .tx4 | .rx2 | .rx3 => .fault .notEnabled

end Sys2Proof.Machine
end

