-- ==== Sys2Proof/Machine/Dispatch.lean ====
section
/-! DEFINITION. One arm per instruction. -/

namespace Sys2Proof.Machine

open Sys2Proof

/-- One step of an instruction's execution: the micro-step it has in this state (00_scope.md rule R13). -/
def exec (i : Instr) (s : State) : Host.Outcome State Fault Refusal :=
  match i with
  | .init k => Sys2Proof.Machine.execInit k s
  | .txPush b => Sys2Proof.Machine.execTxPush b s
  | .rxPop => Sys2Proof.Machine.execRxPop s
  | .service => Sys2Proof.Machine.execService s
  | .txIsr => Sys2Proof.Machine.execTxIsr s
  | .rxIsr => Sys2Proof.Machine.execRxIsr s

end Sys2Proof.Machine
end

