-- ==== Sys2Proof/Machine/Sequencer.lean ====
section
/-! DEFINITION. The launch check (00_scope.md rule R8, 30_encoding.md rule R106), the foreground sequencer (10_state.md rule R35),
which steps are enabled (00_scope.md rule R6) and which one is taken (log entries 6, 7). -/

namespace Sys2Proof.Machine

open Sys2Proof

/-- Every word of `PROG` that decodes to `INIT k` has `k < NCLK` (30_encoding.md rule R106). -/
def clocksSupported (s : State) : Bool :=
  s.prog.all fun w =>
    match decode w with
    | some i => i.wf s.cfg
    | none => true

/-- The refusal of the launch, if any (60_exceptions.md rule R228; log entry 12). -/
def launchRefusal (s : State) : Option Refusal :=
  if !s.cfg.wf then some .refConfig
  else if !clocksSupported s then some .refClock
  else none

/-- FG decodes a word between operations (30_encoding.md rule R105; 60_exceptions.md rules R223, R225). -/
def fgDecode (w : CmdWord) (s : State) : Host.Outcome State Fault Refusal :=
  match decode w with
  | none => raiseFault .illegalOp s
  | some i => if i.isHandler then raiseFault .context s else exec i s

/-- FG executes the micro-step `FG_PHASE` names (10_state.md rule R35). -/
def fgContinue (s : State) : Host.Outcome State Fault Refusal :=
  match s.fgPhase with
  | .idle => .fault .notEnabled
  | .tx2 => commit s (txPush2 s)
  | .tx3 => commit s (txPush3 s)
  | .tx4 => commit s (txPush4 s)
  | .rx2 => commit s (rxPop2 s)
  | .rx3 => commit s (rxPop3 s)
  | .svcTx => commit s (serviceTx s)

/-- FG's step (10_state.md rule R35). -/
def fgStep (s : State) : Host.Outcome State Fault Refusal :=
  if s.fgPhase = .idle then
    match s.prog[s.fgPc]? with
    | some w => fgDecode w s
    | none => .fault .notEnabled
  else fgContinue s

/-- FG has a step (10_state.md rule R35), for a state without a fault. -/
def fgEnabled (s : State) : Bool := s.fgPhase != .idle || decide (s.fgPc < s.prog.length)

/-- The overrun of the next arrival is the free choice of `DRAW` (44_peripheral_boundary.md rule R207). -/
def drawOpen (s : State) : Bool := s.rxEn && s.rxne && s.cfg.overrun == .draw

/-- An agent's step is enabled: FG 10_state.md rule R35, IH 41_transmit.md rule R146 and 42_receive.md rule R162, PER
44_peripheral_boundary.md rules R204 and R205.  A power cycle is no agent's step. -/
def enabled (s : State) (e : Event) : Bool :=
  s.fault == .noFault &&
    match e with
    | .fg => fgEnabled s
    | .txIsr => s.txIrq
    | .rxIsr => s.rxIrq
    | .txDone => !s.txe
    | .rxArrive _ => !s.rxIn.isEmpty
    | .powerCycle => false

/-- The agents' steps, each outcome once: `RX_ARRIVE` stands twice only where `DRAW` gives it two outcomes. -/
def agentEvents (s : State) : List Event :=
  if drawOpen s then [.fg, .txIsr, .rxIsr, .txDone, .rxArrive false, .rxArrive true]
  else [.fg, .txIsr, .rxIsr, .txDone, .rxArrive false]

/-- The agents' steps that are enabled. -/
def choices (s : State) : List Event := (agentEvents s).filter (enabled s)

/-- The step taken of the enabled ones, `first :: more`: the scheduled one if it is enabled; with no schedule, the only one, or the
free choice.  A name that is not enabled leaves the first (log entries 6, 7). -/
def pick (s : State) (first : Event) (more : List Event) : Event :=
  match s.sched with
  | e :: _ => if enabled s e then e else first
  | [] =>
    match more with
    | [] => first
    | _ :: _ => if enabled s (Config.freeEvent s.draws) then Config.freeEvent s.draws else first

/-- The schedule moves on by one step, or the counter of free choices does (log entries 6, 7). -/
def consume (s : State) (more : List Event) : State :=
  match s.sched with
  | _ :: rest => { s with sched := rest }
  | [] =>
    match more with
    | [] => s
    | _ :: _ => { s with draws := s.draws + 1 }

/-- One event taken: FG's step, a handler run by IH (60_exceptions.md rules R234 to R237), a step of PER, or a power cycle. -/
def takeEvent (e : Event) (s : State) : Host.Outcome State Fault Refusal :=
  match e with
  | .fg => fgStep s
  | .txIsr => exec .txIsr s
  | .rxIsr => exec .rxIsr s
  | .txDone => perTxDone s
  | .rxArrive replaces => perRxArrive replaces s
  | .powerCycle => .next (powerCycle s)

/-- One step of one agent; a run ends when no agent has one (70_reset_and_hazards.md rule R281). -/
def agentStep (s : State) : Host.Outcome State Fault Refusal :=
  whileLive s <|
    match choices s with
    | [] => .fault (.runEnded s)
    | first :: more => takeEvent (pick s first more) (consume s more)

/-- One step of the machine once its launch is not refused: a scheduled power cycle, which comes whatever the state
(60_exceptions.md rules R222, R245; log entry 13), or a step of an agent. -/
def launchedStep (s : State) : Host.Outcome State Fault Refusal :=
  match s.sched with
  | .powerCycle :: rest => takeEvent .powerCycle { s with sched := rest }
  | [] | .fg :: _ | .txIsr :: _ | .rxIsr :: _ | .txDone :: _ | .rxArrive _ :: _ => agentStep s

/-- A word placed where FG fetches next, and FG scheduled to take the next step (log entries 4, 16).  DESIGN CHOICE: the spec describes no
such load; an operation in progress is given up where it stands, its effects so far kept, and FG is put between operations, where
`FG_PHASE` is `IDLE` and the locals `FG_N` and `FG_B` are `⊥` (10_state.md rules R34, R35). -/
def placeNextWord (s : State) (w : CmdWord) : State :=
  { s with prog := placeWord s.prog s.fgPc w, fgPhase := .idle, fgN := none, fgB := none, sched := .fg :: s.sched }

end Sys2Proof.Machine
end

