-- ==== Sys2Proof/Machine/Step.lean ====
section
/-! DEFINITION. One step of the machine, and the host's way to place an instruction. -/

namespace Sys2Proof.Machine

open Sys2Proof

/-- One step: the launch is refused before anything runs (60_exceptions.md rule R228), or one event is taken. -/
def step (s : State) : Host.Outcome State Fault Refusal :=
  match launchRefusal s with
  | some r => .refused r
  | none => launchedStep s

/-- The state with an opcode-table word as FG's next operation (log entries 4, 16). -/
def State.withFetchWord (s : State) (nbits w : Nat) : State := placeNextWord s (tableWord nbits w)

end Sys2Proof.Machine
end

