-- ==== Sys2Proof/Machine/Source.lean ====
section
/-! DEFINITION. Programs written with the source's API names: the four aliases (30_encoding.md rule R111), each expanded to one word, and
the loading of such a program, which a frequency outside `CLOCK_SET` refuses. -/

namespace Sys2Proof

/-- The source's API names (30_encoding.md rule R111). -/
inductive ApiCall where
  /-- `initialize(f)`, with f a frequency -/
  | initializeAt (f : Nat)
  /-- `transmit(b)` -/
  | transmit (b : Byte)
  /-- `receive()` -/
  | receive
  /-- `service()` -/
  | service
deriving DecidableEq, Repr

/-- The indices k below `NCLK` with `CLOCK_SET[k] = f` (00_scope.md rule R7, 30_encoding.md rule R111). -/
def clockIndices (c : Config) (f : Nat) : List Nat := (List.range c.nclk).filter fun k => Config.clockSet k == f

/-- The one operation an API call stands for, or the refusal `REF_CLOCK` of a frequency outside `CLOCK_SET` (30_encoding.md rules R106,
R111).  DESIGN CHOICE: rule R111 speaks of "the index with `CLOCK_SET[k] = f`" and `CLOCK_SET` is OPEN, its frequencies not said to
differ; where several indices hold f, which of them is taken is the free choice `Config.freeClock f` (log entry 25). -/
def ApiCall.expand (c : Config) : ApiCall → Except Machine.Refusal Instr
  | .initializeAt f =>
    match clockIndices c f with
    | [] => .error .refClock
    | k :: more => .ok (.init (BitVec.ofNat 4 ((k :: more).getD (Config.freeClock f % (more.length + 1)) k)))
  | .transmit b => .ok (.txPush b)
  | .receive => .ok .rxPop
  | .service => .ok .service

/-- One line of a program: a command word (that of an assembler line, rule R110, among them), or an API call. -/
inductive SourceLine where
  | word (w : CmdWord)
  | call (a : ApiCall)
deriving DecidableEq, Repr

/-- The one word of a line: "expands to exactly one word" (30_encoding.md rule R111). -/
def SourceLine.expand (c : Config) : SourceLine → Except Machine.Refusal CmdWord
  | .word w => .ok w
  | .call a =>
    match a.expand c with
    | .ok i => .ok (encode i)
    | .error r => .error r

/-- A program's words, a word a line, or the refusal of the first line that has none (30_encoding.md rule R111). -/
def expandProgram (c : Config) : List SourceLine → Except Machine.Refusal (List CmdWord)
  | [] => .ok []
  | l :: ls =>
    match l.expand c with
    | .error r => .error r
    | .ok w =>
      match expandProgram c ls with
      | .error r => .error r
      | .ok ws => .ok (w :: ws)

namespace Machine

/-- A program loaded from its source lines: `PROG` is their words, or the program is refused, before any step (30_encoding.md rules R106,
R111; log entries 4, 12).  The words of an accepted program still meet the launch check of `step`. -/
def loadProgram (s : State) (lines : List SourceLine) : Host.Outcome State Fault Refusal :=
  match expandProgram s.cfg lines with
  | .ok ws => .next { s with prog := ws }
  | .error r => .refused r

end Machine

end Sys2Proof
end

