-- ==== Sys2Proof/Safety.lean ====
section
/-! DEFINITION. What counts as a safe run: the machine's invariants (70_reset_and_hazards.md rules R262, R272 to R274;
41_transmit.md rule R152), the byte streams of the two queues (41_transmit.md rule R149, 42_receive.md rule R167), whole
operations, and the end of a run (70_reset_and_hazards.md rule R281). -/

namespace Sys2Proof.Machine

open Sys2Proof

/-- The launch is not refused (60_exceptions.md rule R228). -/
def LaunchOk (s : State) : Prop := s.cfg.wf = true ∧ clocksSupported s = true

/-- The word FG is at, decoded (10_state.md rule R34). -/
def currentInstr (s : State) : Option Instr := (s.prog[s.fgPc]?).bind decode

/-- The transmit queue with head `h` and tail `t` (70_reset_and_hazards.md rule R272). -/
structure TxQueue (s : State) (h t : Index) : Prop where
  head : s.txHead = some h
  tail : s.txTail = some t
  headLt : h.toNat < s.cfg.nTx
  tailLt : t.toNat < s.cfg.nTx
  written : ∀ i ∈ pendingFrom (nextTx s.cfg) (pendingCount s.cfg.nTx h t) t, (s.txBuf.read i.toNat).isSome = true
  atTx2 : s.fgPhase = .tx2 → s.fgN = some (nextTx s.cfg h) ∧ nextTx s.cfg h ≠ t
  atTx3 : s.fgPhase = .tx3 →
    s.fgN = some (nextTx s.cfg h) ∧ nextTx s.cfg h ≠ t ∧ s.txBuf.read (nextTx s.cfg h).toNat = s.fgB
  atTx4 : s.fgPhase = .tx4 → s.fgN = some h ∧ (s.txBuf.read h.toNat).isSome = true

/-- The receive queue with head `h` and tail `t` (70_reset_and_hazards.md rule R273). -/
structure RxQueue (s : State) (h t : Index) : Prop where
  head : s.rxHead = some h
  tail : s.rxTail = some t
  headLt : h.toNat < s.cfg.nRx
  tailLt : t.toNat < s.cfg.nRx
  written : ∀ i ∈ pendingFrom (nextRx s.cfg) (pendingCount s.cfg.nRx h t) t, (s.rxBuf.read i.toNat).isSome = true
  atRx2 : s.fgPhase = .rx2 → s.fgN = some (nextRx s.cfg t) ∧ h ≠ t
  atRx3 : s.fgPhase = .rx3 → s.fgN = some t ∧ (s.rxBuf.read t.toNat).isSome = true

/-- What holds once `INIT` has run. -/
structure Initialized (s : State) : Prop where
  txEn : s.txEn = true
  rxEn : s.rxEn = true
  rxie : s.rxie = (s.cfg.rxMode == .interrupt)
  polledTx : s.cfg.txMode = .polled → s.txie = false
  lineClk : ∃ k, s.lineClk = some k ∧ k.toNat < s.cfg.nclk
  tx : ∃ h t, TxQueue s h t
  rx : ∃ h t, RxQueue s h t
  noLostWakeup : s.cfg.txMode = .interrupt → s.fgPhase ≠ .tx4 → s.txHead ≠ s.txTail → s.txie = true

/-- Every element but `FAULT` and the streams is at its power-up value (70_reset_and_hazards.md rule R262). -/
def AtPowerUp (s : State) : Prop :=
  s = { State.powerUp s.cfg s.prog s.rxIn s.lineOut s.respLog s.sched s.draws with fault := s.fault }

/-- The operation in progress is the one of the current word (10_state.md rules R34, R35). -/
def InProgress (s : State) : Prop :=
  match s.fgPhase with
  | .idle => s.fgN = none ∧ s.fgB = none
  | .tx2 | .tx3 | .tx4 => ∃ b, currentInstr s = some (.txPush b) ∧ s.fgB = some b
  | .rx2 | .rx3 => currentInstr s = some .rxPop
  | .svcTx => currentInstr s = some .service

/-- The machine's invariant: it holds at power-up and every step keeps it. -/
structure Inv (s : State) : Prop where
  /-- `CTRL` bits 7:5 are always 0 (10_state.md rule R37). -/
  ctrlReserved : s.ctrlReserved = 0#3
  /-- The spaces are in canonical form, no cell outside them (20_memory.md rule R70). -/
  txBufWf : s.txBuf.wf
  rxBufWf : s.rxBuf.wf
  txBufIn : ∀ c ∈ s.txBuf, c.1 < s.cfg.nTx
  rxBufIn : ∀ c ∈ s.rxBuf, c.1 < s.cfg.nRx
  /-- `FG_PC` never passes the end of `PROG` (10_state.md rule R35). -/
  fgPcLe : s.fgPc ≤ s.prog.length
  inProgress : InProgress s
  /-- `PSTAT.TXE = 0` implies `TXDATA ≠ ⊥` (70_reset_and_hazards.md rule R274). -/
  txData : s.txe = false → s.txData.isSome = true
  /-- `RXDATA` holds the unread byte while `RXNE = 1` (10_state.md rule R45). -/
  rxData : s.rxne = true → s.rxData.isSome = true
  beforeInit : s.inited = false → AtPowerUp s
  afterInit : s.inited = true → Initialized s

/-- The bytes pending in the transmit queue, oldest first (41_transmit.md rule R140). -/
def txPending (s : State) : List (Option Byte) :=
  match s.txHead, s.txTail with
  | some h, some t => (pendingFrom (nextTx s.cfg) (pendingCount s.cfg.nTx h t) t).map fun i => s.txBuf.read i.toNat
  | _, _ => []

/-- The bytes pending in the receive queue, oldest first (42_receive.md rule R160). -/
def rxPending (s : State) : List (Option Byte) :=
  match s.rxHead, s.rxTail with
  | some h, some t => (pendingFrom (nextRx s.cfg) (pendingCount s.cfg.nRx h t) t).map fun i => s.rxBuf.read i.toNat
  | _, _ => []

/-- The byte being sent: `TXDATA` while `TXE = 0` (10_state.md rule R45). -/
def txInFlight (s : State) : List (Option Byte) := if s.txe then [] else [s.txData]

/-- The byte a `RX_POP` has taken off the queue and not yet returned: the cell `FG_N` in phase RX.3. -/
def rxInHand (s : State) : List (Option Byte) :=
  if s.fgPhase = .rx3 then [s.fgN.bind fun n => s.rxBuf.read n.toNat] else []

/-- What was sent, is being sent and is still to be sent, in order. -/
def txStream (s : State) : List (Option Byte) := s.lineOut.map some ++ txInFlight s ++ txPending s

/-- What a `RX_POP` has in hand and what is pending after it, in order. -/
def rxStream (s : State) : List (Option Byte) := rxInHand s ++ rxPending s

/-- The testable properties of the source's §8 in a state, numbered as 70_reset_and_hazards.md rule R275 numbers them. -/
structure TestableProperties (s : State) : Prop where
  /-- (1) A published byte is the last of the transmit queue (41_transmit.md rule R149). -/
  txFifoIn : ∀ b, s.fgPhase = .tx3 → ∃ t, exec (.txPush b) s = .next t ∧ txPending t = txPending s ++ [s.fgB]
  /-- (1) `tx_drain()` sends the first of the transmit queue (41_transmit.md rule R149). -/
  txFifoOut : s.txe = true → txPending s ≠ [] →
    ∃ t, txDrain s = .ok t ∧ t.txe = false ∧ txPending s = t.txData :: txPending t
  /-- (2) `TX_PUSH` fails exactly at `N_TX − 1` pending bytes and changes nothing when it fails (41_transmit.md rule R142(a)). -/
  pushFailsExactlyWhenFull : ∀ b, s.fgPhase = .idle →
    ∃ t, exec (.txPush b) s = .next t ∧
      (t.respLog = s.respLog ++ [0x0000#16] ↔ (txPending s).length = s.cfg.nTx - 1) ∧
      ((txPending s).length = s.cfg.nTx - 1 → t = { s with respLog := t.respLog, fgPc := s.fgPc + 1 })
  /-- (3) With room, `rx_fill()` adds the arrived byte as the last of the receive queue (42_receive.md rule R167). -/
  rxFifoIn : s.rxne = true → (rxPending s).length < s.cfg.nRx - 1 →
    ∃ t, rxFill s = .ok t ∧ rxPending t = rxPending s ++ [s.rxData]
  /-- (3) RX.2 takes the first of the receive queue (42_receive.md rule R167). -/
  rxFifoOut : s.fgPhase = .rx2 →
    ∃ t v, exec .rxPop s = .next t ∧ rxInHand t = [some v] ∧ rxPending s = some v :: rxPending t
  /-- (3) RX.3 returns the byte RX.2 took (42_receive.md rule R167). -/
  rxReturnsByteInHand : s.fgPhase = .rx3 →
    ∃ t v, exec .rxPop s = .next t ∧ rxInHand s = [some v] ∧ t.respLog = s.respLog ++ [0x0100#16 ||| v.zeroExtend 16]
  /-- (3) `RX_POP` answers "empty" exactly when nothing is pending (42_receive.md rule R166(a)). -/
  popIsEmptyExactlyWhenNothingPends : s.fgPhase = .idle →
    ∃ t, exec .rxPop s = .next t ∧ (t.respLog = s.respLog ++ [0x0000#16] ↔ rxPending s = [])
  /-- (4) A full receive queue drops the next byte, both indices unchanged: `RXNE` alone is written (42_receive.md rules R163(a), R164). -/
  fullReceiveQueueDrops : s.rxne = true → (rxPending s).length = s.cfg.nRx - 1 →
    ∃ t, rxFill s = .ok t ∧ t.rxne = false ∧ t.txe = s.txe ∧ t = { s with pstat := t.pstat }
  /-- (5) The transmit handler on an empty queue only disarms (41_transmit.md rule R147(a)). -/
  emptyHandlerOnlyDisarms : s.txIrq = true → txPending s = [] →
    ∃ t, exec .txIsr s = .next t ∧ t.txie = false ∧ (∀ j, j ≠ 3 → t.ctrl.getLsbD j = s.ctrl.getLsbD j) ∧
      t = { s with ctrl := t.ctrl }
  /-- (6) No lost wakeup (41_transmit.md rule R152). -/
  noLostWakeup : s.cfg.txMode = .interrupt → s.fgPhase ≠ .tx4 → txPending s ≠ [] → s.txie = true

/-- The next event is a power cycle. -/
def powerCycleNext (s : State) : Bool :=
  match s.sched with
  | .powerCycle :: _ => true
  | _ => false

/-- Between `s` and `s'`, FG executed an `INIT`. -/
def InitTaken (s s' : State) : Prop := (∃ k, currentInstr s = some (.init k)) ∧ s'.fgPc = s.fgPc + 1

/-- `n` micro-steps of an operation with no other step between them. -/
def execSteps (i : Instr) : Nat → State → Host.Outcome State Fault Refusal
  | 0, s => .next s
  | n + 1, s =>
    match exec i s with
    | .next s' => execSteps i n s'
    | .fault r => .fault r
    | .refused r => .refused r

/-- No agent has a step (70_reset_and_hazards.md rule R281). -/
def NoStep (s : State) : Prop := ∀ e, enabled s e = false

/-- The conditions of a successful end (70_reset_and_hazards.md rule R281). -/
def SuccessfulEnd (s : State) : Prop :=
  s.fault = .noFault ∧ s.fgPhase = .idle ∧ s.fgPc = s.prog.length ∧ s.txIrq = false ∧ s.rxIrq = false ∧ s.txe = true
    ∧ s.rxIn = []

/-- A faulted end (70_reset_and_hazards.md rule R281). -/
def FaultedEnd (s : State) : Prop := s.fault ≠ .noFault

/-- The observation of a run: "the tuple (`LINE_OUT`, `RESP_LOG`, `FAULT`) at its end, together with the final state"
(70_reset_and_hazards.md rule R281). -/
structure Observation where
  lineOut : List Byte
  respLog : List RespWord
  fault : FaultCode
  final : State
deriving DecidableEq, Repr

/-- The observation at a state. -/
def observation (s : State) : Observation := { lineOut := s.lineOut, respLog := s.respLog, fault := s.fault, final := s }

/-- What an outcome lets be observed: both ends of a run carry its final state (70_reset_and_hazards.md rule R281). -/
def observeOutcome (o : Host.Outcome State Fault Refusal) : Option Observation :=
  match o with
  | .fault (.runEnded final) => some (observation final)
  | .fault (.faulted final) => some (observation final)
  | .fault .notEnabled | .fault (.bottomRead _) | .next _ | .refused _ => none

/-- What a run of at most `n` steps from `s` lets be observed, if it has come to one of its two ends by then. -/
def observeRun (n : Nat) (s : State) : Option Observation := observeOutcome (Host.Core.run core n s)

/-- A state reached by steps of the machine from a launch: any parameters, program, input and schedule, at power-up. -/
def Reachable (s : State) : Prop :=
  ∃ cfg prog rxIn sched draws n,
    Host.Core.run core n (State.powerUp cfg prog rxIn [] [] sched draws) = .next s

/-- The micro-steps FG has left at most, four a word (41_transmit.md rule R141). -/
def fgLeft (s : State) : Nat :=
  4 * (s.prog.length - s.fgPc) -
    match s.fgPhase with
    | .idle => 0
    | .tx2 | .rx2 | .svcTx => 1
    | .tx3 | .rx3 => 2
    | .tx4 => 3

/-- A bound on the steps a run without a power cycle still takes: every step of every agent lowers it. -/
def stepsLeft (s : State) : Nat :=
  3 * fgLeft s + 2 * s.rxIn.length + (if s.rxne then 1 else 0) + 2 * (txPending s).length + (if s.txe then 0 else 1)
    + (if s.txie then 1 else 0)

end Sys2Proof.Machine
end

