-- ==== Sys2Proof/Certificates/Slice0/Obligations.lean ====
section
/-! DEFINITION. The statements for the provers, from the numbered rules of spec/.  A next state is written out as the state before it
with the named fields changed, so that every field not named is said to be unchanged: the frame.  The fields `sched` and `draws` are
the model's own (log entries 6, 7). -/

open Sys2Proof Sys2Proof.Machine

/-! ### Encoding -/

/-- Words written out from the encoding strings of 30_encoding.md rule R102. -/
def Obligations.WrittenOutWordsDecode : Prop :=
  decode 0b0001111100000000#16 = some (.init 15#4) ∧
  decode 0b0010000001000001#16 = some (.txPush 0x41#8) ∧
  decode 0b0011000000000000#16 = some .rxPop ∧
  decode 0b0100000000000000#16 = some .service ∧
  decode 0b1000000000000000#16 = some .txIsr ∧
  decode 0b1001000000000000#16 = some .rxIsr

/-- A word decodes to an instruction exactly when it is that instruction's encoding (30_encoding.md rules R100 to R105): every operand
at every value, and no second word for any instruction. -/
def Obligations.DecodeInvertsEncode : Prop :=
  ∀ (w : CmdWord) (i : Instr), decode w = some i ↔ encode i = w

/-- The rows of the opcode table are disjoint, and a word is legal exactly when a row covers it (30_encoding.md rules R102, R105). -/
def Obligations.OpcodeTableIsUnambiguous : Prop :=
  (∀ w : CmdWord, ∀ r₁ ∈ opcodeTable, ∀ r₂ ∈ opcodeTable, r₁.covers w = true → r₂.covers w = true → r₁ = r₂) ∧
  (∀ w : CmdWord, (∃ r ∈ opcodeTable, r.covers w = true) ↔ (decode w).isSome = true) ∧
  (∀ (w : CmdWord) (i : Instr), decode w = some i → i.row ∈ opcodeTable ∧ i.row.mnemonic = i.mnemonic ∧ i.row.covers w = true)

/-- A word with a reserved `OPC`, or with a reserved field that is not zero (30_encoding.md rules R103, R104). -/
def Sys2Proof.illegalWord (w : CmdWord) : Prop :=
  opcOf w ∈ [0x0#4, 0x5#4, 0x6#4, 0x7#4, 0xA#4, 0xB#4, 0xC#4, 0xD#4, 0xE#4, 0xF#4] ∨
  (opcOf w = 0x1#4 ∧ dataOf w ≠ 0x00#8) ∨
  (opcOf w = 0x2#4 ∧ argOf w ≠ 0x0#4) ∨
  (opcOf w ∈ [0x3#4, 0x4#4, 0x8#4, 0x9#4] ∧ (argOf w ≠ 0x0#4 ∨ dataOf w ≠ 0x00#8))

/-- FG decoding such a word raises `ILLEGAL_OP`, and `FG_PC` still indexes the word (60_exceptions.md rule R223). -/
def Obligations.ReservedWordsRaiseIllegalOp : Prop :=
  ∀ (s : State) (rest : List Event) (w : CmdWord),
    LaunchOk s → s.fault = .noFault → s.sched = .fg :: rest → s.fgPhase = .idle → s.prog[s.fgPc]? = some w →
    illegalWord w → step s = .next { s with sched := rest, fault := .illegalOp }

/-- FG decoding a handler-entry word raises `CONTEXT`; a handler runs only on its interrupt request (60_exceptions.md rule R225). -/
def Obligations.HandlerWordRaisesContext : Prop :=
  (∀ (s : State) (rest : List Event) (w : CmdWord),
    LaunchOk s → s.fault = .noFault → s.sched = .fg :: rest → s.fgPhase = .idle → s.prog[s.fgPc]? = some w →
    (w = 0x8000#16 ∨ w = 0x9000#16) → step s = .next { s with sched := rest, fault := .context }) ∧
  (∀ s t : State, exec .txIsr s = .next t → s.txIrq = true) ∧
  (∀ s t : State, exec .rxIsr s = .next t → s.rxIrq = true)

/-! ### The step and the launch -/

/-- Between operations, FG's step is `exec` of the instruction the word at `FG_PC` decodes to (10_state.md rule R35). -/
def Obligations.StepRunsDecodedOperation : Prop :=
  ∀ (s : State) (rest : List Event) (w : CmdWord) (i : Instr),
    LaunchOk s → s.fault = .noFault → s.sched = .fg :: rest → s.fgPhase = .idle → s.prog[s.fgPc]? = some w →
    decode w = some i → i.isHandler = false → step s = exec i { s with sched := rest }

/-- Inside an operation, FG's step is `exec` of the operation `FG_PHASE` names a micro-step of, whatever the word at `FG_PC`
(10_state.md rule R35). -/
def Obligations.StepContinuesOperationInProgress : Prop :=
  ∀ (s : State) (rest : List Event), LaunchOk s → s.fault = .noFault → s.sched = .fg :: rest →
    (s.fgPhase ∈ [Phase.tx2, .tx3, .tx4] → ∀ b, step s = exec (.txPush b) { s with sched := rest }) ∧
    (s.fgPhase ∈ [Phase.rx2, .rx3] → step s = exec .rxPop { s with sched := rest }) ∧
    (s.fgPhase = .svcTx → step s = exec .service { s with sched := rest })

/-- An asserted request, when IH is the agent that moves, runs its handler (60_exceptions.md rule R234). -/
def Obligations.StepRunsRequestedHandler : Prop :=
  ∀ (s : State) (rest : List Event), LaunchOk s → s.fault = .noFault →
    (s.txIrq = true → s.sched = .txIsr :: rest → step s = exec .txIsr { s with sched := rest }) ∧
    (s.rxIrq = true → s.sched = .rxIsr :: rest → step s = exec .rxIsr { s with sched := rest })

/-- "Any enabled step of any agent may be taken next" (00_scope.md rule R6), and no other: a schedule can name each enabled step, and
every step that answers a next state is an enabled step of an agent or a scheduled power cycle. -/
def Obligations.AnyEnabledStepMayBeTaken : Prop :=
  (∀ (s : State) (e : Event) (rest : List Event), LaunchOk s → enabled s e = true → s.sched = e :: rest →
    step s = takeEvent e { s with sched := rest }) ∧
  (∀ s t : State, step s = .next t →
    (∃ rest, s.sched = .powerCycle :: rest) ∨
    ∃ e sc d, enabled s e = true ∧ takeEvent e { s with sched := sc, draws := d } = .next t)

/-- What makes each agent's step enabled (10_state.md rule R35; 41_transmit.md rule R146; 42_receive.md rule R162;
44_peripheral_boundary.md rules R204, R205). -/
def Obligations.EnablingConditions : Prop :=
  ∀ s : State,
    (enabled s .fg = true ↔ s.fault = .noFault ∧ (s.fgPhase ≠ .idle ∨ s.fgPc < s.prog.length)) ∧
    (enabled s .txIsr = true ↔ s.fault = .noFault ∧ s.txie = true ∧ s.txe = true) ∧
    (enabled s .rxIsr = true ↔ s.fault = .noFault ∧ s.rxie = true ∧ s.rxne = true) ∧
    (enabled s .txDone = true ↔ s.fault = .noFault ∧ s.txe = false) ∧
    (∀ r, enabled s (.rxArrive r) = true ↔ s.fault = .noFault ∧ s.rxIn ≠ [])

/-- The launch is refused exactly for a parameter outside its legal values or a program with `INIT k` where `k ≥ NCLK`, under the name of
a reason that holds; nothing else is refused (60_exceptions.md rule R228, 00_scope.md rule R7). -/
def Obligations.OnlyIllegalLaunchesAreRefused : Prop :=
  ∀ s : State,
    let legal := 2 ≤ s.cfg.nTx ∧ s.cfg.nTx ≤ 256 ∧ s.cfg.nRx ∈ [2, 4, 8, 16, 32, 64, 128, 256] ∧ 1 ≤ s.cfg.nclk ∧ s.cfg.nclk ≤ 16
    let unsupported := ∃ w ∈ s.prog, ∃ k, decode w = some (.init k) ∧ s.cfg.nclk ≤ k.toNat
    (¬ legal ∨ unsupported → step s = .refused .refConfig ∨ step s = .refused .refClock) ∧
    (step s = .refused .refConfig → ¬ legal) ∧ (step s = .refused .refClock → unsupported) ∧
    (∀ m, step s ≠ .refused (.notModelled m))

/-- `exec` gives no meaning to an `INIT` of an unsupported clock (30_encoding.md rule R106; log entry 24). -/
def Obligations.InitOfUnsupportedClockRefused : Prop :=
  ∀ (k : BitVec 4) (s : State), s.cfg.nclk ≤ k.toNat → exec (.init k) s = .refused .refClock

/-! ### Power-up, power cycles, faults -/

/-- The state at power-up (10_state.md rule R52); the empty program, input and schedule are the model's choices (log entries 4 to 6). -/
def Obligations.PowerUpState : Prop :=
  let s := State.reset
  s.ctrl = 0x00#8 ∧ s.txHead = none ∧ s.txTail = none ∧ s.rxHead = none ∧ s.rxTail = none ∧ s.lineClk = none ∧
  s.txe = true ∧ s.rxne = false ∧ s.txData = none ∧ s.rxData = none ∧ s.fault = .noFault ∧ s.fault.code = 0#4 ∧
  (∀ a, s.txBuf.read a = none ∧ s.rxBuf.read a = none) ∧ s.fgPc = 0 ∧ s.fgPhase = .idle ∧ s.fgN = none ∧ s.fgB = none ∧
  s.lineOut = [] ∧ s.respLog = [] ∧ s.rxIn = [] ∧ s.prog = [] ∧ s.sched = []

/-- A scheduled power cycle returns the machine to the power-up state, whatever the state, a fault among them (60_exceptions.md rules
R222, R245).  That the streams, the input still to come among them, stay is 10_state.md rule R47; log entry 13. -/
def Obligations.PowerCycleRestoresPowerUp : Prop :=
  ∀ (s : State) (rest : List Event), LaunchOk s → s.sched = .powerCycle :: rest →
    step s = .next (State.powerUp s.cfg s.prog s.rxIn s.lineOut s.respLog rest s.draws)

/-- A step that raises a fault writes `FAULT` and nothing else; afterwards no agent has a step, and no step but a power cycle changes
`FAULT` again (60_exceptions.md rule R222). -/
def Obligations.RaisedFaultIsAloneAndFinal : Prop :=
  (∀ s t : State, step s = .next t → powerCycleNext s = false → t.fault ≠ s.fault →
    t = { s with fault := t.fault, sched := t.sched, draws := t.draws }) ∧
  (∀ s : State, s.fault ≠ .noFault → NoStep s ∧ ∀ i t, exec i s ≠ .next t) ∧
  (∀ s : State, LaunchOk s → s.fault ≠ .noFault → powerCycleNext s = false → step s = .fault (.faulted s)) ∧
  (∀ (s : State) (rest : List Event), LaunchOk s → s.sched = .powerCycle :: rest →
    ∃ t, step s = .next t ∧ t.fault = .noFault)

/-- Before `INIT`, the first micro-step of `TX_PUSH`, `RX_POP` and `SERVICE` raises `NOT_INIT` (60_exceptions.md rule R224). -/
def Obligations.OperationBeforeInitRaisesNotInit : Prop :=
  ∀ (s : State) (b : Byte), s.fault = .noFault → s.fgPhase = .idle → s.inited = false →
    exec (.txPush b) s = .next { s with fault := .notInit } ∧
    exec .rxPop s = .next { s with fault := .notInit } ∧
    exec .service s = .next { s with fault := .notInit }

/-- Before `INIT`, no handler can run, no transmission completes, and an arriving byte is discarded (70_reset_and_hazards.md
rule R262). -/
def Obligations.NothingMovesBeforeInit : Prop :=
  ∀ s : State, Inv s → s.fault = .noFault → s.inited = false →
    enabled s .txIsr = false ∧ enabled s .rxIsr = false ∧ enabled s .txDone = false ∧
    (∀ r b rest, s.rxIn = b :: rest → perRxArrive r s = .next { s with rxIn := rest }) ∧
    s.txHead = none ∧ s.txTail = none ∧ s.rxHead = none ∧ s.rxTail = none

/-! ### INIT -/

/-- The state after `INIT k` (10_state.md rule R53).  The premise on `RXIE` in polled mode is a part of the invariant `Inv`. -/
def Obligations.InitResetsQueuesAndEnables : Prop :=
  ∀ (k : BitVec 4) (s : State), s.fault = .noFault → s.fgPhase = .idle → k.toNat < s.cfg.nclk →
    (s.cfg.rxMode = .polled → s.rxie = false) →
    ∃ t, exec (.init k) s = .next t ∧
      t.txEn = true ∧ t.rxEn = true ∧ t.rxie = (s.cfg.rxMode == .interrupt) ∧ t.txie = false ∧ t.inited = true ∧
      t.ctrlReserved = s.ctrlReserved ∧
      t = { s with
        ctrl := t.ctrl, txHead := some 0#8, txTail := some 0#8, rxHead := some 0#8, rxTail := some 0#8, lineClk := some k,
        fgPhase := .idle, fgPc := s.fgPc + 1, fgN := none, fgB := none }

/-! ### TX_PUSH -/

/-- `TX_PUSH` with room in the queue, with no other step inside: the byte stored at `next_tx(TX_HEAD)`, the head published, the
interrupt armed in interrupt mode, 0x0100 returned (41_transmit.md rules R141, R144). -/
def Obligations.TxPushStoresPublishesArms : Prop :=
  ∀ (b : Byte) (s : State) (h tl : Index), s.cfg.wf = true → s.txBuf.wf → s.fault = .noFault → s.fgPhase = .idle →
    s.inited = true → s.txHead = some h → s.txTail = some tl → h.toNat < s.cfg.nTx → tl.toNat < s.cfg.nTx →
    pendingCount s.cfg.nTx h tl < s.cfg.nTx - 1 →
    ∃ t, execSteps (.txPush b) 4 s = .next t ∧
      (∀ a, t.txBuf.read a = if a = (nextTx s.cfg h).toNat then some b else s.txBuf.read a) ∧
      t.txie = (s.txie || s.cfg.txMode == .interrupt) ∧ (∀ j, j ≠ 3 → t.ctrl.getLsbD j = s.ctrl.getLsbD j) ∧
      t = { s with
        txBuf := t.txBuf, txHead := some (nextTx s.cfg h), ctrl := t.ctrl, respLog := s.respLog ++ [0x0100#16],
        fgPhase := .idle, fgPc := s.fgPc + 1, fgN := none, fgB := none }

/-- `TX_PUSH` on a full queue, `N_TX − 1` bytes pending: 0x0000 returned, nothing else changed (41_transmit.md rule R143). -/
def Obligations.TxPushOnFullQueueOnlyResponds : Prop :=
  ∀ (b : Byte) (s : State) (h tl : Index), s.cfg.wf = true → s.fault = .noFault → s.fgPhase = .idle → s.inited = true →
    s.txHead = some h → s.txTail = some tl → h.toNat < s.cfg.nTx → tl.toNat < s.cfg.nTx →
    pendingCount s.cfg.nTx h tl = s.cfg.nTx - 1 →
    exec (.txPush b) s =
      .next { s with respLog := s.respLog ++ [0x0000#16], fgPhase := .idle, fgPc := s.fgPc + 1, fgN := none, fgB := none }

/-- The four micro-steps of a `TX_PUSH` that finds room, each from the state another agent's step may have left (41_transmit.md
rule R141): what each writes, and nothing else. -/
def Obligations.TxPushMicroSteps : Prop :=
  ∀ (b : Byte) (s : State), s.fault = .noFault →
    (∀ h tl, s.fgPhase = .idle → s.inited = true → s.txHead = some h → s.txTail = some tl → nextTx s.cfg h ≠ tl →
      exec (.txPush b) s = .next { s with fgPhase := .tx2, fgN := some (nextTx s.cfg h), fgB := some b }) ∧
    (∀ n c, s.fgPhase = .tx2 → s.fgN = some n → s.fgB = some c → n.toNat < s.cfg.nTx → s.txBuf.wf →
      ∃ t, exec (.txPush b) s = .next t ∧
        (∀ a, t.txBuf.read a = if a = n.toNat then some c else s.txBuf.read a) ∧
        t = { s with fgPhase := .tx3, txBuf := t.txBuf }) ∧
    (∀ n, s.fgPhase = .tx3 → s.fgN = some n →
      exec (.txPush b) s = .next { s with fgPhase := .tx4, txHead := some n }) ∧
    (s.fgPhase = .tx4 →
      ∃ t, exec (.txPush b) s = .next t ∧
        t.txie = (s.txie || s.cfg.txMode == .interrupt) ∧ (∀ j, j ≠ 3 → t.ctrl.getLsbD j = s.ctrl.getLsbD j) ∧
        t = { s with
          ctrl := t.ctrl, respLog := s.respLog ++ [0x0100#16], fgPhase := .idle, fgPc := s.fgPc + 1, fgN := none,
          fgB := none })

/-! ### TX_ISR -/

/-- `TX_ISR` on a queue that is not empty: the tail advanced, its byte in `TXDATA`, `TXE` cleared, `TXIE` as it was (41_transmit.md rules
R145, R146). -/
def Obligations.TxIsrSendsOldestByte : Prop :=
  ∀ (s : State) (h tl : Index) (v : Byte), s.cfg.wf = true → s.fault = .noFault → s.txIrq = true → s.txHead = some h →
    s.txTail = some tl → h ≠ tl → tl.toNat < s.cfg.nTx → s.txBuf.read (nextTx s.cfg tl).toNat = some v →
    ∃ t, exec .txIsr s = .next t ∧ t.txe = false ∧ t.rxne = s.rxne ∧
      t = { s with txTail := some (nextTx s.cfg tl), txData := some v, pstat := t.pstat }

/-- `TX_ISR` on an empty queue clears `TXIE` and changes nothing else (41_transmit.md rules R145, R147). -/
def Obligations.TxIsrOnEmptyQueueOnlyDisarms : Prop :=
  ∀ (s : State) (h : Index), s.fault = .noFault → s.txIrq = true → s.txHead = some h → s.txTail = some h →
    ∃ t, exec .txIsr s = .next t ∧ t.txie = false ∧ (∀ j, j ≠ 3 → t.ctrl.getLsbD j = s.ctrl.getLsbD j) ∧
      t = { s with ctrl := t.ctrl }

/-! ### RX_ISR -/

/-- `RX_ISR` with room in the queue: the byte of `RXDATA` stored at `next_rx(RX_HEAD)`, the head published, `RXNE` cleared
(42_receive.md rules R161, R162). -/
def Obligations.RxIsrStoresArrivedByte : Prop :=
  ∀ (s : State) (h tl : Index) (v : Byte), s.cfg.wf = true → s.rxBuf.wf → s.fault = .noFault → s.rxIrq = true →
    s.rxData = some v → s.rxHead = some h → s.rxTail = some tl → h.toNat < s.cfg.nRx → tl.toNat < s.cfg.nRx →
    pendingCount s.cfg.nRx h tl < s.cfg.nRx - 1 →
    ∃ t, exec .rxIsr s = .next t ∧ t.rxne = false ∧ t.txe = s.txe ∧
      (∀ a, t.rxBuf.read a = if a = (nextRx s.cfg h).toNat then some v else s.rxBuf.read a) ∧
      t = { s with rxBuf := t.rxBuf, rxHead := some (nextRx s.cfg h), pstat := t.pstat }

/-- The receive fill on a full queue, `N_RX − 1` bytes pending: the byte is read and dropped, only `RXNE` is written; so `RX_ISR`
(42_receive.md rule R164). -/
def Obligations.RxIsrOnFullQueueDropsByte : Prop :=
  ∀ (s : State) (h tl : Index) (v : Byte), s.cfg.wf = true → s.rxne = true → s.rxData = some v →
    s.rxHead = some h → s.rxTail = some tl → h.toNat < s.cfg.nRx → tl.toNat < s.cfg.nRx →
    pendingCount s.cfg.nRx h tl = s.cfg.nRx - 1 →
    ∃ t, rxFill s = .ok t ∧ t.rxne = false ∧ t.txe = s.txe ∧ t = { s with pstat := t.pstat } ∧
      (s.fault = .noFault → s.rxIrq = true → exec .rxIsr s = .next t)

/-- A handler whose request is not asserted has no step (41_transmit.md rule R146, 42_receive.md rule R162); `exec` then stops by the
model's own name (log entry 14). -/
def Obligations.HandlerWithoutRequestHasNoStep : Prop :=
  ∀ s : State, s.fault = .noFault →
    (s.txIrq = false → exec .txIsr s = .fault .notEnabled ∧ enabled s .txIsr = false) ∧
    (s.rxIrq = false → exec .rxIsr s = .fault .notEnabled ∧ enabled s .rxIsr = false)

/-- A handler's run, with no fault, takes its request away: IH does not fire without end (41_transmit.md rule R148, 42_receive.md
rule R163, 70_reset_and_hazards.md rule R267). -/
def Obligations.HandlerClearsItsRequest : Prop :=
  ∀ s t : State, s.fault = .noFault → t.fault = .noFault →
    (exec .txIsr s = .next t → t.txIrq = false) ∧ (exec .rxIsr s = .next t → t.rxIrq = false)

/-- Neither handler touches the foreground's sequencer or the other queue, whatever it does (60_exceptions.md rules R232, R235). -/
def Obligations.HandlersTouchOnlyTheirQueue : Prop :=
  (∀ s t : State, exec .txIsr s = .next t →
    t = { s with txTail := t.txTail, ctrl := t.ctrl, txData := t.txData, pstat := t.pstat, fault := t.fault } ∧
    t.rxne = s.rxne ∧ (∀ j, j ≠ 3 → t.ctrl.getLsbD j = s.ctrl.getLsbD j)) ∧
  (∀ s t : State, exec .rxIsr s = .next t →
    t = { s with rxHead := t.rxHead, rxBuf := t.rxBuf, pstat := t.pstat, fault := t.fault } ∧ t.txe = s.txe)

/-- With both requests asserted, the two handlers give the same state in either order (60_exceptions.md rule R232). -/
def Obligations.HandlersCommute : Prop :=
  ∀ s : State, Inv s → s.cfg.wf = true → s.fault = .noFault → s.txIrq = true → s.rxIrq = true →
    ∃ u v t, exec .txIsr s = .next u ∧ exec .rxIsr u = .next t ∧ exec .rxIsr s = .next v ∧ exec .txIsr v = .next t

/-! ### RX_POP -/

/-- `RX_POP` of a queue that is not empty, with no other step inside: the tail advanced, its byte returned with `VALID`
(42_receive.md rule R165). -/
def Obligations.RxPopReturnsOldestByte : Prop :=
  ∀ (s : State) (h tl : Index) (v : Byte), s.cfg.wf = true → s.fault = .noFault → s.fgPhase = .idle → s.inited = true →
    s.rxHead = some h → s.rxTail = some tl → h ≠ tl → s.rxBuf.read (nextRx s.cfg tl).toNat = some v →
    execSteps .rxPop 3 s =
      .next { s with
        rxTail := some (nextRx s.cfg tl), respLog := s.respLog ++ [0x0100#16 ||| v.zeroExtend 16], fgPhase := .idle,
        fgPc := s.fgPc + 1, fgN := none, fgB := none }

/-- `RX_POP` of an empty queue: 0x0000 returned, nothing else changed (42_receive.md rules R165, R166). -/
def Obligations.RxPopOnEmptyQueueOnlyResponds : Prop :=
  ∀ (s : State) (h : Index), s.fault = .noFault → s.fgPhase = .idle → s.inited = true → s.rxHead = some h →
    s.rxTail = some h →
    exec .rxPop s =
      .next { s with respLog := s.respLog ++ [0x0000#16], fgPhase := .idle, fgPc := s.fgPc + 1, fgN := none, fgB := none }

/-- The three micro-steps of a `RX_POP` that finds a byte, each from the state another agent's step may have left (42_receive.md
rule R165): what each writes, and nothing else. -/
def Obligations.RxPopMicroSteps : Prop :=
  ∀ s : State, s.fault = .noFault →
    (∀ h tl, s.fgPhase = .idle → s.inited = true → s.rxHead = some h → s.rxTail = some tl → h ≠ tl →
      exec .rxPop s = .next { s with fgPhase := .rx2, fgN := some (nextRx s.cfg tl) }) ∧
    (∀ n, s.fgPhase = .rx2 → s.fgN = some n → exec .rxPop s = .next { s with fgPhase := .rx3, rxTail := some n }) ∧
    (∀ n v, s.fgPhase = .rx3 → s.fgN = some n → n.toNat < s.cfg.nRx → s.rxBuf.read n.toNat = some v →
      exec .rxPop s =
        .next { s with
          respLog := s.respLog ++ [0x0100#16 ||| v.zeroExtend 16], fgPhase := .idle, fgPc := s.fgPc + 1, fgN := none,
          fgB := none })

/-! ### SERVICE -/

/-- In a direction whose mode is `INTERRUPT`, `SERVICE` does nothing, whatever the other direction's mode and whatever is pending: `SVC.RX`
only moves on to `SVC.TX`, and `SVC.TX` only ends the operation (43_polling.md rule R183).  So with both modes `INTERRUPT` it changes no
state but the sequencer's and appends no response; and in every mode it checks `INITED` first (rule R184). -/
def Obligations.ServiceInInterruptModesChangesNothing : Prop :=
  ∀ s : State, s.fault = .noFault →
    (s.cfg.rxMode = .interrupt → s.fgPhase = .idle → s.inited = true →
      exec .service s = .next { s with fgPhase := .svcTx }) ∧
    (s.cfg.txMode = .interrupt → s.fgPhase = .svcTx →
      exec .service s = .next { s with fgPhase := .idle, fgPc := s.fgPc + 1, fgN := none, fgB := none }) ∧
    (s.cfg.txMode = .interrupt → s.cfg.rxMode = .interrupt → s.fgPhase = .idle → s.inited = true →
      execSteps .service 2 s = .next { s with fgPhase := .idle, fgPc := s.fgPc + 1, fgN := none, fgB := none }) ∧
    (s.fgPhase = .idle → s.inited = false → exec .service s = .next { s with fault := .notInit })

/-- `SVC.RX` with `RX_MODE = POLLED`: nothing without an unread byte; else the mandatory read, then the byte stored or dropped
(43_polling.md rules R180, R182). -/
def Obligations.ServicePollsReceive : Prop :=
  ∀ (s : State) (h tl : Index), s.cfg.wf = true → s.rxBuf.wf → s.cfg.rxMode = .polled → s.fault = .noFault →
    s.fgPhase = .idle → s.inited = true → s.rxHead = some h → s.rxTail = some tl → h.toNat < s.cfg.nRx → tl.toNat < s.cfg.nRx →
    (s.rxne = false → exec .service s = .next { s with fgPhase := .svcTx }) ∧
    (∀ v, s.rxne = true → s.rxData = some v → pendingCount s.cfg.nRx h tl < s.cfg.nRx - 1 →
      ∃ t, exec .service s = .next t ∧ t.rxne = false ∧ t.txe = s.txe ∧
        (∀ a, t.rxBuf.read a = if a = (nextRx s.cfg h).toNat then some v else s.rxBuf.read a) ∧
        t = { s with rxBuf := t.rxBuf, rxHead := some (nextRx s.cfg h), pstat := t.pstat, fgPhase := .svcTx }) ∧
    (∀ v, s.rxne = true → s.rxData = some v → pendingCount s.cfg.nRx h tl = s.cfg.nRx - 1 →
      ∃ t, exec .service s = .next t ∧ t.rxne = false ∧ t.txe = s.txe ∧ t = { s with pstat := t.pstat, fgPhase := .svcTx })

/-- `SVC.TX` with `TX_MODE = POLLED`: nothing while a byte is being sent; else one byte taken and sent, or, on an empty queue, `TXIE`
written to 0 (43_polling.md rules R180, R181). -/
def Obligations.ServicePollsTransmit : Prop :=
  ∀ (s : State) (h tl : Index), s.cfg.wf = true → s.cfg.txMode = .polled → s.fault = .noFault → s.fgPhase = .svcTx →
    s.txHead = some h → s.txTail = some tl → tl.toNat < s.cfg.nTx →
    (s.txe = false →
      exec .service s = .next { s with fgPhase := .idle, fgPc := s.fgPc + 1, fgN := none, fgB := none }) ∧
    (s.txe = true → h = tl →
      ∃ t, exec .service s = .next t ∧ t.txie = false ∧ (∀ j, j ≠ 3 → t.ctrl.getLsbD j = s.ctrl.getLsbD j) ∧
        t = { s with ctrl := t.ctrl, fgPhase := .idle, fgPc := s.fgPc + 1, fgN := none, fgB := none }) ∧
    (∀ v, s.txe = true → h ≠ tl → s.txBuf.read (nextTx s.cfg tl).toNat = some v →
      ∃ t, exec .service s = .next t ∧ t.txe = false ∧ t.rxne = s.rxne ∧
        t = { s with
          txTail := some (nextTx s.cfg tl), txData := some v, pstat := t.pstat, fgPhase := .idle, fgPc := s.fgPc + 1,
          fgN := none, fgB := none })

/-! ### The peripheral -/

/-- PER's `TX_DONE`: the byte of `TXDATA` appended to `LINE_OUT`, `TXE` set (44_peripheral_boundary.md rule R204). -/
def Obligations.TxDonePutsByteOnLine : Prop :=
  ∀ (s : State) (b : Byte), s.fault = .noFault → s.txe = false → s.txData = some b →
    ∃ t, perTxDone s = .next t ∧ t.txe = true ∧ t.rxne = s.rxne ∧
      t = { s with lineOut := s.lineOut ++ [b], pstat := t.pstat }

/-- PER's `RX_ARRIVE b`: discarded while the receiver is off, latched while `RXDATA` holds no unread byte, and an overrun otherwise, in
which exactly one of the two bytes is lost, under `DRAW` either one (44_peripheral_boundary.md rules R205, R206, R207). -/
def Obligations.RxArriveLatchesDiscardsOrOverruns : Prop :=
  ∀ (s : State) (b : Byte) (rest : List Byte), s.fault = .noFault → s.rxIn = b :: rest →
    (s.rxEn = false → ∀ r, perRxArrive r s = .next { s with rxIn := rest }) ∧
    (s.rxEn = true → s.rxne = false → ∀ r,
      ∃ t, perRxArrive r s = .next t ∧ t.rxne = true ∧ t.txe = s.txe ∧
        t = { s with rxIn := rest, rxData := some b, pstat := t.pstat }) ∧
    (s.rxEn = true → s.rxne = true →
      (s.cfg.overrun = .keepOld → ∀ r, perRxArrive r s = .next { s with rxIn := rest }) ∧
      (s.cfg.overrun = .replace → ∀ r, perRxArrive r s = .next { s with rxIn := rest, rxData := some b }) ∧
      (s.cfg.overrun = .draw →
        perRxArrive false s = .next { s with rxIn := rest } ∧
        perRxArrive true s = .next { s with rxIn := rest, rxData := some b }))

/-- Arming and disarming write the one bit `TXIE` and leave every other bit of `CTRL` and all other state (44_peripheral_boundary.md
rules R198, R199). -/
def Obligations.TxieIsWrittenAsOneBit : Prop :=
  ∀ s : State,
    (enableTransmitInterrupt s).txie = true ∧ (disableTransmitInterrupt s).txie = false ∧
    (∀ j, j ≠ 3 → (enableTransmitInterrupt s).ctrl.getLsbD j = s.ctrl.getLsbD j ∧
      (disableTransmitInterrupt s).ctrl.getLsbD j = s.ctrl.getLsbD j) ∧
    enableTransmitInterrupt s = { s with ctrl := (enableTransmitInterrupt s).ctrl } ∧
    disableTransmitInterrupt s = { s with ctrl := (disableTransmitInterrupt s).ctrl } ∧
    enableTransmitInterrupt (enableTransmitInterrupt s) = enableTransmitInterrupt s ∧
    disableTransmitInterrupt (disableTransmitInterrupt s) = disableTransmitInterrupt s

/-- The two data-register primitives and their guards (44_peripheral_boundary.md rules R195, R196). -/
def Obligations.DataRegisterPrimitives : Prop :=
  ∀ (s : State) (b : Byte),
    (s.txe = false → writeTransmitRegister b s = .raises .txBusy) ∧
    (s.txe = true → ∃ t, writeTransmitRegister b s = .ok t ∧ t.txe = false ∧ t.rxne = s.rxne ∧
      t = { s with txData := some b, pstat := t.pstat }) ∧
    (s.rxne = false → readReceiveRegister s = .raises .rxEmpty) ∧
    (s.rxne = true → s.rxData = some b → ∃ t, readReceiveRegister s = .ok (b, t) ∧ t.rxne = false ∧ t.txe = s.txe ∧
      t = { s with pstat := t.pstat })

/-! ### Memory and index arithmetic -/

/-- `MemRead` and `MemWrite`: the two faults and the effect (20_memory.md rule R71). -/
def Obligations.BufferAccessAndItsFaults : Prop :=
  ∀ (m : Memory) (n : Nat) (i : Index) (v : Byte), m.wf →
    (n ≤ i.toNat → memRead m n i = .raises .indexRange ∧ memWrite m n i v = .raises .indexRange) ∧
    (i.toNat < n → m.read i.toNat = none → memRead m n i = .raises .unwritten) ∧
    (i.toNat < n → m.read i.toNat = some v → memRead m n i = .ok v) ∧
    (i.toNat < n → ∃ m', memWrite m n i v = .ok m' ∧ m'.wf ∧ memRead m' n i = .ok v ∧
      ∀ a, a ≠ i.toNat → m'.read a = m.read a)

/-- The successor functions: compare-and-wrap and mask, in range, a full cycle of `N` and no shorter one (00_scope.md rule R14,
20_memory.md rule R91). -/
def Obligations.SuccessorsCycleThroughTheQueue : Prop :=
  ∀ c : Config, c.wf = true →
    (∀ i : Index, i.toNat < c.nTx → (nextTx c i).toNat = (if i.toNat + 1 = c.nTx then 0 else i.toNat + 1)) ∧
    (∀ i : Index, i.toNat < c.nRx →
      (nextRx c i).toNat = (i.toNat + 1) &&& (c.nRx - 1) ∧ (nextRx c i).toNat = (i.toNat + 1) % c.nRx) ∧
    (∀ i : Index, i.toNat < c.nTx → (nextTx c)^[c.nTx] i = i ∧ ∀ k, 0 < k → k < c.nTx → (nextTx c)^[k] i ≠ i) ∧
    (∀ i : Index, i.toNat < c.nRx → (nextRx c)^[c.nRx] i = i ∧ ∀ k, 0 < k → k < c.nRx → (nextRx c)^[k] i ≠ i)

/-- The pending counts: empty at 0, full at `N − 1`, one more after an enqueue, one less after a dequeue (00_scope.md rule R15,
20_memory.md rule R91). -/
def Obligations.CountsTellEmptyAndFull : Prop :=
  ∀ c : Config, c.wf = true →
    (∀ h t : Index, h.toNat < c.nTx → t.toNat < c.nTx →
      (pendingCount c.nTx h t = 0 ↔ h = t) ∧ (pendingCount c.nTx h t = c.nTx - 1 ↔ nextTx c h = t) ∧
      (nextTx c h ≠ t → pendingCount c.nTx (nextTx c h) t = pendingCount c.nTx h t + 1) ∧
      (h ≠ t → pendingCount c.nTx h (nextTx c t) + 1 = pendingCount c.nTx h t)) ∧
    (∀ h t : Index, h.toNat < c.nRx → t.toNat < c.nRx →
      (pendingCount c.nRx h t = 0 ↔ h = t) ∧ (pendingCount c.nRx h t = c.nRx - 1 ↔ nextRx c h = t) ∧
      (nextRx c h ≠ t → pendingCount c.nRx (nextRx c h) t = pendingCount c.nRx h t + 1) ∧
      (h ≠ t → pendingCount c.nRx h (nextRx c t) + 1 = pendingCount c.nRx h t))

/-- The response word's fields (30_encoding.md rule R107). -/
def Obligations.ResponseWordFields : Prop :=
  ∀ (f : Bool) (b : Byte),
    respFlag (respWord f b) = f ∧ respData (respWord f b) = b ∧ (respWord f b).extractLsb' 9 7 = 0#7 ∧
    respWord true 0x00#8 = 0x0100#16 ∧ respWord false 0x00#8 = 0x0000#16 ∧
    respWord true b = 0x0100#16 ||| b.zeroExtend 16

/-! ### Whole-machine rules -/

/-- Outside `INIT`, each index register has one writer context in every configuration: `TX_HEAD` FG (TX.3), `RX_TAIL` FG (RX.2), `TX_TAIL`
IH (`TX_ISR`) in interrupt mode and FG (SVC.TX) in polled mode, `RX_HEAD` IH (`RX_ISR`) in interrupt mode and FG (SVC.RX) in polled mode
(10_state.md rule R33, 20_memory.md rule R77).  The premise rules out the states, which no run reaches, with an interrupt enabled in
polled mode. -/
def Obligations.EachIndexHasOneWriter : Prop :=
  ∀ (s t : State) (e : Event), Inv s → e ≠ .powerCycle → takeEvent e s = .next t →
    let byInit := e = .fg ∧ s.fgPhase = .idle ∧ ∃ k, currentInstr s = some (.init k)
    (t.txHead ≠ s.txHead → byInit ∨ (e = .fg ∧ s.fgPhase = .tx3)) ∧
    (t.rxTail ≠ s.rxTail → byInit ∨ (e = .fg ∧ s.fgPhase = .rx2)) ∧
    (t.txTail ≠ s.txTail → byInit ∨
      (s.cfg.txMode = .interrupt ∧ e = .txIsr) ∨ (s.cfg.txMode = .polled ∧ e = .fg ∧ s.fgPhase = .svcTx)) ∧
    (t.rxHead ≠ s.rxHead → byInit ∨
      (s.cfg.rxMode = .interrupt ∧ e = .rxIsr) ∨
      (s.cfg.rxMode = .polled ∧ e = .fg ∧ s.fgPhase = .idle ∧ currentInstr s = some .service))

/-- Each buffer has one writer context in every configuration, which writes one cell at a time: `TXBUF` FG (TX.2) at `FG_N`, `RXBUF` at
`next_rx(RX_HEAD)` IH (`RX_ISR`) in interrupt mode and FG (SVC.RX) in polled mode; `INIT` writes neither (20_memory.md rule R72). -/
def Obligations.EachBufferHasOneWriter : Prop :=
  ∀ (s t : State) (e : Event), Inv s → e ≠ .powerCycle → takeEvent e s = .next t →
    (∀ a, t.txBuf.read a ≠ s.txBuf.read a → e = .fg ∧ s.fgPhase = .tx2 ∧ ∃ n, s.fgN = some n ∧ a = n.toNat) ∧
    (∀ a, t.rxBuf.read a ≠ s.rxBuf.read a →
      ((s.cfg.rxMode = .interrupt ∧ e = .rxIsr) ∨
        (s.cfg.rxMode = .polled ∧ e = .fg ∧ s.fgPhase = .idle ∧ currentInstr s = some .service)) ∧
      ∃ h, s.rxHead = some h ∧ a = (nextRx s.cfg h).toNat)

/-- `TX_EN`, `RX_EN`, `RXIE` and `INITED` are set by `INIT` only, `RXIE` in interrupt mode only, and no step but a power cycle clears them;
bits 7:5 of `CTRL` have no writer; `TXIE` is set by TX.4 in interrupt mode only, and cleared by `INIT` or, on an empty queue, by
`tx_drain()` only: in `TX_ISR`, or in SVC.TX in polled mode (10_state.md rules R37 to R41, 41_transmit.md rule R148). -/
def Obligations.EnablesChangeOnlyByTheirWriters : Prop :=
  ∀ (s t : State) (e : Event), e ≠ .powerCycle → takeEvent e s = .next t →
    let byInit := e = .fg ∧ s.fgPhase = .idle ∧ ∃ k, currentInstr s = some (.init k)
    (t.txEn ≠ s.txEn → t.txEn = true ∧ byInit) ∧
    (t.rxEn ≠ s.rxEn → t.rxEn = true ∧ byInit) ∧
    (t.rxie ≠ s.rxie → t.rxie = true ∧ byInit ∧ s.cfg.rxMode = .interrupt) ∧
    (t.inited ≠ s.inited → t.inited = true ∧ byInit) ∧
    t.ctrlReserved = s.ctrlReserved ∧
    (s.txie = false → t.txie = true → e = .fg ∧ s.fgPhase = .tx4 ∧ s.cfg.txMode = .interrupt) ∧
    (s.txie = true → t.txie = false →
      byInit ∨
      (s.txHead = s.txTail ∧ (e = .txIsr ∨ (e = .fg ∧ s.fgPhase = .svcTx ∧ s.cfg.txMode = .polled))))

/-- `LINE_OUT` grows by `TX_DONE` only, `RX_IN` is consumed by `RX_ARRIVE` only, and `RESP_LOG` grows by FG's completed operations only; a
power cycle changes none of them (10_state.md rule R47; log entry 13). -/
def Obligations.StreamsMoveOnlyByTheirAgents : Prop :=
  ∀ (s t : State) (e : Event), takeEvent e s = .next t →
    (e ≠ .txDone → t.lineOut = s.lineOut) ∧
    (e = .txDone → ∃ b, s.txData = some b ∧ t.lineOut = s.lineOut ++ [b]) ∧
    ((∀ r, e ≠ .rxArrive r) → t.rxIn = s.rxIn) ∧
    (∀ r, e = .rxArrive r → ∃ b, s.rxIn = b :: t.rxIn) ∧
    (t.respLog = s.respLog ∨
      (e = .fg ∧ t.fgPc = s.fgPc + 1 ∧ t.fgPhase = .idle ∧ ∃ w, t.respLog = s.respLog ++ [w]))

/-- No step changes the run's parameters or its program (00_scope.md rule R7, 10_state.md rule R34; log entries 1, 4). -/
def Obligations.ParametersAndProgramAreFixed : Prop :=
  ∀ s t : State, step s = .next t → t.cfg = s.cfg ∧ t.prog = s.prog

/-! ### Invariants and runs -/

/-- The invariant holds at power-up, for any parameters, program, input, streams and schedule. -/
def Obligations.PowerUpMeetsInvariant : Prop :=
  (∀ cfg prog rxIn lineOut respLog sched draws, Inv (State.powerUp cfg prog rxIn lineOut respLog sched draws)) ∧
  Inv State.reset

/-- Every step keeps the invariant: the transmit, receive and peripheral invariants of 70_reset_and_hazards.md rules R272 to R274, the
sequencer's (10_state.md rules R34, R35), the buffers' canonical form, `CTRL` bits 7:5 at 0, and no lost wakeup (41_transmit.md
rule R152). -/
def Obligations.EveryStepKeepsInvariant : Prop :=
  ∀ s t : State, Inv s → step s = .next t → Inv t

/-- No step from a state that meets the invariant raises `UNWRITTEN`, `INDEX_RANGE`, `TX_BUSY` or `RX_EMPTY`, reads a `⊥` register, or asks
an agent for a step it does not have (70_reset_and_hazards.md rules R272 to R274). -/
def Obligations.GuardFaultsAreUnreachable : Prop :=
  (∀ s t : State, Inv s → s.fault = .noFault → step s = .next t →
    t.fault = .noFault ∨ t.fault = .illegalOp ∨ t.fault = .notInit ∨ t.fault = .context) ∧
  (∀ s : State, Inv s → (∀ e, step s ≠ .fault (.bottomRead e)) ∧ step s ≠ .fault .notEnabled)

/-- No lost wakeup, over every state that a run from any launch reaches (41_transmit.md rule R152). -/
def Obligations.NoLostWakeup : Prop :=
  ∀ s : State, Reachable s → s.cfg.txMode = .interrupt → s.fault = .noFault → s.fgPhase ≠ .tx4 →
    s.txHead ≠ s.txTail → s.txie = true

/-- Transmit order (41_transmit.md rule R149): the bytes sent, being sent and pending, in this order, stay as they are at every step but a
power cycle, TX.3, which adds the pushed byte at the end, and `INIT`, which discards what is pending. -/
def Obligations.TransmitBytesKeepTheirOrder : Prop :=
  ∀ s t : State, Inv s → step s = .next t → powerCycleNext s = false →
    (s.fgPhase = .tx3 → t.fgPhase = .tx4 → ∃ b, s.fgB = some b ∧ txStream t = txStream s ++ [some b]) ∧
    (InitTaken s t → txStream t = s.lineOut.map some ++ txInFlight s) ∧
    (¬ (s.fgPhase = .tx3 ∧ t.fgPhase = .tx4) → ¬ InitTaken s t → txStream t = txStream s)

/-- Receive order (42_receive.md rule R167): the byte in hand and those pending, in this order, stay as they are at every step but a power
cycle, a stored arrival, which adds the byte at the end, RX.3, which returns the first of them, and `INIT`, which discards them. -/
def Obligations.ReceivedBytesKeepTheirOrder : Prop :=
  ∀ s t : State, Inv s → step s = .next t → powerCycleNext s = false →
    (s.fgPhase = .rx3 → t.fgPhase = .idle →
      ∃ v, rxStream s = some v :: rxStream t ∧ t.respLog = s.respLog ++ [0x0100#16 ||| v.zeroExtend 16]) ∧
    (InitTaken s t → rxStream t = []) ∧
    (t.rxHead ≠ s.rxHead → ¬ InitTaken s t → ∃ v, s.rxData = some v ∧ rxStream t = rxStream s ++ [some v]) ∧
    (t.rxHead = s.rxHead → ¬ InitTaken s t → ¬ (s.fgPhase = .rx3 ∧ t.fgPhase = .idle) → rxStream t = rxStream s)

/-- A run stops at the successful end exactly in the states 70_reset_and_hazards.md rule R281 describes, and at a faulted end exactly with
`FAULT ≠ NONE`; at either end what is observed is the streams, the code and the final state.  The premise on `FG_PC`, which never passes
the program's end (10_state.md rule R35), is a part of `Inv`. -/
def Obligations.RunEndsAreAsDescribed : Prop :=
  ∀ s : State, LaunchOk s → powerCycleNext s = false → s.fgPc ≤ s.prog.length →
    (step s = .fault (.runEnded s) ↔ SuccessfulEnd s) ∧
    (step s = .fault (.faulted s) ↔ FaultedEnd s) ∧
    (∀ t, step s = .fault (.runEnded t) ∨ step s = .fault (.faulted t) → t = s) ∧
    (SuccessfulEnd s ∨ FaultedEnd s → ∀ n,
      observeRun (n + 1) s = some { lineOut := s.lineOut, respLog := s.respLog, fault := s.fault, final := s })

/-- At the end of a run in interrupt mode the transmit queue is drained and the interrupt disarmed (70_reset_and_hazards.md rule R281). -/
def Obligations.InterruptModeEndsDrained : Prop :=
  ∀ s : State, Inv s → s.inited = true → s.cfg.txMode = .interrupt → SuccessfulEnd s →
    s.txHead = s.txTail ∧ s.txie = false ∧ txPending s = []

/-- Every run of a finite program with finite input ends, successfully or faulted, within a number of steps computed from its state, and
is observed in the state it ends in, whatever the schedule and the free choices (70_reset_and_hazards.md rule R281); a power cycle would start the program again and is left
out. -/
def Obligations.EveryRunEnds : Prop :=
  ∀ s : State, Inv s → LaunchOk s → Event.powerCycle ∉ s.sched →
    ∃ n t, n ≤ stepsLeft s + 1 ∧ observeRun n s = some (observation t) ∧
      ((Host.Core.run core n s = .fault (.runEnded t) ∧ SuccessfulEnd t) ∨
        (Host.Core.run core n s = .fault (.faulted t) ∧ FaultedEnd t))

/-- The schedule of the source's drain: a handler run and a completion for each of `n` bytes, then the run that disarms. -/
def Sys2Proof.Machine.drainSchedule : Nat → List Event
  | 0 => [.txIsr]
  | n + 1 => .txIsr :: .txDone :: drainSchedule n

/-- An armed queue drains in order: under the drain schedule every pending byte reaches `LINE_OUT`, oldest first, and the handler's last
firing disarms (41_transmit.md rules R147, R149, R152). -/
def Obligations.ArmedQueueDrainsInOrder : Prop :=
  ∀ (s : State) (rest : List Event), Inv s → LaunchOk s → s.fault = .noFault → s.txIrq = true →
    s.sched = drainSchedule (txPending s).length ++ rest →
    ∃ t, Host.Core.run core (2 * (txPending s).length + 1) s = .next t ∧
      t.lineOut.map some = s.lineOut.map some ++ txPending s ∧ txPending t = [] ∧ t.txie = false ∧ t.txe = true ∧
      t.sched = rest ∧ t.respLog = s.respLog ∧ t.fgPc = s.fgPc ∧ t.rxBuf = s.rxBuf

/-! ### Source programs -/

/-- A program's API calls are aliases of one operation each, and expand to one word each; `initialize(f)` of a frequency outside `CLOCK_SET`
refuses the program with `REF_CLOCK` (30_encoding.md rule R111).  Which index of several with one frequency is taken is the model's free
choice (log entry 25), of which nothing is said. -/
def Obligations.SourceProgramsExpandOrAreRefused : Prop :=
  ∀ (s : State) (lines : List SourceLine),
    ((∃ f, SourceLine.call (.initializeAt f) ∈ lines ∧ ∀ k, k < s.cfg.nclk → Config.clockSet k ≠ f) →
      loadProgram s lines = .refused .refClock) ∧
    ((∀ f, SourceLine.call (.initializeAt f) ∈ lines → ∃ k, k < s.cfg.nclk ∧ Config.clockSet k = f) →
      ∃ ws, loadProgram s lines = .next { s with prog := ws } ∧ ws.length = lines.length ∧
        ∀ (j : Nat) (l : SourceLine), lines[j]? = some l → ∃ w, ws[j]? = some w ∧
          (∀ v, l = .word v → w = v) ∧
          (∀ f, l = .call (.initializeAt f) →
            ∃ k, k < s.cfg.nclk ∧ Config.clockSet k = f ∧ w = encode (.init (BitVec.ofNat 4 k))) ∧
          (∀ b, l = .call (.transmit b) → w = encode (.txPush b)) ∧
          (l = .call .receive → w = 0x3000#16) ∧
          (l = .call .service → w = 0x4000#16))

/-! ### The source's testable properties -/

/-- The six properties of the source's §8 hold in every initialized state of the invariant: the two queues are FIFOs, `TX_PUSH` fails
exactly on a full queue and changes nothing, a full receive queue drops, an empty transmit handler only disarms, and no wakeup is lost
(70_reset_and_hazards.md rule R275). -/
def Obligations.TestablePropertiesHold : Prop :=
  ∀ s : State, Inv s → s.cfg.wf = true → s.fault = .noFault → s.inited = true → TestableProperties s
end

