-- ==== Sys2Proof/Laws/Flags.lean ====
section
/-! SUPPORT. Laws of single-bit writes (10_state.md rule R38), of the status signals and of the response word. -/

namespace Sys2Proof.Machine

open Sys2Proof

/-- The one bit of a mask. -/
theorem getLsbD_oneAt {n : Nat} (i j : Nat) : (1#n <<< i).getLsbD j = (decide (j = i) && decide (j < n)) := by
  rw [BitVec.getLsbD_shiftLeft, BitVec.getLsbD_one]
  by_cases h1 : j = i
  · subst h1
    by_cases h2 : j < n
    · simp [h2, show 0 < n by omega]
    · simp [h2]
  · by_cases h3 : j < i
    · simp [h1, h3]
    · simp [h1, show j - i ≠ 0 by omega]

@[simp] theorem getLsbD_setBit {n : Nat} (w : BitVec n) (i j : Nat) :
    (setBit w i).getLsbD j = (w.getLsbD j || (decide (j = i) && decide (j < n))) := by
  rw [setBit, BitVec.getLsbD_or, getLsbD_oneAt]

@[simp] theorem getLsbD_clearBit {n : Nat} (w : BitVec n) (i j : Nat) :
    (clearBit w i).getLsbD j = (w.getLsbD j && !decide (j = i)) := by
  rw [clearBit, BitVec.getLsbD_and, BitVec.getLsbD_not, getLsbD_oneAt]
  by_cases h2 : j < n
  · simp [h2]
  · simp [BitVec.getLsbD_of_ge w j (by omega)]

@[simp] theorem getElem_setBit {n : Nat} (w : BitVec n) (i j : Nat) (hj : j < n) :
    (setBit w i)[j] = (w[j] || decide (j = i)) := by
  rw [← BitVec.getLsbD_eq_getElem, getLsbD_setBit, BitVec.getLsbD_eq_getElem hj]
  simp [hj]

@[simp] theorem getElem_clearBit {n : Nat} (w : BitVec n) (i j : Nat) (hj : j < n) :
    (clearBit w i)[j] = (w[j] && !decide (j = i)) := by
  rw [← BitVec.getLsbD_eq_getElem, getLsbD_clearBit, BitVec.getLsbD_eq_getElem hj]

@[simp] theorem respFlag_respWord (f : Bool) (b : Byte) : respFlag (respWord f b) = f := by
  cases f <;> revert b <;> decide

@[simp] theorem respData_respWord (f : Bool) (b : Byte) : respData (respWord f b) = b := by
  cases f <;> revert b <;> decide

end Sys2Proof.Machine
end

