-- ==== Sys2Proof/Laws/Index.lean ====
section
/-! SUPPORT. Laws of the index arithmetic (00_scope.md rules R14, R15; 20_memory.md rule R91). -/

namespace Sys2Proof.Machine

open Sys2Proof

/-- What a legal configuration says of the two sizes (00_scope.md rule R7). -/
theorem wf_sizes {c : Config} (h : c.wf = true) :
    2 ≤ c.nTx ∧ c.nTx ≤ 256 ∧ c.nRx ∈ rxSizes ∧ 1 ≤ c.nclk ∧ c.nclk ≤ 16 := by
  simpa [Config.wf, and_assoc] using h

theorem wf_nRx {c : Config} (h : c.wf = true) : 2 ≤ c.nRx ∧ c.nRx ≤ 256 := by
  have := (wf_sizes h).2.2.1
  simp only [rxSizes, List.mem_cons, List.not_mem_nil, or_false] at this
  omega

/-- `next_tx` of an index in range is the successor modulo `N_TX`. -/
theorem nextTx_toNat {c : Config} (h : c.wf = true) {i : Index} (hi : i.toNat < c.nTx) :
    (nextTx c i).toNat = (i.toNat + 1) % c.nTx := by
  have := wf_sizes h
  unfold nextTx
  split
  · rename_i h1; rw [h1]; simp
  · rw [BitVec.toNat_ofNat, Nat.mod_eq_of_lt (show i.toNat + 1 < c.nTx by omega), Nat.mod_eq_of_lt (by omega)]

/-- `next_rx` of any index is the successor modulo `N_RX` (00_scope.md rule R14). -/
theorem nextRx_toNat {c : Config} (h : c.wf = true) (i : Index) :
    (nextRx c i).toNat = (i.toNat + 1) % c.nRx := by
  have hr := (wf_sizes h).2.2.1
  have key : ∀ k : Nat, k ≤ 8 → 1 ≤ k → c.nRx = 2 ^ k → (nextRx c i).toNat = (i.toNat + 1) % c.nRx := by
    intro k hk hk1 hc
    have hpos : 0 < 2 ^ k := Nat.two_pow_pos k
    have hle : 2 ^ k ≤ 256 := by
      calc 2 ^ k ≤ 2 ^ 8 := Nat.pow_le_pow_right (by omega) hk
        _ = 256 := by norm_num
    unfold nextRx
    rw [hc, BitVec.toNat_and, BitVec.toNat_add, BitVec.toNat_ofNat, BitVec.toNat_ofNat,
      Nat.mod_eq_of_lt (show 2 ^ k - 1 < 2 ^ 8 by norm_num; omega), Nat.and_two_pow_sub_one_eq_mod]
    rw [Nat.mod_mod_of_dvd _ (Nat.pow_dvd_pow 2 hk)]
  simp only [rxSizes, List.mem_cons, List.not_mem_nil, or_false] at hr
  rcases hr with h | h | h | h | h | h | h | h
  · exact key 1 (by omega) (by omega) (by simpa using h)
  · exact key 2 (by omega) (by omega) (by simpa using h)
  · exact key 3 (by omega) (by omega) (by simpa using h)
  · exact key 4 (by omega) (by omega) (by simpa using h)
  · exact key 5 (by omega) (by omega) (by simpa using h)
  · exact key 6 (by omega) (by omega) (by simpa using h)
  · exact key 7 (by omega) (by omega) (by simpa using h)
  · exact key 8 (by omega) (by omega) (by simpa using h)

theorem nextTx_lt {c : Config} (h : c.wf = true) {i : Index} (hi : i.toNat < c.nTx) : (nextTx c i).toNat < c.nTx := by
  have := wf_sizes h
  rw [nextTx_toNat h hi]; exact Nat.mod_lt _ (by omega)

theorem nextRx_lt {c : Config} (h : c.wf = true) (i : Index) : (nextRx c i).toNat < c.nRx := by
  have := wf_nRx h
  rw [nextRx_toNat h]; exact Nat.mod_lt _ (by omega)

/-- A successor function on the indices below `n`, modulo `n`: what the two queues have in common. -/
structure Succ (n : Nat) (next : Index → Index) : Prop where
  two : 2 ≤ n
  step : ∀ i : Index, i.toNat < n → (next i).toNat = (i.toNat + 1) % n

theorem succ_tx {c : Config} (h : c.wf = true) : Succ c.nTx (nextTx c) :=
  ⟨(wf_sizes h).1, fun _ hi => nextTx_toNat h hi⟩

theorem succ_rx {c : Config} (h : c.wf = true) : Succ c.nRx (nextRx c) :=
  ⟨(wf_nRx h).1, fun i _ => nextRx_toNat h i⟩

section
variable {n : Nat} {next : Index → Index}

theorem Succ.lt (S : Succ n next) {i : Index} (hi : i.toNat < n) : (next i).toNat < n := by
  have := S.two
  rw [S.step i hi]; exact Nat.mod_lt _ (by omega)

theorem mod_succ_cases {n i : Nat} (hi : i < n) : (i + 1) % n = if i + 1 = n then 0 else i + 1 := by
  split
  · rename_i h; rw [h, Nat.mod_self]
  · exact Nat.mod_eq_of_lt (by omega)

theorem Succ.inj (S : Succ n next) {i j : Index} (hi : i.toNat < n) (hj : j.toNat < n) (h : next i = next j) : i = j := by
  have h1 := S.step i hi
  have h2 := S.step j hj
  rw [mod_succ_cases hi] at h1
  rw [mod_succ_cases hj] at h2
  rw [h] at h1
  apply BitVec.eq_of_toNat_eq
  split at h1 <;> split at h2 <;> omega

theorem Succ.ne_self (S : Succ n next) {i : Index} (hi : i.toNat < n) : next i ≠ i := by
  intro h
  have h1 := S.step i hi
  have := S.two
  rw [mod_succ_cases hi, h] at h1
  split at h1 <;> omega

/-- The count on naturals. -/
theorem pendingCount_eq {h t : Index} (hh : h.toNat < n) (ht : t.toNat < n) :
    pendingCount n h t = if t.toNat ≤ h.toNat then h.toNat - t.toNat else h.toNat + n - t.toNat := by
  unfold pendingCount
  split
  · rw [Int.emod_eq_of_lt (by omega) (by omega)]; omega
  · rw [show (h.toNat : Int) - t.toNat = ((h.toNat : Int) + n - t.toNat) + (n : Int) * (-1) by ring,
      Int.add_mul_emod_self_left, Int.emod_eq_of_lt (by omega) (by omega)]
    omega

theorem pendingCount_lt {h t : Index} (hh : h.toNat < n) (ht : t.toNat < n) : pendingCount n h t < n := by
  rw [pendingCount_eq hh ht]; split <;> omega

theorem pendingCount_zero {h t : Index} (hh : h.toNat < n) (ht : t.toNat < n) : pendingCount n h t = 0 ↔ h = t := by
  rw [pendingCount_eq hh ht]
  constructor
  · intro hz
    apply BitVec.eq_of_toNat_eq
    split at hz <;> omega
  · rintro rfl; simp

/-- Taking one from a queue that is not empty. -/
theorem Succ.count_tail (S : Succ n next) {h t : Index} (hh : h.toNat < n) (ht : t.toNat < n) (hne : h ≠ t) :
    pendingCount n h t = pendingCount n h (next t) + 1 := by
  have hne' : h.toNat ≠ t.toNat := fun e => hne (BitVec.eq_of_toNat_eq e)
  have h1 := S.step t ht
  rw [mod_succ_cases ht] at h1
  rw [pendingCount_eq hh ht, pendingCount_eq hh (S.lt ht), h1]
  split_ifs <;> omega

/-- Adding one to a queue that is not full. -/
theorem Succ.count_head (S : Succ n next) {h t : Index} (hh : h.toNat < n) (ht : t.toNat < n) (hne : next h ≠ t) :
    pendingCount n (next h) t = pendingCount n h t + 1 := by
  have hne' : (next h).toNat ≠ t.toNat := fun e => hne (BitVec.eq_of_toNat_eq e)
  have h1 := S.step h hh
  rw [mod_succ_cases hh] at h1
  rw [h1] at hne'
  rw [pendingCount_eq hh ht, pendingCount_eq (S.lt hh) ht, h1]
  split_ifs at hne' ⊢ <;> omega

/-- Full means `N − 1` pending (00_scope.md rule R15). -/
theorem Succ.full_iff (S : Succ n next) {h t : Index} (hh : h.toNat < n) (ht : t.toNat < n) :
    next h = t ↔ pendingCount n h t = n - 1 := by
  have h1 := S.step h hh
  have h2 := S.two
  rw [mod_succ_cases hh] at h1
  rw [pendingCount_eq hh ht]
  constructor
  · rintro rfl
    rw [h1]
    split_ifs <;> omega
  · intro hc
    apply BitVec.eq_of_toNat_eq
    rw [h1]
    split_ifs at hc ⊢ <;> omega

@[simp] theorem length_pendingFrom (k : Nat) (t : Index) : (pendingFrom next k t).length = k := by
  induction k generalizing t with
  | zero => rfl
  | succ k ih => simp [pendingFrom, ih]

theorem pendingFrom_lt (S : Succ n next) {k : Nat} {t i : Index} (ht : t.toNat < n) (hi : i ∈ pendingFrom next k t) :
    i.toNat < n := by
  induction k generalizing t with
  | zero => simp [pendingFrom] at hi
  | succ k ih =>
    rcases List.mem_cons.mp hi with rfl | hi
    · exact S.lt ht
    · exact ih (S.lt ht) hi

/-- `k` successors. -/
def nthNext (next : Index → Index) : Nat → Index → Index
  | 0, t => t
  | k + 1, t => nthNext next k (next t)

theorem nthNext_toNat (S : Succ n next) {k : Nat} {t : Index} (ht : t.toNat < n) :
    (nthNext next k t).toNat = (t.toNat + k) % n := by
  induction k generalizing t with
  | zero => simp [nthNext, Nat.mod_eq_of_lt ht]
  | succ k ih =>
    rw [nthNext, ih (S.lt ht), S.step t ht, Nat.mod_add_mod]
    congr 1; omega

/-- As many successors as are pending lead from the tail to the head. -/
theorem nthNext_count (S : Succ n next) {h t : Index} (hh : h.toNat < n) (ht : t.toNat < n) :
    nthNext next (pendingCount n h t) t = h := by
  apply BitVec.eq_of_toNat_eq
  rw [nthNext_toNat S ht, pendingCount_eq hh ht]
  split
  · rw [show t.toNat + (h.toNat - t.toNat) = h.toNat by omega, Nat.mod_eq_of_lt hh]
  · rw [show t.toNat + (h.toNat + n - t.toNat) = h.toNat + n by omega, Nat.add_mod_right, Nat.mod_eq_of_lt hh]

theorem pendingFrom_concat (k : Nat) (t : Index) :
    pendingFrom next (k + 1) t = pendingFrom next k t ++ [next (nthNext next k t)] := by
  induction k generalizing t with
  | zero => rfl
  | succ k ih => rw [pendingFrom, ih, pendingFrom, nthNext]; rfl

theorem mem_pendingFrom {k : Nat} {t i : Index} : i ∈ pendingFrom next k t ↔ ∃ j, j < k ∧ i = nthNext next (j + 1) t := by
  induction k generalizing t with
  | zero => simp [pendingFrom]
  | succ k ih =>
    rw [pendingFrom, List.mem_cons, ih]
    constructor
    · rintro (rfl | ⟨j, hj, rfl⟩)
      · exact ⟨0, by omega, rfl⟩
      · exact ⟨j + 1, by omega, rfl⟩
    · rintro ⟨j, hj, rfl⟩
      cases j with
      | zero => exact .inl rfl
      | succ j => exact .inr ⟨j, by omega, rfl⟩

/-- The pending indices of a queue that is not empty: its oldest, and those of the queue with that one taken. -/
theorem pending_tail (S : Succ n next) {h t : Index} (hh : h.toNat < n) (ht : t.toNat < n) (hne : h ≠ t) :
    pendingFrom next (pendingCount n h t) t = next t :: pendingFrom next (pendingCount n h (next t)) (next t) := by
  rw [S.count_tail hh ht hne]; rfl

/-- The pending indices of a queue with one added: its own, and the new one last. -/
theorem pending_head (S : Succ n next) {h t : Index} (hh : h.toNat < n) (ht : t.toNat < n) (hne : next h ≠ t) :
    pendingFrom next (pendingCount n (next h) t) t = pendingFrom next (pendingCount n h t) t ++ [next h] := by
  rw [S.count_head hh ht hne, pendingFrom_concat, nthNext_count S hh ht]

/-- The slot a producer writes is not pending (20_memory.md rule R80). -/
theorem next_head_not_pending (S : Succ n next) {h t : Index} (hh : h.toNat < n) (ht : t.toNat < n) (hne : next h ≠ t) :
    next h ∉ pendingFrom next (pendingCount n h t) t := by
  rw [mem_pendingFrom]
  rintro ⟨j, hj, hij⟩
  have h1 := congrArg BitVec.toNat hij
  have h3 := S.step h hh
  rw [nthNext_toNat S ht, h3] at h1
  have hlt := pendingCount_lt hh ht
  have hc := nthNext_count S hh ht
  have h4 : h.toNat = (t.toNat + pendingCount n h t) % n := by rw [← nthNext_toNat S ht, hc]
  rw [h4, Nat.mod_add_mod] at h1
  have h5 : pendingCount n h t + 1 ≤ n - 1 := by
    have : pendingCount n h t ≠ n - 1 := fun e => hne ((S.full_iff hh ht).mpr e)
    omega
  have h6 : (t.toNat + pendingCount n h t + 1) ≡ (t.toNat + (j + 1)) [MOD n] := h1
  have h7 : (pendingCount n h t + 1) ≡ (j + 1) [MOD n] := by
    apply Nat.ModEq.add_left_cancel' t.toNat
    simpa [Nat.add_assoc] using h6
  have h8 : pendingCount n h t + 1 = j + 1 := Nat.ModEq.eq_of_lt_of_lt h7 (by omega) (by omega)
  omega

/-- The cell at the current tail is not pending (10_state.md rule R32: the sacrificed slot). -/
theorem tail_not_pending (S : Succ n next) {h t : Index} (hh : h.toNat < n) (ht : t.toNat < n) :
    t ∉ pendingFrom next (pendingCount n h t) t := by
  rw [mem_pendingFrom]
  rintro ⟨j, hj, hij⟩
  have h1 := congrArg BitVec.toNat hij
  rw [nthNext_toNat S ht] at h1
  have hlt := pendingCount_lt hh ht
  have h6 : t.toNat + 0 ≡ t.toNat + (j + 1) [MOD n] := by
    unfold Nat.ModEq
    rw [← h1, Nat.add_zero, Nat.mod_eq_of_lt ht]
  have h7 := Nat.ModEq.add_left_cancel' t.toNat h6
  have h8 : 0 = j + 1 := Nat.ModEq.eq_of_lt_of_lt h7 (by omega) (by omega)
  omega

end

end Sys2Proof.Machine
end

