-- ==== Sys2Proof/Laws/Memory.lean ====
section
/-! SUPPORT. Laws of the two buffer spaces: read after write, and the canonical form. -/

namespace Sys2Proof.Machine

open Sys2Proof

theorem Memory.read_write (m : Memory) (hm : m.wf) (i j : Nat) (v : Byte) :
    (m.write i v).read j = if j = i then some v else m.read j := by
  induction m with
  | nil => by_cases h : i = j <;> simp [Memory.write, Memory.read, h, eq_comm]
  | cons c m ih =>
    obtain ⟨a, b⟩ := c
    have hm' := List.pairwise_cons.mp hm
    have ih := ih hm'.2
    by_cases h1 : i < a
    · simp only [Memory.write, h1, if_true, Memory.read, eq_comm (a := i)]
    · by_cases h2 : i = a
      · subst h2
        by_cases h : i = j <;> simp [Memory.write, Memory.read, h, eq_comm]
      · simp only [Memory.write, h1, h2, if_false, Memory.read, ih]
        by_cases h : a = j
        · subst h; simp [Ne.symm h2]
        · simp [h]

@[simp] theorem Memory.read_write_same (m : Memory) (hm : m.wf) (i : Nat) (v : Byte) :
    (m.write i v).read i = some v := by simp [Memory.read_write m hm]

theorem Memory.read_write_other (m : Memory) (hm : m.wf) {i j : Nat} (h : j ≠ i) (v : Byte) :
    (m.write i v).read j = m.read j := by simp [Memory.read_write m hm, h]

theorem Memory.mem_write {m : Memory} {i : Nat} {v : Byte} {c : Host.Cell} (h : c ∈ m.write i v) :
    c = (i, v) ∨ c ∈ m := by
  induction m with
  | nil => simpa [Memory.write] using h
  | cons d m ih =>
    obtain ⟨a, b⟩ := d
    simp only [Memory.write] at h
    split at h
    · simpa using h
    · split at h
      · rcases List.mem_cons.mp h with h | h
        · exact .inl h
        · exact .inr (List.mem_cons_of_mem _ h)
      · rcases List.mem_cons.mp h with h | h
        · exact .inr (by simp [h])
        · rcases ih h with h | h
          · exact .inl h
          · exact .inr (List.mem_cons_of_mem _ h)

/-- A write keeps the canonical form. -/
theorem Memory.wf_write (m : Memory) (hm : m.wf) (i : Nat) (v : Byte) : (m.write i v).wf := by
  induction m with
  | nil => simp [Memory.write, Memory.wf]
  | cons d m ih =>
    obtain ⟨a, b⟩ := d
    have hm' := List.pairwise_cons.mp hm
    simp only [Memory.write]
    split
    · rename_i h
      refine List.pairwise_cons.mpr ⟨fun c hc => ?_, hm⟩
      rcases List.mem_cons.mp hc with rfl | hc
      · exact h
      · exact lt_trans h (hm'.1 c hc)
    · split
      · rename_i h; subst h
        exact List.pairwise_cons.mpr ⟨hm'.1, hm'.2⟩
      · rename_i h1 h2
        refine List.pairwise_cons.mpr ⟨fun c hc => ?_, ih hm'.2⟩
        rcases Memory.mem_write hc with rfl | hc
        · change a < i; omega
        · exact hm'.1 c hc

/-- A byte that reads is listed. -/
theorem Memory.read_mem {m : Memory} {i : Nat} {v : Byte} (h : m.read i = some v) : (i, v) ∈ m := by
  induction m with
  | nil => simp [Memory.read] at h
  | cons d m ih =>
    obtain ⟨a, b⟩ := d
    simp only [Memory.read] at h
    split at h
    · rename_i h1; simp_all
    · exact List.mem_cons_of_mem _ (ih h)

/-- `MemRead` answers a byte exactly for an index in range whose cell holds one (20_memory.md rule R71). -/
theorem memRead_ok {m : Memory} {n : Nat} {i : Index} {v : Byte} :
    memRead m n i = .ok v ↔ i.toNat < n ∧ m.read i.toNat = some v := by
  unfold memRead
  split
  · simp; omega
  · split <;> simp_all

/-- `MemWrite` answers exactly for an index in range (20_memory.md rule R71). -/
theorem memWrite_ok {m m' : Memory} {n : Nat} {i : Index} {v : Byte} :
    memWrite m n i v = .ok m' ↔ i.toNat < n ∧ m' = m.write i.toNat v := by
  unfold memWrite
  split
  · simp; omega
  · simp [eq_comm]; omega

/-- `MemWrite` keeps the canonical form. -/
theorem memWrite_wf {m m' : Memory} {n : Nat} {i : Index} {v : Byte} (hm : m.wf) (h : memWrite m n i v = .ok m') :
    m'.wf := by
  obtain ⟨-, rfl⟩ := memWrite_ok.mp h
  exact Memory.wf_write m hm _ _

/-- `MemWrite` adds no cell outside its space. -/
theorem memWrite_in {m m' : Memory} {n : Nat} {i : Index} {v : Byte} (hm : ∀ c ∈ m, c.1 < n)
    (h : memWrite m n i v = .ok m') : ∀ c ∈ m', c.1 < n := by
  obtain ⟨hi, rfl⟩ := memWrite_ok.mp h
  intro c hc
  rcases Memory.mem_write hc with rfl | hc
  · exact hi
  · exact hm c hc

end Sys2Proof.Machine
end

