-- ==== Sys2Proof/Laws/State.lean ====
section
/-! SUPPORT. One law per field per named update of the state, so that no later proof unfolds one. -/

namespace Sys2Proof.Machine

open Sys2Proof

variable (s : State)

@[simp] theorem fgGoto_cfg (p : Phase) : (fgGoto p s).cfg = s.cfg := rfl
@[simp] theorem fgGoto_prog (p : Phase) : (fgGoto p s).prog = s.prog := rfl
@[simp] theorem fgGoto_ctrl (p : Phase) : (fgGoto p s).ctrl = s.ctrl := rfl
@[simp] theorem fgGoto_txHead (p : Phase) : (fgGoto p s).txHead = s.txHead := rfl
@[simp] theorem fgGoto_txTail (p : Phase) : (fgGoto p s).txTail = s.txTail := rfl
@[simp] theorem fgGoto_rxHead (p : Phase) : (fgGoto p s).rxHead = s.rxHead := rfl
@[simp] theorem fgGoto_rxTail (p : Phase) : (fgGoto p s).rxTail = s.rxTail := rfl
@[simp] theorem fgGoto_lineClk (p : Phase) : (fgGoto p s).lineClk = s.lineClk := rfl
@[simp] theorem fgGoto_pstat (p : Phase) : (fgGoto p s).pstat = s.pstat := rfl
@[simp] theorem fgGoto_txData (p : Phase) : (fgGoto p s).txData = s.txData := rfl
@[simp] theorem fgGoto_rxData (p : Phase) : (fgGoto p s).rxData = s.rxData := rfl
@[simp] theorem fgGoto_fault (p : Phase) : (fgGoto p s).fault = s.fault := rfl
@[simp] theorem fgGoto_txBuf (p : Phase) : (fgGoto p s).txBuf = s.txBuf := rfl
@[simp] theorem fgGoto_rxBuf (p : Phase) : (fgGoto p s).rxBuf = s.rxBuf := rfl
@[simp] theorem fgGoto_fgPc (p : Phase) : (fgGoto p s).fgPc = s.fgPc := rfl
@[simp] theorem fgGoto_fgPhase (p : Phase) : (fgGoto p s).fgPhase = p := rfl
@[simp] theorem fgGoto_fgN (p : Phase) : (fgGoto p s).fgN = s.fgN := rfl
@[simp] theorem fgGoto_fgB (p : Phase) : (fgGoto p s).fgB = s.fgB := rfl
@[simp] theorem fgGoto_lineOut (p : Phase) : (fgGoto p s).lineOut = s.lineOut := rfl
@[simp] theorem fgGoto_rxIn (p : Phase) : (fgGoto p s).rxIn = s.rxIn := rfl
@[simp] theorem fgGoto_respLog (p : Phase) : (fgGoto p s).respLog = s.respLog := rfl
@[simp] theorem fgGoto_sched (p : Phase) : (fgGoto p s).sched = s.sched := rfl
@[simp] theorem fgGoto_draws (p : Phase) : (fgGoto p s).draws = s.draws := rfl

@[simp] theorem fgDone_cfg : (fgDone s).cfg = s.cfg := rfl
@[simp] theorem fgDone_prog : (fgDone s).prog = s.prog := rfl
@[simp] theorem fgDone_ctrl : (fgDone s).ctrl = s.ctrl := rfl
@[simp] theorem fgDone_txHead : (fgDone s).txHead = s.txHead := rfl
@[simp] theorem fgDone_txTail : (fgDone s).txTail = s.txTail := rfl
@[simp] theorem fgDone_rxHead : (fgDone s).rxHead = s.rxHead := rfl
@[simp] theorem fgDone_rxTail : (fgDone s).rxTail = s.rxTail := rfl
@[simp] theorem fgDone_lineClk : (fgDone s).lineClk = s.lineClk := rfl
@[simp] theorem fgDone_pstat : (fgDone s).pstat = s.pstat := rfl
@[simp] theorem fgDone_txData : (fgDone s).txData = s.txData := rfl
@[simp] theorem fgDone_rxData : (fgDone s).rxData = s.rxData := rfl
@[simp] theorem fgDone_fault : (fgDone s).fault = s.fault := rfl
@[simp] theorem fgDone_txBuf : (fgDone s).txBuf = s.txBuf := rfl
@[simp] theorem fgDone_rxBuf : (fgDone s).rxBuf = s.rxBuf := rfl
@[simp] theorem fgDone_fgPc : (fgDone s).fgPc = s.fgPc + 1 := rfl
@[simp] theorem fgDone_fgPhase : (fgDone s).fgPhase = .idle := rfl
@[simp] theorem fgDone_fgN : (fgDone s).fgN = none := rfl
@[simp] theorem fgDone_fgB : (fgDone s).fgB = none := rfl
@[simp] theorem fgDone_lineOut : (fgDone s).lineOut = s.lineOut := rfl
@[simp] theorem fgDone_rxIn : (fgDone s).rxIn = s.rxIn := rfl
@[simp] theorem fgDone_respLog : (fgDone s).respLog = s.respLog := rfl
@[simp] theorem fgDone_sched : (fgDone s).sched = s.sched := rfl
@[simp] theorem fgDone_draws : (fgDone s).draws = s.draws := rfl

@[simp] theorem respond_cfg (w : RespWord) : (respond w s).cfg = s.cfg := rfl
@[simp] theorem respond_prog (w : RespWord) : (respond w s).prog = s.prog := rfl
@[simp] theorem respond_ctrl (w : RespWord) : (respond w s).ctrl = s.ctrl := rfl
@[simp] theorem respond_txHead (w : RespWord) : (respond w s).txHead = s.txHead := rfl
@[simp] theorem respond_txTail (w : RespWord) : (respond w s).txTail = s.txTail := rfl
@[simp] theorem respond_rxHead (w : RespWord) : (respond w s).rxHead = s.rxHead := rfl
@[simp] theorem respond_rxTail (w : RespWord) : (respond w s).rxTail = s.rxTail := rfl
@[simp] theorem respond_lineClk (w : RespWord) : (respond w s).lineClk = s.lineClk := rfl
@[simp] theorem respond_pstat (w : RespWord) : (respond w s).pstat = s.pstat := rfl
@[simp] theorem respond_txData (w : RespWord) : (respond w s).txData = s.txData := rfl
@[simp] theorem respond_rxData (w : RespWord) : (respond w s).rxData = s.rxData := rfl
@[simp] theorem respond_fault (w : RespWord) : (respond w s).fault = s.fault := rfl
@[simp] theorem respond_txBuf (w : RespWord) : (respond w s).txBuf = s.txBuf := rfl
@[simp] theorem respond_rxBuf (w : RespWord) : (respond w s).rxBuf = s.rxBuf := rfl
@[simp] theorem respond_fgPc (w : RespWord) : (respond w s).fgPc = s.fgPc := rfl
@[simp] theorem respond_fgPhase (w : RespWord) : (respond w s).fgPhase = s.fgPhase := rfl
@[simp] theorem respond_fgN (w : RespWord) : (respond w s).fgN = s.fgN := rfl
@[simp] theorem respond_fgB (w : RespWord) : (respond w s).fgB = s.fgB := rfl
@[simp] theorem respond_lineOut (w : RespWord) : (respond w s).lineOut = s.lineOut := rfl
@[simp] theorem respond_rxIn (w : RespWord) : (respond w s).rxIn = s.rxIn := rfl
@[simp] theorem respond_respLog (w : RespWord) : (respond w s).respLog = s.respLog ++ [w] := rfl
@[simp] theorem respond_sched (w : RespWord) : (respond w s).sched = s.sched := rfl
@[simp] theorem respond_draws (w : RespWord) : (respond w s).draws = s.draws := rfl

@[simp] theorem setLineSpeed_cfg (k : BitVec 4) : (setLineSpeed k s).cfg = s.cfg := rfl
@[simp] theorem setLineSpeed_prog (k : BitVec 4) : (setLineSpeed k s).prog = s.prog := rfl
@[simp] theorem setLineSpeed_ctrl (k : BitVec 4) : (setLineSpeed k s).ctrl = s.ctrl := rfl
@[simp] theorem setLineSpeed_txHead (k : BitVec 4) : (setLineSpeed k s).txHead = s.txHead := rfl
@[simp] theorem setLineSpeed_txTail (k : BitVec 4) : (setLineSpeed k s).txTail = s.txTail := rfl
@[simp] theorem setLineSpeed_rxHead (k : BitVec 4) : (setLineSpeed k s).rxHead = s.rxHead := rfl
@[simp] theorem setLineSpeed_rxTail (k : BitVec 4) : (setLineSpeed k s).rxTail = s.rxTail := rfl
@[simp] theorem setLineSpeed_lineClk (k : BitVec 4) : (setLineSpeed k s).lineClk = some k := rfl
@[simp] theorem setLineSpeed_pstat (k : BitVec 4) : (setLineSpeed k s).pstat = s.pstat := rfl
@[simp] theorem setLineSpeed_txData (k : BitVec 4) : (setLineSpeed k s).txData = s.txData := rfl
@[simp] theorem setLineSpeed_rxData (k : BitVec 4) : (setLineSpeed k s).rxData = s.rxData := rfl
@[simp] theorem setLineSpeed_fault (k : BitVec 4) : (setLineSpeed k s).fault = s.fault := rfl
@[simp] theorem setLineSpeed_txBuf (k : BitVec 4) : (setLineSpeed k s).txBuf = s.txBuf := rfl
@[simp] theorem setLineSpeed_rxBuf (k : BitVec 4) : (setLineSpeed k s).rxBuf = s.rxBuf := rfl
@[simp] theorem setLineSpeed_fgPc (k : BitVec 4) : (setLineSpeed k s).fgPc = s.fgPc := rfl
@[simp] theorem setLineSpeed_fgPhase (k : BitVec 4) : (setLineSpeed k s).fgPhase = s.fgPhase := rfl
@[simp] theorem setLineSpeed_fgN (k : BitVec 4) : (setLineSpeed k s).fgN = s.fgN := rfl
@[simp] theorem setLineSpeed_fgB (k : BitVec 4) : (setLineSpeed k s).fgB = s.fgB := rfl
@[simp] theorem setLineSpeed_lineOut (k : BitVec 4) : (setLineSpeed k s).lineOut = s.lineOut := rfl
@[simp] theorem setLineSpeed_rxIn (k : BitVec 4) : (setLineSpeed k s).rxIn = s.rxIn := rfl
@[simp] theorem setLineSpeed_respLog (k : BitVec 4) : (setLineSpeed k s).respLog = s.respLog := rfl
@[simp] theorem setLineSpeed_sched (k : BitVec 4) : (setLineSpeed k s).sched = s.sched := rfl
@[simp] theorem setLineSpeed_draws (k : BitVec 4) : (setLineSpeed k s).draws = s.draws := rfl

@[simp] theorem enableLogic_cfg (a b : Bool) : (enableLogic a b s).cfg = s.cfg := rfl
@[simp] theorem enableLogic_prog (a b : Bool) : (enableLogic a b s).prog = s.prog := rfl
@[simp] theorem enableLogic_txHead (a b : Bool) : (enableLogic a b s).txHead = s.txHead := rfl
@[simp] theorem enableLogic_txTail (a b : Bool) : (enableLogic a b s).txTail = s.txTail := rfl
@[simp] theorem enableLogic_rxHead (a b : Bool) : (enableLogic a b s).rxHead = s.rxHead := rfl
@[simp] theorem enableLogic_rxTail (a b : Bool) : (enableLogic a b s).rxTail = s.rxTail := rfl
@[simp] theorem enableLogic_lineClk (a b : Bool) : (enableLogic a b s).lineClk = s.lineClk := rfl
@[simp] theorem enableLogic_pstat (a b : Bool) : (enableLogic a b s).pstat = s.pstat := rfl
@[simp] theorem enableLogic_txData (a b : Bool) : (enableLogic a b s).txData = s.txData := rfl
@[simp] theorem enableLogic_rxData (a b : Bool) : (enableLogic a b s).rxData = s.rxData := rfl
@[simp] theorem enableLogic_fault (a b : Bool) : (enableLogic a b s).fault = s.fault := rfl
@[simp] theorem enableLogic_txBuf (a b : Bool) : (enableLogic a b s).txBuf = s.txBuf := rfl
@[simp] theorem enableLogic_rxBuf (a b : Bool) : (enableLogic a b s).rxBuf = s.rxBuf := rfl
@[simp] theorem enableLogic_fgPc (a b : Bool) : (enableLogic a b s).fgPc = s.fgPc := rfl
@[simp] theorem enableLogic_fgPhase (a b : Bool) : (enableLogic a b s).fgPhase = s.fgPhase := rfl
@[simp] theorem enableLogic_fgN (a b : Bool) : (enableLogic a b s).fgN = s.fgN := rfl
@[simp] theorem enableLogic_fgB (a b : Bool) : (enableLogic a b s).fgB = s.fgB := rfl
@[simp] theorem enableLogic_lineOut (a b : Bool) : (enableLogic a b s).lineOut = s.lineOut := rfl
@[simp] theorem enableLogic_rxIn (a b : Bool) : (enableLogic a b s).rxIn = s.rxIn := rfl
@[simp] theorem enableLogic_respLog (a b : Bool) : (enableLogic a b s).respLog = s.respLog := rfl
@[simp] theorem enableLogic_sched (a b : Bool) : (enableLogic a b s).sched = s.sched := rfl
@[simp] theorem enableLogic_draws (a b : Bool) : (enableLogic a b s).draws = s.draws := rfl

@[simp] theorem enableReceiveInterrupt_cfg : (enableReceiveInterrupt s).cfg = s.cfg := rfl
@[simp] theorem enableReceiveInterrupt_prog : (enableReceiveInterrupt s).prog = s.prog := rfl
@[simp] theorem enableReceiveInterrupt_ctrl : (enableReceiveInterrupt s).ctrl = setBit s.ctrl 2 := rfl
@[simp] theorem enableReceiveInterrupt_txHead : (enableReceiveInterrupt s).txHead = s.txHead := rfl
@[simp] theorem enableReceiveInterrupt_txTail : (enableReceiveInterrupt s).txTail = s.txTail := rfl
@[simp] theorem enableReceiveInterrupt_rxHead : (enableReceiveInterrupt s).rxHead = s.rxHead := rfl
@[simp] theorem enableReceiveInterrupt_rxTail : (enableReceiveInterrupt s).rxTail = s.rxTail := rfl
@[simp] theorem enableReceiveInterrupt_lineClk : (enableReceiveInterrupt s).lineClk = s.lineClk := rfl
@[simp] theorem enableReceiveInterrupt_pstat : (enableReceiveInterrupt s).pstat = s.pstat := rfl
@[simp] theorem enableReceiveInterrupt_txData : (enableReceiveInterrupt s).txData = s.txData := rfl
@[simp] theorem enableReceiveInterrupt_rxData : (enableReceiveInterrupt s).rxData = s.rxData := rfl
@[simp] theorem enableReceiveInterrupt_fault : (enableReceiveInterrupt s).fault = s.fault := rfl
@[simp] theorem enableReceiveInterrupt_txBuf : (enableReceiveInterrupt s).txBuf = s.txBuf := rfl
@[simp] theorem enableReceiveInterrupt_rxBuf : (enableReceiveInterrupt s).rxBuf = s.rxBuf := rfl
@[simp] theorem enableReceiveInterrupt_fgPc : (enableReceiveInterrupt s).fgPc = s.fgPc := rfl
@[simp] theorem enableReceiveInterrupt_fgPhase : (enableReceiveInterrupt s).fgPhase = s.fgPhase := rfl
@[simp] theorem enableReceiveInterrupt_fgN : (enableReceiveInterrupt s).fgN = s.fgN := rfl
@[simp] theorem enableReceiveInterrupt_fgB : (enableReceiveInterrupt s).fgB = s.fgB := rfl
@[simp] theorem enableReceiveInterrupt_lineOut : (enableReceiveInterrupt s).lineOut = s.lineOut := rfl
@[simp] theorem enableReceiveInterrupt_rxIn : (enableReceiveInterrupt s).rxIn = s.rxIn := rfl
@[simp] theorem enableReceiveInterrupt_respLog : (enableReceiveInterrupt s).respLog = s.respLog := rfl
@[simp] theorem enableReceiveInterrupt_sched : (enableReceiveInterrupt s).sched = s.sched := rfl
@[simp] theorem enableReceiveInterrupt_draws : (enableReceiveInterrupt s).draws = s.draws := rfl

@[simp] theorem enableTransmitInterrupt_cfg : (enableTransmitInterrupt s).cfg = s.cfg := rfl
@[simp] theorem enableTransmitInterrupt_prog : (enableTransmitInterrupt s).prog = s.prog := rfl
@[simp] theorem enableTransmitInterrupt_ctrl : (enableTransmitInterrupt s).ctrl = setBit s.ctrl 3 := rfl
@[simp] theorem enableTransmitInterrupt_txHead : (enableTransmitInterrupt s).txHead = s.txHead := rfl
@[simp] theorem enableTransmitInterrupt_txTail : (enableTransmitInterrupt s).txTail = s.txTail := rfl
@[simp] theorem enableTransmitInterrupt_rxHead : (enableTransmitInterrupt s).rxHead = s.rxHead := rfl
@[simp] theorem enableTransmitInterrupt_rxTail : (enableTransmitInterrupt s).rxTail = s.rxTail := rfl
@[simp] theorem enableTransmitInterrupt_lineClk : (enableTransmitInterrupt s).lineClk = s.lineClk := rfl
@[simp] theorem enableTransmitInterrupt_pstat : (enableTransmitInterrupt s).pstat = s.pstat := rfl
@[simp] theorem enableTransmitInterrupt_txData : (enableTransmitInterrupt s).txData = s.txData := rfl
@[simp] theorem enableTransmitInterrupt_rxData : (enableTransmitInterrupt s).rxData = s.rxData := rfl
@[simp] theorem enableTransmitInterrupt_fault : (enableTransmitInterrupt s).fault = s.fault := rfl
@[simp] theorem enableTransmitInterrupt_txBuf : (enableTransmitInterrupt s).txBuf = s.txBuf := rfl
@[simp] theorem enableTransmitInterrupt_rxBuf : (enableTransmitInterrupt s).rxBuf = s.rxBuf := rfl
@[simp] theorem enableTransmitInterrupt_fgPc : (enableTransmitInterrupt s).fgPc = s.fgPc := rfl
@[simp] theorem enableTransmitInterrupt_fgPhase : (enableTransmitInterrupt s).fgPhase = s.fgPhase := rfl
@[simp] theorem enableTransmitInterrupt_fgN : (enableTransmitInterrupt s).fgN = s.fgN := rfl
@[simp] theorem enableTransmitInterrupt_fgB : (enableTransmitInterrupt s).fgB = s.fgB := rfl
@[simp] theorem enableTransmitInterrupt_lineOut : (enableTransmitInterrupt s).lineOut = s.lineOut := rfl
@[simp] theorem enableTransmitInterrupt_rxIn : (enableTransmitInterrupt s).rxIn = s.rxIn := rfl
@[simp] theorem enableTransmitInterrupt_respLog : (enableTransmitInterrupt s).respLog = s.respLog := rfl
@[simp] theorem enableTransmitInterrupt_sched : (enableTransmitInterrupt s).sched = s.sched := rfl
@[simp] theorem enableTransmitInterrupt_draws : (enableTransmitInterrupt s).draws = s.draws := rfl

@[simp] theorem disableTransmitInterrupt_cfg : (disableTransmitInterrupt s).cfg = s.cfg := rfl
@[simp] theorem disableTransmitInterrupt_prog : (disableTransmitInterrupt s).prog = s.prog := rfl
@[simp] theorem disableTransmitInterrupt_ctrl : (disableTransmitInterrupt s).ctrl = clearBit s.ctrl 3 := rfl
@[simp] theorem disableTransmitInterrupt_txHead : (disableTransmitInterrupt s).txHead = s.txHead := rfl
@[simp] theorem disableTransmitInterrupt_txTail : (disableTransmitInterrupt s).txTail = s.txTail := rfl
@[simp] theorem disableTransmitInterrupt_rxHead : (disableTransmitInterrupt s).rxHead = s.rxHead := rfl
@[simp] theorem disableTransmitInterrupt_rxTail : (disableTransmitInterrupt s).rxTail = s.rxTail := rfl
@[simp] theorem disableTransmitInterrupt_lineClk : (disableTransmitInterrupt s).lineClk = s.lineClk := rfl
@[simp] theorem disableTransmitInterrupt_pstat : (disableTransmitInterrupt s).pstat = s.pstat := rfl
@[simp] theorem disableTransmitInterrupt_txData : (disableTransmitInterrupt s).txData = s.txData := rfl
@[simp] theorem disableTransmitInterrupt_rxData : (disableTransmitInterrupt s).rxData = s.rxData := rfl
@[simp] theorem disableTransmitInterrupt_fault : (disableTransmitInterrupt s).fault = s.fault := rfl
@[simp] theorem disableTransmitInterrupt_txBuf : (disableTransmitInterrupt s).txBuf = s.txBuf := rfl
@[simp] theorem disableTransmitInterrupt_rxBuf : (disableTransmitInterrupt s).rxBuf = s.rxBuf := rfl
@[simp] theorem disableTransmitInterrupt_fgPc : (disableTransmitInterrupt s).fgPc = s.fgPc := rfl
@[simp] theorem disableTransmitInterrupt_fgPhase : (disableTransmitInterrupt s).fgPhase = s.fgPhase := rfl
@[simp] theorem disableTransmitInterrupt_fgN : (disableTransmitInterrupt s).fgN = s.fgN := rfl
@[simp] theorem disableTransmitInterrupt_fgB : (disableTransmitInterrupt s).fgB = s.fgB := rfl
@[simp] theorem disableTransmitInterrupt_lineOut : (disableTransmitInterrupt s).lineOut = s.lineOut := rfl
@[simp] theorem disableTransmitInterrupt_rxIn : (disableTransmitInterrupt s).rxIn = s.rxIn := rfl
@[simp] theorem disableTransmitInterrupt_respLog : (disableTransmitInterrupt s).respLog = s.respLog := rfl
@[simp] theorem disableTransmitInterrupt_sched : (disableTransmitInterrupt s).sched = s.sched := rfl
@[simp] theorem disableTransmitInterrupt_draws : (disableTransmitInterrupt s).draws = s.draws := rfl

@[simp] theorem resetIndices_cfg : (resetIndices s).cfg = s.cfg := rfl
@[simp] theorem resetIndices_prog : (resetIndices s).prog = s.prog := rfl
@[simp] theorem resetIndices_ctrl : (resetIndices s).ctrl = s.ctrl := rfl
@[simp] theorem resetIndices_txHead : (resetIndices s).txHead = some 0#8 := rfl
@[simp] theorem resetIndices_txTail : (resetIndices s).txTail = some 0#8 := rfl
@[simp] theorem resetIndices_rxHead : (resetIndices s).rxHead = some 0#8 := rfl
@[simp] theorem resetIndices_rxTail : (resetIndices s).rxTail = some 0#8 := rfl
@[simp] theorem resetIndices_lineClk : (resetIndices s).lineClk = s.lineClk := rfl
@[simp] theorem resetIndices_pstat : (resetIndices s).pstat = s.pstat := rfl
@[simp] theorem resetIndices_txData : (resetIndices s).txData = s.txData := rfl
@[simp] theorem resetIndices_rxData : (resetIndices s).rxData = s.rxData := rfl
@[simp] theorem resetIndices_fault : (resetIndices s).fault = s.fault := rfl
@[simp] theorem resetIndices_txBuf : (resetIndices s).txBuf = s.txBuf := rfl
@[simp] theorem resetIndices_rxBuf : (resetIndices s).rxBuf = s.rxBuf := rfl
@[simp] theorem resetIndices_fgPc : (resetIndices s).fgPc = s.fgPc := rfl
@[simp] theorem resetIndices_fgPhase : (resetIndices s).fgPhase = s.fgPhase := rfl
@[simp] theorem resetIndices_fgN : (resetIndices s).fgN = s.fgN := rfl
@[simp] theorem resetIndices_fgB : (resetIndices s).fgB = s.fgB := rfl
@[simp] theorem resetIndices_lineOut : (resetIndices s).lineOut = s.lineOut := rfl
@[simp] theorem resetIndices_rxIn : (resetIndices s).rxIn = s.rxIn := rfl
@[simp] theorem resetIndices_respLog : (resetIndices s).respLog = s.respLog := rfl
@[simp] theorem resetIndices_sched : (resetIndices s).sched = s.sched := rfl
@[simp] theorem resetIndices_draws : (resetIndices s).draws = s.draws := rfl

@[simp] theorem markInited_cfg : (markInited s).cfg = s.cfg := rfl
@[simp] theorem markInited_prog : (markInited s).prog = s.prog := rfl
@[simp] theorem markInited_ctrl : (markInited s).ctrl = setBit s.ctrl 4 := rfl
@[simp] theorem markInited_txHead : (markInited s).txHead = s.txHead := rfl
@[simp] theorem markInited_txTail : (markInited s).txTail = s.txTail := rfl
@[simp] theorem markInited_rxHead : (markInited s).rxHead = s.rxHead := rfl
@[simp] theorem markInited_rxTail : (markInited s).rxTail = s.rxTail := rfl
@[simp] theorem markInited_lineClk : (markInited s).lineClk = s.lineClk := rfl
@[simp] theorem markInited_pstat : (markInited s).pstat = s.pstat := rfl
@[simp] theorem markInited_txData : (markInited s).txData = s.txData := rfl
@[simp] theorem markInited_rxData : (markInited s).rxData = s.rxData := rfl
@[simp] theorem markInited_fault : (markInited s).fault = s.fault := rfl
@[simp] theorem markInited_txBuf : (markInited s).txBuf = s.txBuf := rfl
@[simp] theorem markInited_rxBuf : (markInited s).rxBuf = s.rxBuf := rfl
@[simp] theorem markInited_fgPc : (markInited s).fgPc = s.fgPc := rfl
@[simp] theorem markInited_fgPhase : (markInited s).fgPhase = s.fgPhase := rfl
@[simp] theorem markInited_fgN : (markInited s).fgN = s.fgN := rfl
@[simp] theorem markInited_fgB : (markInited s).fgB = s.fgB := rfl
@[simp] theorem markInited_lineOut : (markInited s).lineOut = s.lineOut := rfl
@[simp] theorem markInited_rxIn : (markInited s).rxIn = s.rxIn := rfl
@[simp] theorem markInited_respLog : (markInited s).respLog = s.respLog := rfl
@[simp] theorem markInited_sched : (markInited s).sched = s.sched := rfl
@[simp] theorem markInited_draws : (markInited s).draws = s.draws := rfl

@[simp] theorem powerCycle_cfg : (powerCycle s).cfg = s.cfg := rfl
@[simp] theorem powerCycle_prog : (powerCycle s).prog = s.prog := rfl
@[simp] theorem powerCycle_ctrl : (powerCycle s).ctrl = 0x00#8 := rfl
@[simp] theorem powerCycle_txHead : (powerCycle s).txHead = none := rfl
@[simp] theorem powerCycle_txTail : (powerCycle s).txTail = none := rfl
@[simp] theorem powerCycle_rxHead : (powerCycle s).rxHead = none := rfl
@[simp] theorem powerCycle_rxTail : (powerCycle s).rxTail = none := rfl
@[simp] theorem powerCycle_lineClk : (powerCycle s).lineClk = none := rfl
@[simp] theorem powerCycle_pstat : (powerCycle s).pstat = 0b01#2 := rfl
@[simp] theorem powerCycle_txData : (powerCycle s).txData = none := rfl
@[simp] theorem powerCycle_rxData : (powerCycle s).rxData = none := rfl
@[simp] theorem powerCycle_fault : (powerCycle s).fault = .noFault := rfl
@[simp] theorem powerCycle_txBuf : (powerCycle s).txBuf = [] := rfl
@[simp] theorem powerCycle_rxBuf : (powerCycle s).rxBuf = [] := rfl
@[simp] theorem powerCycle_fgPc : (powerCycle s).fgPc = 0 := rfl
@[simp] theorem powerCycle_fgPhase : (powerCycle s).fgPhase = .idle := rfl
@[simp] theorem powerCycle_fgN : (powerCycle s).fgN = none := rfl
@[simp] theorem powerCycle_fgB : (powerCycle s).fgB = none := rfl
@[simp] theorem powerCycle_lineOut : (powerCycle s).lineOut = s.lineOut := rfl
@[simp] theorem powerCycle_rxIn : (powerCycle s).rxIn = s.rxIn := rfl
@[simp] theorem powerCycle_respLog : (powerCycle s).respLog = s.respLog := rfl
@[simp] theorem powerCycle_sched : (powerCycle s).sched = s.sched := rfl
@[simp] theorem powerCycle_draws : (powerCycle s).draws = s.draws := rfl

@[simp] theorem enableLogic_both_ctrl : (enableLogic true true s).ctrl = setBit (setBit s.ctrl 0) 1 := rfl

end Sys2Proof.Machine
end

