-- ==== Sys2Proof/Laws/Ops.lean ====
section
/-! SUPPORT. What each shared operation and each micro-step can do, said once. -/

namespace Sys2Proof.Machine

open Sys2Proof

section
variable {α β : Type}

@[simp] theorem Eff.bind_eq_ok {x : Eff α} {f : α → Eff β} {b : β} :
    x.bind f = .ok b ↔ ∃ a, x = .ok a ∧ f a = .ok b := by
  cases x <;> simp [Eff.bind]

@[simp] theorem Eff.bind_eq_raises {x : Eff α} {f : α → Eff β} {c : FaultCode} :
    x.bind f = .raises c ↔ x = .raises c ∨ ∃ a, x = .ok a ∧ f a = .raises c := by
  cases x <;> simp [Eff.bind]

@[simp] theorem Eff.bind_eq_bottom {x : Eff α} {f : α → Eff β} {e : Element} :
    x.bind f = .bottom e ↔ x = .bottom e ∨ ∃ a, x = .ok a ∧ f a = .bottom e := by
  cases x <;> simp [Eff.bind]

theorem Eff.ok_eq_comm {a b : α} : (Eff.ok a = Eff.ok b) ↔ b = a := by simp [eq_comm]

@[simp] theorem Eff.ok_bind (a : α) (f : α → Eff β) : (Eff.ok a).bind f = f a := rfl

@[simp] theorem readReg_some (e : Element) (v : α) : readReg e (some v) = .ok v := rfl

@[simp] theorem readReg_none (e : Element) : readReg e (none : Option α) = .bottom e := rfl

@[simp] theorem readReg_eq_ok {e : Element} {r : Option α} {v : α} : readReg e r = .ok v ↔ r = some v := by
  cases r <;> simp [readReg]

@[simp] theorem readReg_ne_raises {e : Element} {r : Option α} {c : FaultCode} : readReg e r ≠ .raises c := by
  cases r <;> simp [readReg]

@[simp] theorem readReg_eq_bottom {e e' : Element} {r : Option α} : readReg e r = .bottom e' ↔ r = none ∧ e = e' := by
  cases r <;> simp [readReg]

end

variable {s t : State}

/-- A committed step: the whole body's writes, or a fault and nothing else (60_exceptions.md rule R222). -/
theorem commit_next {body : Eff State} :
    commit s body = .next t ↔ body = .ok t ∨ ∃ c, body = .raises c ∧ t = { s with fault := c } := by
  cases body <;> simp [commit, raiseFault, eq_comm]

theorem commit_fault {body : Eff State} {r : Fault} :
    commit s body = .fault r ↔ ∃ e, body = .bottom e ∧ r = .bottomRead e := by
  cases body <;> simp [commit, raiseFault, eq_comm]

theorem commit_refused {body : Eff State} {r : Refusal} : commit s body ≠ .refused r := by
  cases body <;> simp [commit, raiseFault]

@[simp] theorem commit_ok : commit s (.ok t) = .next t := rfl

@[simp] theorem commit_raises {c : FaultCode} : commit s (.raises c) = .next { s with fault := c } := rfl

theorem whileLive_next {act : Host.Outcome State Fault Refusal} :
    whileLive s act = .next t ↔ s.fault = .noFault ∧ act = .next t := by
  unfold whileLive; split <;> simp_all

theorem whileLive_live {act : Host.Outcome State Fault Refusal} (h : s.fault = .noFault) : whileLive s act = act := by
  simp [whileLive, h]

theorem whileLive_faulted {act : Host.Outcome State Fault Refusal} (h : s.fault ≠ .noFault) :
    whileLive s act = .fault (.faulted s) := by
  simp [whileLive, h]

/-- `P.write_transmit_register` (44_peripheral_boundary.md rule R195). -/
theorem writeTransmitRegister_ok {b : Byte} :
    writeTransmitRegister b s = .ok t ↔
      s.txe = true ∧ t = { s with txData := some b, pstat := clearBit s.pstat 0 } := by
  unfold writeTransmitRegister; split <;> simp_all only [Eff.ok_eq_comm] <;> simp_all

/-- `P.read_receive_register` (44_peripheral_boundary.md rule R196). -/
theorem readReceiveRegister_ok {b : Byte} :
    readReceiveRegister s = .ok (b, t) ↔
      s.rxne = true ∧ s.rxData = some b ∧ t = { s with pstat := clearBit s.pstat 1 } := by
  unfold readReceiveRegister
  split
  · rename_i h
    simp only [h, Eff.bind_eq_ok, readReg_eq_ok, true_and]
    constructor
    · rintro ⟨v, h1, h2⟩
      simp only [Eff.ok.injEq, Prod.mk.injEq] at h2
      obtain ⟨rfl, rfl⟩ := h2
      exact ⟨h1, rfl⟩
    · rintro ⟨h1, rfl⟩
      exact ⟨b, h1, rfl⟩
  · simp_all

theorem txPush1_ok {b : Byte} :
    txPush1 b s = .ok t ↔ s.inited = true ∧ ∃ h tl, s.txHead = some h ∧ s.txTail = some tl ∧
      ((nextTx s.cfg h = tl ∧ t = fgDone (respond (respWord false 0x00#8) s)) ∨
       (nextTx s.cfg h ≠ tl ∧ t = fgGoto .tx2 { s with fgN := some (nextTx s.cfg h), fgB := some b })) := by
  unfold txPush1
  by_cases hi : s.inited = true
  · simp only [hi, if_true, Eff.bind_eq_ok, readReg_eq_ok, true_and]
    refine exists_congr fun h => ?_
    constructor
    · rintro ⟨h1, tl, h2, h3⟩
      refine ⟨tl, h1, h2, ?_⟩
      split at h3 <;> simp_all
    · rintro ⟨tl, h1, h2, h3⟩
      refine ⟨h1, tl, h2, ?_⟩
      rcases h3 with ⟨h4, rfl⟩ | ⟨h4, rfl⟩ <;> simp [h4]
  · simp [hi]

theorem txPush2_ok :
    txPush2 s = .ok t ↔ ∃ n b, s.fgN = some n ∧ s.fgB = some b ∧ n.toNat < s.cfg.nTx ∧
      t = fgGoto .tx3 { s with txBuf := s.txBuf.write n.toNat b } := by
  simp only [txPush2, Eff.bind_eq_ok, readReg_eq_ok, memWrite_ok]
  constructor
  · rintro ⟨n, h1, b, h2, m, ⟨h3, rfl⟩, h4⟩
    exact ⟨n, b, h1, h2, h3, by simpa using h4.symm⟩
  · rintro ⟨n, b, h1, h2, h3, rfl⟩
    exact ⟨n, h1, b, h2, _, ⟨h3, rfl⟩, rfl⟩

theorem txPush3_ok :
    txPush3 s = .ok t ↔ ∃ n, s.fgN = some n ∧ t = fgGoto .tx4 { s with txHead := some n } := by
  simp only [txPush3, Eff.bind_eq_ok, readReg_eq_ok, Eff.ok_eq_comm]

theorem txPush4_ok : txPush4 s = .ok t ↔ t = fgDone (respond (respWord true 0x00#8) (armTransmit s)) := by
  simp only [txPush4, Eff.ok_eq_comm]

/-- Arming sets `TXIE` in interrupt mode and changes nothing else (41_transmit.md rule R144). -/
theorem armTransmit_eq :
    armTransmit s = { s with ctrl := if s.cfg.txMode = .interrupt then setBit s.ctrl 3 else s.ctrl } := by
  unfold armTransmit; split <;> simp_all [enableTransmitInterrupt]

/-- `INIT k` (40_line_controller.md rule R130): `CTRL`, the indices, `LINE_CLK` and the sequencer, nothing else. -/
theorem initStep_eq (k : BitVec 4) :
    initStep k s =
      { s with
        ctrl := setBit (if s.cfg.rxMode = .interrupt then setBit (setBit (setBit (clearBit s.ctrl 3) 0) 1) 2
          else setBit (setBit (clearBit s.ctrl 3) 0) 1) 4
        lineClk := some k, txHead := some 0#8, txTail := some 0#8, rxHead := some 0#8, rxTail := some 0#8
        fgPhase := .idle, fgPc := s.fgPc + 1, fgN := none, fgB := none } := by
  simp only [initStep, enableReceiveIfInterrupt]
  split <;> rename_i h <;> change s.cfg.rxMode = _ at h <;> simp only [h] <;> rfl

/-- `tx_drain()`: disarm on an empty queue, else one byte taken and sent (41_transmit.md rule R145). -/
theorem txDrain_ok :
    txDrain s = .ok t ↔ ∃ h tl, s.txHead = some h ∧ s.txTail = some tl ∧
      ((h = tl ∧ t = disableTransmitInterrupt s) ∨
       (h ≠ tl ∧ (nextTx s.cfg tl).toNat < s.cfg.nTx ∧ s.txe = true ∧ ∃ v, s.txBuf.read (nextTx s.cfg tl).toNat = some v ∧
         t = { s with txTail := some (nextTx s.cfg tl), txData := some v, pstat := clearBit s.pstat 0 })) := by
  unfold txDrain
  simp only [Eff.bind_eq_ok, readReg_eq_ok]
  refine exists_congr fun h => ?_
  constructor
  · rintro ⟨h1, tl, h2, h3⟩
    refine ⟨tl, h1, h2, ?_⟩
    split at h3
    · simp_all
    · rename_i hne
      simp only [Eff.bind_eq_ok, memRead_ok, writeTransmitRegister_ok] at h3
      obtain ⟨v, ⟨h4, h5⟩, h6, rfl⟩ := h3
      exact .inr ⟨hne, h4, h6, v, h5, rfl⟩
  · rintro ⟨tl, h1, h2, h3⟩
    refine ⟨h1, tl, h2, ?_⟩
    rcases h3 with ⟨h4, rfl⟩ | ⟨h4, h5, h6, v, h7, rfl⟩
    · simp [h4]
    · simp only [h4, if_false, Eff.bind_eq_ok, memRead_ok, writeTransmitRegister_ok]
      exact ⟨v, ⟨h5, h7⟩, h6, rfl⟩

/-- `rx_fill()`: the mandatory read, then the byte stored or dropped (42_receive.md rule R161). -/
theorem rxFill_ok :
    rxFill s = .ok t ↔ s.rxne = true ∧ ∃ b h tl, s.rxData = some b ∧ s.rxHead = some h ∧ s.rxTail = some tl ∧
      ((nextRx s.cfg h = tl ∧ t = { s with pstat := clearBit s.pstat 1 }) ∨
       (nextRx s.cfg h ≠ tl ∧ (nextRx s.cfg h).toNat < s.cfg.nRx ∧
         t = { s with pstat := clearBit s.pstat 1, rxBuf := s.rxBuf.write (nextRx s.cfg h).toNat b,
                      rxHead := some (nextRx s.cfg h) })) := by
  unfold rxFill
  simp only [Eff.bind_eq_ok, Prod.exists, readReceiveRegister_ok]
  constructor
  · rintro ⟨b, s', ⟨h1, h2, rfl⟩, h3⟩
    simp only [readReg_eq_ok] at h3
    obtain ⟨h, h4, tl, h5, h6⟩ := h3
    refine ⟨h1, b, h, tl, h2, h4, h5, ?_⟩
    split at h6
    · simp_all
    · rename_i hne
      simp only [Eff.bind_eq_ok, memWrite_ok] at h6
      obtain ⟨m, ⟨h7, rfl⟩, h8⟩ := h6
      exact .inr ⟨hne, h7, by simpa using h8.symm⟩
  · rintro ⟨h1, b, h, tl, h2, h4, h5, h6⟩
    refine ⟨b, _, ⟨h1, h2, rfl⟩, ?_⟩
    simp only [readReg_eq_ok]
    refine ⟨h, h4, tl, h5, ?_⟩
    rcases h6 with ⟨h7, rfl⟩ | ⟨h7, h8, rfl⟩
    · simp [h7]
    · simp only [h7, if_false, Eff.bind_eq_ok, memWrite_ok]
      exact ⟨_, ⟨h8, rfl⟩, rfl⟩

theorem rxPop1_ok :
    rxPop1 s = .ok t ↔ s.inited = true ∧ ∃ h tl, s.rxHead = some h ∧ s.rxTail = some tl ∧
      ((h = tl ∧ t = fgDone (respond (respWord false 0x00#8) s)) ∨
       (h ≠ tl ∧ t = fgGoto .rx2 { s with fgN := some (nextRx s.cfg tl) })) := by
  unfold rxPop1
  by_cases hi : s.inited = true
  · simp only [hi, if_true, Eff.bind_eq_ok, readReg_eq_ok, true_and]
    refine exists_congr fun h => ?_
    constructor
    · rintro ⟨h1, tl, h2, h3⟩
      refine ⟨tl, h1, h2, ?_⟩
      split at h3 <;> simp_all
    · rintro ⟨tl, h1, h2, h3⟩
      refine ⟨h1, tl, h2, ?_⟩
      rcases h3 with ⟨h4, rfl⟩ | ⟨h4, rfl⟩ <;> simp [h4]
  · simp [hi]

theorem rxPop2_ok :
    rxPop2 s = .ok t ↔ ∃ n, s.fgN = some n ∧ t = fgGoto .rx3 { s with rxTail := some n } := by
  simp only [rxPop2, Eff.bind_eq_ok, readReg_eq_ok, Eff.ok_eq_comm]

theorem rxPop3_ok :
    rxPop3 s = .ok t ↔ ∃ n v, s.fgN = some n ∧ n.toNat < s.cfg.nRx ∧ s.rxBuf.read n.toNat = some v ∧
      t = fgDone (respond (respWord true v) s) := by
  simp only [rxPop3, Eff.bind_eq_ok, readReg_eq_ok, memRead_ok]
  constructor
  · rintro ⟨n, h1, v, ⟨h2, h3⟩, h4⟩
    exact ⟨n, v, h1, h2, h3, by simpa using h4.symm⟩
  · rintro ⟨n, v, h1, h2, h3, rfl⟩
    exact ⟨n, h1, v, ⟨h2, h3⟩, rfl⟩

theorem serviceRx_ok :
    serviceRx s = .ok t ↔ s.inited = true ∧ ∃ u, t = fgGoto .svcTx u ∧
      ((s.cfg.rxMode = .polled ∧ s.rxne = true ∧ rxFill s = .ok u) ∨
       (¬ (s.cfg.rxMode = .polled ∧ s.rxne = true) ∧ u = s)) := by
  unfold serviceRx receiveDataReady
  by_cases hi : s.inited = true
  · simp only [hi, if_true, Eff.bind_eq_ok, true_and]
    by_cases hp : s.cfg.rxMode = .polled ∧ s.rxne = true
    · simp only [hp, and_self, if_true, Eff.ok_eq_comm, not_true_eq_false, false_and, or_false, true_and]
      exact exists_congr fun u => and_comm
    · simp only [hp, if_false, not_false_eq_true, true_and]
      constructor
      · rintro ⟨u, h1, h2⟩
        exact ⟨s, by simp_all, .inr rfl⟩
      · rintro ⟨u, rfl, h | rfl⟩
        · exact absurd ⟨h.1, h.2.1⟩ hp
        · exact ⟨_, rfl, rfl⟩
  · simp [hi]

theorem serviceTx_ok :
    serviceTx s = .ok t ↔ ∃ u, t = fgDone u ∧
      ((s.cfg.txMode = .polled ∧ s.txe = true ∧ txDrain s = .ok u) ∨
       (¬ (s.cfg.txMode = .polled ∧ s.txe = true) ∧ u = s)) := by
  unfold serviceTx transmitRegisterEmpty
  by_cases hp : s.cfg.txMode = .polled ∧ s.txe = true
  · simp only [hp, and_self, if_true, Eff.bind_eq_ok, Eff.ok_eq_comm, not_true_eq_false, false_and, or_false, true_and]
    exact exists_congr fun u => and_comm
  · simp only [hp, if_false, Eff.bind_eq_ok, not_false_eq_true, true_and]
    constructor
    · rintro ⟨u, h1, h2⟩
      exact ⟨s, by simp_all, .inr rfl⟩
    · rintro ⟨u, rfl, h | rfl⟩
      · exact absurd ⟨h.1, h.2.1⟩ hp
      · exact ⟨_, rfl, rfl⟩

section
variable {α β : Type}

/-- A body that raises raises a named fault, never `NONE`. -/
def Eff.Named (x : Eff α) : Prop := ∀ c, x = .raises c → c ≠ .noFault

theorem Eff.Named.ok (a : α) : (Eff.ok a).Named := by intro c h; cases h

theorem Eff.Named.raises {c : FaultCode} (h : c ≠ .noFault) : (Eff.raises c : Eff α).Named := by
  intro d hd; cases hd; exact h

theorem Eff.Named.readReg (e : Element) (r : Option α) : (readReg e r).Named := by
  intro c h; exact absurd h readReg_ne_raises

theorem Eff.Named.bind {x : Eff α} {f : α → Eff β} (hx : x.Named) (hf : ∀ a, (f a).Named) : (x.bind f).Named := by
  intro c h
  rcases Eff.bind_eq_raises.mp h with h | ⟨a, -, h⟩
  · exact hx c h
  · exact hf a c h

theorem Eff.Named.ite {p : Prop} [Decidable p] {x y : Eff α} (hx : x.Named) (hy : y.Named) : (if p then x else y).Named := by
  split <;> assumption

theorem memRead_named (m : Memory) (n : Nat) (i : Index) : (memRead m n i).Named := by
  unfold memRead
  refine .ite (.raises (by decide)) ?_
  split
  · exact .ok _
  · exact .raises (by decide)

theorem memWrite_named (m : Memory) (n : Nat) (i : Index) (v : Byte) : (memWrite m n i v).Named :=
  .ite (.raises (by decide)) (.ok _)

theorem writeTransmitRegister_named (b : Byte) (s : State) : (writeTransmitRegister b s).Named :=
  .ite (.ok _) (.raises (by decide))

theorem readReceiveRegister_named (s : State) : (readReceiveRegister s).Named :=
  .ite (.bind (.readReg _ _) fun _ => .ok _) (.raises (by decide))

theorem txPush1_named (b : Byte) (s : State) : (txPush1 b s).Named :=
  .ite (.bind (.readReg _ _) fun _ => .bind (.readReg _ _) fun _ => .ite (.ok _) (.ok _)) (.raises (by decide))

theorem txPush2_named (s : State) : (txPush2 s).Named :=
  .bind (.readReg _ _) fun _ => .bind (.readReg _ _) fun _ => .bind (memWrite_named _ _ _ _) fun _ => .ok _

theorem txPush3_named (s : State) : (txPush3 s).Named := .bind (.readReg _ _) fun _ => .ok _

theorem txPush4_named (s : State) : (txPush4 s).Named := .ok _

theorem txDrain_named (s : State) : (txDrain s).Named :=
  .bind (.readReg _ _) fun _ => .bind (.readReg _ _) fun _ =>
    .ite (.ok _) (.bind (memRead_named _ _ _) fun _ => writeTransmitRegister_named _ _)

theorem rxFill_named (s : State) : (rxFill s).Named :=
  .bind (readReceiveRegister_named s) fun _ => .bind (.readReg _ _) fun _ => .bind (.readReg _ _) fun _ =>
    .ite (.ok _) (.bind (memWrite_named _ _ _ _) fun _ => .ok _)

theorem rxPop1_named (s : State) : (rxPop1 s).Named :=
  .ite (.bind (.readReg _ _) fun _ => .bind (.readReg _ _) fun _ => .ite (.ok _) (.ok _)) (.raises (by decide))

theorem rxPop2_named (s : State) : (rxPop2 s).Named := .bind (.readReg _ _) fun _ => .ok _

theorem rxPop3_named (s : State) : (rxPop3 s).Named :=
  .bind (.readReg _ _) fun _ => .bind (memRead_named _ _ _) fun _ => .ok _

theorem serviceRx_named (s : State) : (serviceRx s).Named :=
  .ite (.bind (.ite (rxFill_named s) (.ok _)) fun _ => .ok _) (.raises (by decide))

theorem serviceTx_named (s : State) : (serviceTx s).Named :=
  .bind (.ite (txDrain_named s) (.ok _)) fun _ => .ok _

end

end Sys2Proof.Machine
end

