-- ==== Sys2Proof/Laws/PerInstr.lean ====
section
/-! SUPPORT. Laws said per instruction: the encoding of each has its row's fixed bits, and bit 15 alone tells the handler entries from the
foreground operations (30_encoding.md rule R102). -/

namespace Sys2Proof.Laws.EncodesRow

open Sys2Proof

/-- The encoding lies in the instruction's row of the opcode table, and its bit 15 says whether it is a handler entry. -/
def Statement (i : Instr) : Prop :=
  i.row.covers (encode i) = true ∧ i.row.mnemonic = i.mnemonic ∧ (encode i).getLsbD 15 = i.isHandler

theorem init (k : BitVec 4) : Statement (.init k) := by
  revert k; unfold Statement; decide

theorem txPush (b : Byte) : Statement (.txPush b) := by
  refine ⟨?_, rfl, ?_⟩ <;> revert b <;> decide

theorem rxPop : Statement .rxPop := by unfold Statement; decide

theorem service : Statement .service := by unfold Statement; decide

theorem txIsr : Statement .txIsr := by unfold Statement; decide

theorem rxIsr : Statement .rxIsr := by unfold Statement; decide

end Sys2Proof.Laws.EncodesRow
end

