-- ==== Sys2Proof/Laws/Source.lean ====
section
/-! SUPPORT. Laws of the loading of source programs (30_encoding.md rule R111). -/

namespace Sys2Proof

variable {c : Config}

theorem mem_clockIndices {f k : Nat} : k ∈ clockIndices c f ↔ k < c.nclk ∧ Config.clockSet k = f := by
  simp [clockIndices]

/-- An `initialize(f)` answers an index that `CLOCK_SET` holds f at, or `REF_CLOCK` where there is none. -/
theorem expand_initializeAt (f : Nat) :
    ((∃ k, k < c.nclk ∧ Config.clockSet k = f) →
      ∃ k, k < c.nclk ∧ Config.clockSet k = f ∧ (ApiCall.initializeAt f).expand c = .ok (.init (BitVec.ofNat 4 k))) ∧
    ((∀ k, k < c.nclk → Config.clockSet k ≠ f) → (ApiCall.initializeAt f).expand c = .error .refClock) := by
  cases hc : clockIndices c f with
  | nil =>
    refine ⟨fun ⟨k, hk⟩ => ?_, fun _ => by simp [ApiCall.expand, hc]⟩
    have hm := mem_clockIndices.mpr hk
    simp [hc] at hm
  | cons a more =>
    have hlt : Config.freeClock f % (more.length + 1) < (a :: more).length := Nat.mod_lt _ (by simp)
    have hm : (a :: more).getD (Config.freeClock f % (more.length + 1)) a ∈ clockIndices c f := by
      rw [List.getD_eq_getElem _ _ hlt, hc]
      exact List.getElem_mem hlt
    obtain ⟨h1, h2⟩ := mem_clockIndices.mp hm
    exact ⟨fun _ => ⟨_, h1, h2, by simp [ApiCall.expand, hc]⟩, fun h => absurd h2 (h _ h1)⟩

/-- A line is refused for its clock only. -/
theorem SourceLine.expand_error {l : SourceLine} {r : Machine.Refusal} (h : l.expand c = .error r) :
    r = .refClock ∧ ∃ f, l = .call (.initializeAt f) := by
  unfold SourceLine.expand at h
  cases l with
  | word w => cases h
  | call a =>
    cases a with
    | initializeAt f =>
      refine ⟨?_, f, rfl⟩
      cases hc : clockIndices c f <;> simp only [ApiCall.expand, hc] at h <;> cases h
      rfl
    | transmit b => cases h
    | receive => cases h
    | service => cases h

/-- Everything the expansion of a program that has a first line can come to. -/
theorem expandProgram_cons (l : SourceLine) (ls : List SourceLine) :
    (∃ r, l.expand c = .error r ∧ expandProgram c (l :: ls) = .error r) ∨
    (∃ w r, l.expand c = .ok w ∧ expandProgram c ls = .error r ∧ expandProgram c (l :: ls) = .error r) ∨
    (∃ w ws, l.expand c = .ok w ∧ expandProgram c ls = .ok ws ∧ expandProgram c (l :: ls) = .ok (w :: ws)) := by
  rw [expandProgram]
  cases h : l.expand c with
  | error r => exact .inl ⟨r, rfl, rfl⟩
  | ok w =>
    cases hs : expandProgram c ls with
    | error r => exact .inr (.inl ⟨w, r, rfl, rfl, rfl⟩)
    | ok ws => exact .inr (.inr ⟨w, ws, rfl, rfl, rfl⟩)

end Sys2Proof
end

