-- ==== Sys2Proof/Laws/Step.lean ====
section
/-! SUPPORT. What one step of the machine can do, said once. -/

namespace Sys2Proof.Machine

open Sys2Proof

variable {s t : State}

theorem launchRefusal_none : launchRefusal s = none ↔ LaunchOk s := by
  unfold launchRefusal LaunchOk
  cases s.cfg.wf <;> cases clocksSupported s <;> simp

/-- Moving the schedule on changes the model's own two fields only. -/
theorem consume_eq (more : List Event) : ∃ sc d, consume s more = { s with sched := sc, draws := d } := by
  unfold consume
  split
  · exact ⟨_, _, rfl⟩
  · split <;> exact ⟨_, _, rfl⟩

/-- The invariant does not read the model's own two fields. -/
theorem Inv.sched (h : Inv s) (sc : List Event) (d : Nat) : Inv { s with sched := sc, draws := d } := by
  obtain ⟨h1, h2, h3, h4, h5, h6, h7, h8, h9, h10, h11⟩ := h
  refine ⟨h1, h2, h3, h4, h5, h6, h7, h8, h9, fun hi => ?_, fun hi => ?_⟩
  · have hp := h10 hi
    unfold AtPowerUp at *
    simp only
    rw [hp]; rfl
  · obtain ⟨a, b, c, d, e, ⟨x, y, f⟩, ⟨z, w, g⟩, k⟩ := h11 hi
    exact ⟨a, b, c, d, e, ⟨x, y, ⟨f.1, f.2, f.3, f.4, f.5, f.6, f.7, f.8⟩⟩, ⟨z, w, ⟨g.1, g.2, g.3, g.4, g.5, g.6, g.7⟩⟩, k⟩

/-- A request is asserted in interrupt mode only (43_polling.md rule R183). -/
theorem Inv.txMode_of_txIrq (h : Inv s) (hq : s.txIrq = true) : s.cfg.txMode = .interrupt := by
  have h1 : s.txie = true := by simp [State.txIrq] at hq; exact hq.1
  cases hi : s.inited
  · rw [h.beforeInit hi] at h1
    exact absurd h1 (by simp [State.txie, State.powerUp])
  · cases hm : s.cfg.txMode
    · rfl
    · simp [(h.afterInit hi).polledTx hm] at h1

theorem Inv.rxMode_of_rxIrq (h : Inv s) (hq : s.rxIrq = true) : s.cfg.rxMode = .interrupt := by
  have h1 : s.rxie = true := by simp [State.rxIrq] at hq; exact hq.1
  cases hi : s.inited
  · rw [h.beforeInit hi] at h1
    exact absurd h1 (by simp [State.rxie, State.powerUp])
  · have h2 := (h.afterInit hi).rxie
    rw [h1] at h2
    simpa using h2.symm

theorem mem_agentEvents_of_not_power {e : Event} (he : ∀ r, e ≠ .rxArrive r) (hp : e ≠ .powerCycle) :
    e ∈ agentEvents s := by
  unfold agentEvents
  cases e <;> split <;> simp_all

/-- What is enabled is a step of an agent. -/
theorem enabled_not_power : enabled s .powerCycle = false := by simp [enabled]

/-- The step that is picked is enabled. -/
theorem pick_enabled {first : Event} {more : List Event} (h : choices s = first :: more) :
    enabled s (pick s first more) = true := by
  have hf : enabled s first = true := by
    have : first ∈ choices s := by simp [h]
    exact (List.mem_filter.mp this).2
  unfold pick
  split
  · split <;> assumption
  · split
    · exact hf
    · split <;> assumption

/-- No choice means that no agent has a step. -/
theorem choices_nil : choices s = [] ↔ NoStep s := by
  unfold choices NoStep
  rw [List.filter_eq_nil_iff]
  constructor
  · intro h e
    have h1 := h .fg (by unfold agentEvents; split <;> simp)
    have h2 := h .txIsr (by unfold agentEvents; split <;> simp)
    have h3 := h .rxIsr (by unfold agentEvents; split <;> simp)
    have h4 := h .txDone (by unfold agentEvents; split <;> simp)
    have h5 := h (.rxArrive false) (by unfold agentEvents; split <;> simp)
    cases e with
    | fg => simpa using h1
    | txIsr => simpa using h2
    | rxIsr => simpa using h3
    | txDone => simpa using h4
    | rxArrive r => simpa [enabled] using h5
    | powerCycle => exact enabled_not_power
  · intro h e _
    simp [h e]

/-- Everything a step of the agents can come to. -/
theorem agentStep_cases {o : Host.Outcome State Fault Refusal} (h : agentStep s = o) :
    (s.fault ≠ .noFault ∧ o = .fault (.faulted s)) ∨
    (s.fault = .noFault ∧ NoStep s ∧ o = .fault (.runEnded s)) ∨
    (s.fault = .noFault ∧ ∃ e sc d, enabled s e = true ∧ o = takeEvent e { s with sched := sc, draws := d }) := by
  unfold agentStep at h
  by_cases hf : s.fault = .noFault
  · rw [whileLive_live hf] at h
    cases hc : choices s with
    | nil =>
      simp only [hc] at h
      exact .inr (.inl ⟨hf, choices_nil.mp hc, h.symm⟩)
    | cons first more =>
      simp only [hc] at h
      obtain ⟨sc, d, he⟩ := consume_eq (s := s) more
      exact .inr (.inr ⟨hf, _, sc, d, pick_enabled hc, by rw [← he, h]⟩)
  · rw [whileLive_faulted hf] at h
    exact .inl ⟨hf, h.symm⟩

theorem launchedStep_power {rest : List Event} (h : s.sched = .powerCycle :: rest) :
    launchedStep s = .next (powerCycle { s with sched := rest }) := by
  simp [launchedStep, h, takeEvent]

theorem launchedStep_agent (h : powerCycleNext s = false) : launchedStep s = agentStep s := by
  unfold powerCycleNext at h
  unfold launchedStep
  split <;> simp_all

theorem powerCycleNext_iff : powerCycleNext s = true ↔ ∃ rest, s.sched = .powerCycle :: rest := by
  unfold powerCycleNext
  split <;> simp_all

/-- What an event can do to the state, an effect a constructor: the whole of `takeEvent` at once. -/
inductive Took (s : State) : Event → State → Prop where
  /-- A raised fault: `FAULT` and nothing else. -/
  | raised (e : Event) (c : FaultCode) (he : e ≠ .powerCycle) (hc : c ≠ .noFault) : Took s e { s with fault := c }
  | init (k : BitVec 4) (hp : s.fgPhase = .idle) (hc : currentInstr s = some (.init k))
      (hk : k.toNat < s.cfg.nclk) : Took s .fg (initStep k s)
  /-- TX.1 on a full queue. -/
  | txFull (b : Byte) (h : Index) (hp : s.fgPhase = .idle) (hc : currentInstr s = some (.txPush b))
      (hi : s.inited = true) (hh : s.txHead = some h) (ht : s.txTail = some (nextTx s.cfg h)) :
      Took s .fg (fgDone (respond (respWord false 0x00#8) s))
  /-- TX.1 with room. -/
  | tx1 (b : Byte) (h tl : Index) (hp : s.fgPhase = .idle) (hc : currentInstr s = some (.txPush b))
      (hi : s.inited = true) (hh : s.txHead = some h) (ht : s.txTail = some tl) (hne : nextTx s.cfg h ≠ tl) :
      Took s .fg (fgGoto .tx2 { s with fgN := some (nextTx s.cfg h), fgB := some b })
  | tx2 (n : Index) (b : Byte) (hp : s.fgPhase = .tx2) (hn : s.fgN = some n) (hb : s.fgB = some b)
      (hlt : n.toNat < s.cfg.nTx) : Took s .fg (fgGoto .tx3 { s with txBuf := s.txBuf.write n.toNat b })
  | tx3 (n : Index) (hp : s.fgPhase = .tx3) (hn : s.fgN = some n) :
      Took s .fg (fgGoto .tx4 { s with txHead := some n })
  | tx4 (hp : s.fgPhase = .tx4) :
      Took s .fg (fgDone (respond (respWord true 0x00#8) (armTransmit s)))
  /-- RX.1 on an empty queue. -/
  | rxEmpty (h : Index) (hp : s.fgPhase = .idle) (hc : currentInstr s = some .rxPop)
      (hi : s.inited = true) (hh : s.rxHead = some h) (ht : s.rxTail = some h) :
      Took s .fg (fgDone (respond (respWord false 0x00#8) s))
  /-- RX.1 with a byte pending. -/
  | rx1 (h tl : Index) (hp : s.fgPhase = .idle) (hc : currentInstr s = some .rxPop)
      (hi : s.inited = true) (hh : s.rxHead = some h) (ht : s.rxTail = some tl) (hne : h ≠ tl) :
      Took s .fg (fgGoto .rx2 { s with fgN := some (nextRx s.cfg tl) })
  | rx2 (n : Index) (hp : s.fgPhase = .rx2) (hn : s.fgN = some n) :
      Took s .fg (fgGoto .rx3 { s with rxTail := some n })
  | rx3 (n : Index) (v : Byte) (hp : s.fgPhase = .rx3) (hn : s.fgN = some n)
      (hlt : n.toNat < s.cfg.nRx) (hv : s.rxBuf.read n.toNat = some v) : Took s .fg (fgDone (respond (respWord true v) s))
  /-- SVC.RX with nothing to receive. -/
  | svcRxNone (hp : s.fgPhase = .idle) (hc : currentInstr s = some .service) (hi : s.inited = true)
      (hno : ¬ (s.cfg.rxMode = .polled ∧ s.rxne = true)) : Took s .fg (fgGoto .svcTx s)
  | svcRxFill (u : State) (hp : s.fgPhase = .idle) (hc : currentInstr s = some .service)
      (hi : s.inited = true) (hm : s.cfg.rxMode = .polled) (hr : s.rxne = true) (hu : rxFill s = .ok u) :
      Took s .fg (fgGoto .svcTx u)
  /-- SVC.TX with nothing to do. -/
  | svcTxNone (hp : s.fgPhase = .svcTx) (hno : ¬ (s.cfg.txMode = .polled ∧ s.txe = true)) :
      Took s .fg (fgDone s)
  | svcTxDrain (u : State) (hp : s.fgPhase = .svcTx) (hm : s.cfg.txMode = .polled)
      (hx : s.txe = true) (hu : txDrain s = .ok u) : Took s .fg (fgDone u)
  | txIsr (u : State) (hq : s.txIrq = true) (hu : txDrain s = .ok u) : Took s .txIsr u
  | rxIsr (u : State) (hq : s.rxIrq = true) (hu : rxFill s = .ok u) : Took s .rxIsr u
  | txDone (b : Byte) (hx : s.txe = false) (hb : s.txData = some b) :
      Took s .txDone { s with lineOut := s.lineOut ++ [b], pstat := setBit s.pstat 0 }
  | rxArrive (r : Bool) (b : Byte) (rest : List Byte) (hr : s.rxIn = b :: rest) :
      Took s (.rxArrive r) (arrive r b { s with rxIn := rest })
  | powerCycle : Took s .powerCycle (powerCycle s)

/-- A committed body either does its effect or raises. -/
theorem took_of_commit {e : Event} {body : Eff State} (he : e ≠ .powerCycle) (hn : body.Named)
    (h : commit s body = .next t) (hb : ∀ u, body = .ok u → Took s e u) : Took s e t := by
  rcases commit_next.mp h with h | ⟨c, hc, rfl⟩
  · exact hb _ h
  · exact .raised e c he (hn c hc)

/-- FG's decoded step. -/
theorem took_of_exec {i : Instr} (hp : s.fgPhase = .idle) (hc : currentInstr s = some i) (hh : i.isHandler = false)
    (h : exec i s = .next t) : Took s .fg t := by
  cases i with
  | init k =>
    simp only [exec, execInit] at h
    split at h
    · rename_i hk
      simp only [whileLive_next, hp] at h
      obtain ⟨-, h⟩ := h
      cases h
      refine .init k hp hc ?_
      have := k.isLt
      simp only [clockIndex, BitVec.toNat_setWidth] at hk
      omega
    · cases h
  | txPush b =>
    simp only [exec, execTxPush, whileLive_next, hp] at h
    refine took_of_commit (by simp) (txPush1_named b s) h.2 fun u hu => ?_
    obtain ⟨hi, x, y, hx, hy, ⟨rfl, rfl⟩ | ⟨hne, rfl⟩⟩ := txPush1_ok.mp hu
    · exact .txFull b x hp hc hi hx hy
    · exact .tx1 b x y hp hc hi hx hy hne
  | rxPop =>
    simp only [exec, execRxPop, whileLive_next, hp] at h
    refine took_of_commit (by simp) (rxPop1_named s) h.2 fun u hu => ?_
    obtain ⟨hi, x, y, hx, hy, ⟨rfl, rfl⟩ | ⟨hne, rfl⟩⟩ := rxPop1_ok.mp hu
    · exact .rxEmpty x hp hc hi hx hy
    · exact .rx1 x y hp hc hi hx hy hne
  | service =>
    simp only [exec, execService, whileLive_next, hp] at h
    refine took_of_commit (by simp) (serviceRx_named s) h.2 fun u hu => ?_
    obtain ⟨hi, v, rfl, ⟨hm, hr, hv⟩ | ⟨hno, rfl⟩⟩ := serviceRx_ok.mp hu
    · exact .svcRxFill v hp hc hi hm hr hv
    · exact .svcRxNone hp hc hi hno
  | txIsr => simp [Instr.isHandler] at hh
  | rxIsr => simp [Instr.isHandler] at hh

/-- FG's step inside an operation. -/
theorem took_of_fgContinue (h : fgContinue s = .next t) : Took s .fg t := by
  unfold fgContinue at h
  split at h
  · cases h
  · rename_i hp
    refine took_of_commit (by simp) (txPush2_named s) h fun u hu => ?_
    obtain ⟨n, b, hn, hb, hlt, rfl⟩ := txPush2_ok.mp hu
    exact .tx2 n b hp hn hb hlt
  · rename_i hp
    refine took_of_commit (by simp) (txPush3_named s) h fun u hu => ?_
    obtain ⟨n, hn, rfl⟩ := txPush3_ok.mp hu
    exact .tx3 n hp hn
  · rename_i hp
    refine took_of_commit (by simp) (txPush4_named s) h fun u hu => ?_
    obtain rfl := txPush4_ok.mp hu
    exact .tx4 hp
  · rename_i hp
    refine took_of_commit (by simp) (rxPop2_named s) h fun u hu => ?_
    obtain ⟨n, hn, rfl⟩ := rxPop2_ok.mp hu
    exact .rx2 n hp hn
  · rename_i hp
    refine took_of_commit (by simp) (rxPop3_named s) h fun u hu => ?_
    obtain ⟨n, v, hn, hlt, hv, rfl⟩ := rxPop3_ok.mp hu
    exact .rx3 n v hp hn hlt hv
  · rename_i hp
    refine took_of_commit (by simp) (serviceTx_named s) h fun u hu => ?_
    obtain ⟨v, rfl, ⟨hm, hr, hv⟩ | ⟨hno, rfl⟩⟩ := serviceTx_ok.mp hu
    · exact .svcTxDrain v hp hm hr hv
    · exact .svcTxNone hp hno

/-- Everything an event can do. -/
theorem took_of_takeEvent {e : Event} (h : takeEvent e s = .next t) : Took s e t := by
  cases e with
  | fg =>
    simp only [takeEvent, fgStep] at h
    split at h
    · rename_i hp
      split at h
      · rename_i w hw
        unfold fgDecode at h
        split at h
        · cases h; exact .raised _ _ (by simp) (by simp)
        · rename_i i hd
          split at h
          · cases h; exact .raised _ _ (by simp) (by simp)
          · rename_i hh
            exact took_of_exec hp (by simp [currentInstr, hw, hd]) (by simpa using hh) h
      · cases h
    · exact took_of_fgContinue h
  | txIsr =>
    simp only [takeEvent, exec, execTxIsr, whileLive_next] at h
    obtain ⟨-, h⟩ := h
    split at h
    · rename_i hq
      exact took_of_commit (by simp) (txDrain_named s) h fun u hu => .txIsr u hq hu
    · cases h
  | rxIsr =>
    simp only [takeEvent, exec, execRxIsr, whileLive_next] at h
    obtain ⟨-, h⟩ := h
    split at h
    · rename_i hq
      exact took_of_commit (by simp) (rxFill_named s) h fun u hu => .rxIsr u hq hu
    · cases h
  | txDone =>
    simp only [takeEvent, perTxDone, whileLive_next] at h
    obtain ⟨-, h⟩ := h
    split at h
    · cases h
    · rename_i hx
      refine took_of_commit (by simp) (.bind (.readReg _ _) fun _ => .ok _) h fun u hu => ?_
      simp only [Eff.bind_eq_ok, readReg_eq_ok, Eff.ok_eq_comm] at hu
      obtain ⟨b, hb, rfl⟩ := hu
      exact .txDone b (by simpa using hx) hb
  | rxArrive r =>
    simp only [takeEvent, perRxArrive, whileLive_next] at h
    obtain ⟨-, h⟩ := h
    split at h
    · cases h
    · rename_i b rest hr
      cases h
      exact .rxArrive r b rest hr
  | powerCycle => cases h; exact .powerCycle

/-- Everything one step can come to. -/
theorem step_cases {o : Host.Outcome State Fault Refusal} (h : step s = o) :
    (¬ LaunchOk s ∧ ∃ r, o = .refused r) ∨
    (LaunchOk s ∧ ∃ rest, s.sched = .powerCycle :: rest ∧ o = .next (powerCycle { s with sched := rest })) ∨
    (LaunchOk s ∧ powerCycleNext s = false ∧ agentStep s = o) := by
  unfold step at h
  cases hl : launchRefusal s with
  | some r =>
    simp only [hl] at h
    refine .inl ⟨fun hok => ?_, r, h.symm⟩
    rw [launchRefusal_none.mpr hok] at hl
    cases hl
  | none =>
    simp only [hl] at h
    have hok := launchRefusal_none.mp hl
    cases hp : powerCycleNext s with
    | true =>
      obtain ⟨rest, hr⟩ := powerCycleNext_iff.mp hp
      exact .inr (.inl ⟨hok, rest, hr, by rw [← h, launchedStep_power hr]⟩)
    | false => exact .inr (.inr ⟨hok, rfl, by rw [← h, launchedStep_agent hp]⟩)

/-- Everything a step that answers a next state can have done. -/
theorem step_next (h : step s = .next t) :
    LaunchOk s ∧
      ((∃ rest, s.sched = .powerCycle :: rest ∧ t = powerCycle { s with sched := rest }) ∨
       (powerCycleNext s = false ∧ s.fault = .noFault ∧
         ∃ e sc d, enabled s e = true ∧ takeEvent e { s with sched := sc, draws := d } = .next t)) := by
  rcases step_cases h with ⟨-, r, h1⟩ | ⟨hok, rest, hr, h1⟩ | ⟨hok, hp, h1⟩
  · cases h1
  · exact ⟨hok, .inl ⟨rest, hr, by simpa using h1⟩⟩
  · refine ⟨hok, .inr ⟨hp, ?_⟩⟩
    rcases agentStep_cases h1 with ⟨-, h2⟩ | ⟨-, -, h2⟩ | ⟨hf, e, sc, d, he, h2⟩
    · cases h2
    · cases h2
    · exact ⟨hf, e, sc, d, he, h2.symm⟩

/-- A run whose first step is known. -/
theorem run_next {u : State} (n : Nat) (h : step s = .next u) : Host.Core.run core (n + 1) s = Host.Core.run core n u := by
  have h' : core.step s = .next u := h
  simp only [Host.Core.run, h']

theorem run_fault {r : Fault} (n : Nat) (h : step s = .fault r) : Host.Core.run core (n + 1) s = .fault r := by
  have h' : core.step s = .fault r := h
  simp only [Host.Core.run, h']

theorem run_refused {r : Refusal} (n : Nat) (h : step s = .refused r) : Host.Core.run core (n + 1) s = .refused r := by
  have h' : core.step s = .refused r := h
  simp only [Host.Core.run, h']

/-- An outcome is observed exactly where it is one of the two ends of a run (70_reset_and_hazards.md rule R281). -/
theorem observeOutcome_eq_some {x : Host.Outcome State Fault Refusal} {o : Observation} :
    observeOutcome x = some o ↔ ∃ final, o = observation final ∧ (x = .fault (.runEnded final) ∨ x = .fault (.faulted final)) := by
  unfold observeOutcome
  split <;> simp_all [eq_comm]

end Sys2Proof.Machine
end

