-- ==== Sys2Proof/Tests/Slice0.lean ====
section
/-! SUPPORT. The model's own tests, their expected values from 95_test_vectors.md and the encoding strings of 30_encoding.md rule R102, and
a witness for the hypotheses of every statement. -/

namespace Sys2Proof.Tests

open Sys2Proof Sys2Proof.Machine

/-! ### Helpers -/

/-- A next state with a property. -/
def nextIs (o : Host.Outcome State Machine.Fault Refusal) (p : State → Bool) : Bool :=
  match o with
  | .next s => p s
  | .fault _ => false
  | .refused _ => false

/-- A stop with a reason. -/
def stopsWith (o : Host.Outcome State Machine.Fault Refusal) (r : Machine.Fault) : Bool :=
  match o with
  | .next _ => false
  | .fault q => q == r
  | .refused _ => false

/-- A refusal with a reason. -/
def refusedWith (o : Host.Outcome State Machine.Fault Refusal) (r : Refusal) : Bool :=
  match o with
  | .next _ => false
  | .fault _ => false
  | .refused q => q == r

/-- Parameters of the vectors. -/
def params (nTx nRx : Nat) (tx rx : Mode) : Config :=
  { nTx := nTx, nRx := nRx, txMode := tx, rxMode := rx, nclk := 16, overrun := .draw }

/-- An initialized state, both queues empty at 0, no program (95_test_vectors.md, conventions). -/
def ready (c : Config) : State :=
  { State.reset with
    cfg := c, txHead := some 0, txTail := some 0, rxHead := some 0, rxTail := some 0, lineClk := some 0,
    ctrl := if c.rxMode = .interrupt then 0x17#8 else 0x13#8 }

/-- The vectors' usual machine: `N_TX = 4`, `N_RX = 8`, both modes `INTERRUPT`. -/
def four : State := ready (params 4 8 .interrupt .interrupt)

/-- The same with both modes `POLLED`. -/
def polled : State := ready (params 4 8 .polled .polled)

/-- A transmit queue. -/
def withTx (s : State) (h t : Index) (m : Memory) : State := { s with txHead := some h, txTail := some t, txBuf := m }

/-- A receive queue. -/
def withRx (s : State) (h t : Index) (m : Memory) : State := { s with rxHead := some h, rxTail := some t, rxBuf := m }

/-! ### Well-formedness: a term each check refuses -/

theorem test_wf_default : defaultConfig.wf = true := by decide
theorem test_wf_nTx_low : (params 1 8 .interrupt .interrupt).wf = false := by decide
theorem test_wf_nTx_high : (params 300 8 .interrupt .interrupt).wf = false := by decide
theorem test_wf_nRx : (params 4 6 .interrupt .interrupt).wf = false := by decide
theorem test_wf_nclk_low : { params 4 8 .interrupt .interrupt with nclk := 0 }.wf = false := by decide
theorem test_wf_nclk_high : { params 4 8 .interrupt .interrupt with nclk := 17 }.wf = false := by decide
theorem test_wf_init : (Instr.init 2).wf { defaultConfig with nclk := 2 } = false := by decide

/-! ### Decoding: words written out from the encoding strings -/

theorem test_decode_init : decode 0b0001001100000000#16 = some (.init 3) := by decide
theorem test_decode_txPush : decode 0b0010000011111111#16 = some (.txPush 0xFF) := by decide
theorem test_decode_rxPop : decode 0b0011000000000000#16 = some .rxPop := by decide
theorem test_decode_service : decode 0b0100000000000000#16 = some .service := by decide
theorem test_decode_txIsr : decode 0b1000000000000000#16 = some .txIsr := by decide
theorem test_decode_rxIsr : decode 0b1001000000000000#16 = some .rxIsr := by decide
theorem test_decode_illegal :
    [0x0000#16, 0x1080#16, 0x2F41#16, 0x3100#16, 0x4001#16, 0x5000#16, 0x6000#16, 0x7000#16, 0x8001#16, 0xA000#16, 0xF000#16,
      0xFFFF#16].all (fun w => decode w == none) = true := by decide
theorem test_decode_names_reason :
    decodeWord 0x5000#16 = .error .reservedOpc ∧ decodeWord 0x1001#16 = .error .reservedField := by decide
theorem test_decodeTableWord : decodeTableWord 16 0x1F00 = some (.init 15) := by decide
theorem test_assemble :
    assembleLine defaultConfig "INIT" (some 3) = some 0x1300#16 ∧ assembleLine defaultConfig "TX_PUSH" (some 65) = some 0x2041#16 ∧
    assembleLine defaultConfig "SERVICE" none = some 0x4000#16 ∧ assembleLine defaultConfig "INIT" (some 16) = none := by decide
theorem test_api : (ApiCall.transmit 0x41).expand defaultConfig = .ok (.txPush 0x41) := by decide

/-! ### Placing a word and running it first after reset -/

theorem test_fetch_init :
    nextIs (step (State.reset.withFetchWord 16 0x1000)) (fun s => s.ctrl == 0x17#8 && s.txHead == some 0 && s.fgPc == 1) = true := by
  decide
theorem test_fetch_txPush : nextIs (step (State.reset.withFetchWord 16 0x2041)) (fun s => s.fault == .notInit && s.fgPc == 0) = true := by
  decide
theorem test_fetch_handler : nextIs (step (State.reset.withFetchWord 16 0x8000)) (fun s => s.fault == .context) = true := by decide
theorem test_fetch_illegal : nextIs (step (State.reset.withFetchWord 16 0x1001)) (fun s => s.fault == .illegalOp) = true := by decide
theorem test_reset_ends : stopsWith (step State.reset) (.runEnded State.reset) = true := by decide

/-! ### INIT -/

/-- V-I2: polled receive leaves `RXIE` 0. -/
theorem test_init_polled :
    nextIs (exec (.init 0) { State.reset with cfg := params 4 8 .interrupt .polled }) (fun s => s.ctrl == 0x13#8) = true := by decide

/-- V-I4: a re-initialization while armed keeps the peripheral's data path and the buffer. -/
theorem test_init_again :
    nextIs (exec (.init 0) { withTx four 2 1 [(2, 0x22)] with ctrl := 0x1F#8, pstat := 0b00#2, txData := some 0x11 })
      (fun s => s.ctrl == 0x17#8 && s.txHead == some 0 && s.txTail == some 0 && s.txe == false && s.txData == some 0x11 &&
        s.txBuf == [(2, 0x22)]) = true := by decide

/-! ### TX_PUSH -/

/-- V-T2: wrap. -/
theorem test_txPush_wrap :
    nextIs (execSteps (.txPush 0xAA) 4 (withTx four 3 1 [(2, 1), (3, 2)]))
      (fun s => s.txHead == some 0 && s.txBuf == [(0, 0xAA), (2, 1), (3, 2)] && s.ctrl == 0x1F#8 && s.respLog == [0x0100#16]) = true := by
  decide

/-- V-T4: compare-and-wrap, not mask (`N_TX = 5`); V-T7: full at `N_TX = 256`. -/
theorem test_txPush_not_mask :
    nextIs (execSteps (.txPush 0x55) 4 (withTx (ready (params 5 8 .interrupt .interrupt)) 4 2 []))
      (fun s => s.txHead == some 0 && s.txBuf == [(0, 0x55)]) = true ∧
    nextIs (exec (.txPush 0xFF) (withTx (ready (params 256 8 .interrupt .interrupt)) 255 0 []))
      (fun s => s.respLog == [0x0000#16] && s.fgPc == 1 && s.txHead == some 255) = true := by decide

/-! ### TX_ISR -/

/-- V-H3: wrap. -/
theorem test_txIsr_wrap :
    nextIs (exec .txIsr { withTx four 0 3 [(0, 0xD0)] with ctrl := 0x1F#8 })
      (fun s => s.txTail == some 0 && s.txData == some 0xD0 && s.txe == false && s.txie) = true := by decide

/-- V-H2: empty; V-H5: no request. -/
theorem test_txIsr_empty :
    nextIs (exec .txIsr { withTx four 2 2 [] with ctrl := 0x1F#8 }) (fun s => s.ctrl == 0x17#8 && s.txe && s.txTail == some 2) = true ∧
    stopsWith (exec .txIsr { withTx four 3 1 [] with ctrl := 0x1F#8, pstat := 0b00#2 }) .notEnabled = true := by decide

/-! ### RX_ISR -/

/-- V-R2: wrap. -/
theorem test_rxIsr_wrap :
    nextIs (exec .rxIsr { withRx four 7 3 [] with pstat := 0b11#2, rxData := some 0x66 })
      (fun s => s.rxBuf == [(0, 0x66)] && s.rxHead == some 0 && s.rxne == false) = true := by decide

/-- V-R3: full, the byte read and dropped. -/
theorem test_rxIsr_full :
    nextIs (exec .rxIsr { withRx four 2 3 [] with pstat := 0b11#2, rxData := some 0x77 })
      (fun s => s.rxBuf == [] && s.rxHead == some 2 && s.rxTail == some 3 && s.rxne == false && s.fault == .noFault) = true := by
  decide

/-! ### RX_POP -/

/-- V-P3: wrap; V-P4: byte 0x00 is not "empty". -/
theorem test_rxPop_wrap :
    nextIs (execSteps .rxPop 3 (withRx four 0 7 [(0, 0x80)])) (fun s => s.rxTail == some 0 && s.respLog == [0x0180#16]) = true ∧
    nextIs (execSteps .rxPop 3 (withRx four 1 0 [(1, 0x00)])) (fun s => s.respLog == [0x0100#16]) = true := by decide

/-- V-P2: empty. -/
theorem test_rxPop_empty : nextIs (exec .rxPop (withRx four 5 5 [])) (fun s => s.respLog == [0x0000#16] && s.fgPc == 1) = true := by
  decide

/-! ### SERVICE -/

/-- V-SV2: a byte received, the transmit queue empty. -/
theorem test_service_rx :
    nextIs (execSteps .service 2 { polled with pstat := 0b11#2, rxData := some 0x7F })
      (fun s => s.rxBuf == [(1, 0x7F)] && s.rxHead == some 1 && s.rxne == false && s.ctrl == 0x13#8 && s.respLog == []) = true := by
  decide

/-- V-SV3: a byte sent. -/
theorem test_service_tx :
    nextIs (execSteps .service 2 (withTx polled 2 0 [(1, 0x10), (2, 0x20)]))
      (fun s => s.txTail == some 1 && s.txData == some 0x10 && s.txe == false && s.fgPc == 1) = true := by decide

/-! ### PER, faults and the launch -/

/-- V-E1, V-E2. -/
theorem test_per :
    nextIs (perTxDone { four with pstat := 0b00#2, txData := some 0x12 }) (fun s => s.lineOut == [0x12] && s.txe) = true ∧
    nextIs (perRxArrive false { State.reset with rxIn := [0x01] }) (fun s => s == State.reset) = true := by decide

/-- V-E6: both results of an overrun under `DRAW`. -/
theorem test_per_draw :
    nextIs (perRxArrive false { four with pstat := 0b11#2, rxData := some 0x31, rxIn := [0x32] }) (fun s => s.rxData == some 0x31) = true ∧
    nextIs (perRxArrive true { four with pstat := 0b11#2, rxData := some 0x31, rxIn := [0x32] }) (fun s => s.rxData == some 0x32) = true := by
  decide

/-- V-F3, V-F4. -/
theorem test_launch :
    refusedWith (step { State.reset with cfg := params 4 6 .interrupt .interrupt }) .refConfig = true ∧
    refusedWith (step { State.reset with cfg := { defaultConfig with nclk := 1 }, prog := [0x1000#16, 0x1100#16] }) .refClock = true ∧
    nextIs (step { State.reset with cfg := { defaultConfig with nclk := 1 }, prog := [0x1000#16, 0x1101#16] }) (fun s => s.inited) = true := by
  decide

/-- V-F2: a fault is final; a power cycle ends it. -/
theorem test_sticky :
    stopsWith (step { four with fault := .context, ctrl := 0x1F#8 }) (.faulted { four with fault := .context, ctrl := 0x1F#8 }) = true ∧
    nextIs (step { four with fault := .context, sched := [.powerCycle] }) (fun s => s.fault == .noFault && s.ctrl == 0#8) = true := by
  decide

/-! ### Witnesses for the statements' hypotheses -/

/-- A machine at a word between operations, FG to move. -/
def atWord (w : CmdWord) (s : State) : State := { s with prog := [w], sched := [.fg] }

/-- Full and one from full, at `N = 4` and `N = 8`. -/
def txFull : State := { withTx four 3 0 [(1, 1), (2, 2), (3, 3)] with ctrl := 0x1F#8 }
def rxFull : State := { withRx four 7 0 [(1, 1), (2, 2), (3, 3), (4, 4), (5, 5), (6, 6), (7, 7)] with pstat := 0b11#2, rxData := some 9 }

theorem four_launchOk : LaunchOk four := ⟨by decide, by decide⟩

/-- The launch check reads the parameters and the program only. -/
theorem launchOk_congr {s t : State} (h : LaunchOk s) (hc : t.cfg = s.cfg) (hp : t.prog = s.prog) : LaunchOk t := by
  unfold LaunchOk clocksSupported at *
  rwa [hc, hp]

theorem launchOk_atWord {w : CmdWord} (h : clocksSupported (atWord w four) = true) : LaunchOk (atWord w four) :=
  ⟨four_launchOk.1, h⟩

theorem witness_ReservedWordsRaiseIllegalOp :
    ∀ w ∈ [0xF000#16, 0x10FF#16, 0x2F00#16, 0x9001#16],
      LaunchOk (atWord w four) ∧ (atWord w four).fault = .noFault ∧ (atWord w four).sched = [.fg] ∧ (atWord w four).fgPhase = .idle ∧
      (atWord w four).prog[(atWord w four).fgPc]? = some w ∧ illegalWord w := by
  intro w hw
  simp only [List.mem_cons, List.not_mem_nil, or_false] at hw
  rcases hw with rfl | rfl | rfl | rfl <;> exact ⟨launchOk_atWord (by decide), rfl, rfl, rfl, rfl, by unfold illegalWord; decide⟩

theorem witness_HandlerWordRaisesContext :
    (∀ w ∈ [0x8000#16, 0x9000#16],
      LaunchOk (atWord w four) ∧ (atWord w four).fault = .noFault ∧ (atWord w four).sched = [.fg] ∧ (atWord w four).fgPhase = .idle ∧
      (atWord w four).prog[(atWord w four).fgPc]? = some w) ∧
    nextIs (exec .txIsr txFull) (fun _ => true) = true ∧ nextIs (exec .rxIsr rxFull) (fun _ => true) = true := by
  refine ⟨fun w hw => ?_, by decide, by decide⟩
  simp only [List.mem_cons, List.not_mem_nil, or_false] at hw
  rcases hw with rfl | rfl <;> exact ⟨launchOk_atWord (by decide), rfl, rfl, rfl, rfl⟩

theorem witness_StepRunsDecodedOperation :
    ∀ w ∈ [0x1F00#16, 0x2041#16, 0x3000#16, 0x4000#16],
      LaunchOk (atWord w four) ∧ (atWord w four).fault = .noFault ∧ (atWord w four).sched = [.fg] ∧
      (atWord w four).fgPhase = .idle ∧ (atWord w four).prog[(atWord w four).fgPc]? = some w ∧
      (decode w).any (fun i => !i.isHandler) = true := by
  intro w hw
  simp only [List.mem_cons, List.not_mem_nil, or_false] at hw
  rcases hw with rfl | rfl | rfl | rfl <;> exact ⟨launchOk_atWord (by decide), rfl, rfl, rfl, rfl, by decide⟩

theorem witness_StepContinuesOperationInProgress :
    ∀ p ∈ [Phase.tx2, .tx3, .tx4, .rx2, .rx3, .svcTx],
      LaunchOk { four with fgPhase := p, sched := [.fg] } ∧ { four with fgPhase := p, sched := [.fg] }.fault = .noFault :=
  fun _ _ => ⟨launchOk_congr four_launchOk rfl rfl, rfl⟩

theorem witness_StepRunsRequestedHandler :
    LaunchOk { txFull with sched := [.txIsr] } ∧ txFull.fault = .noFault ∧ txFull.txIrq = true ∧
    LaunchOk { rxFull with sched := [.rxIsr] } ∧ rxFull.fault = .noFault ∧ rxFull.rxIrq = true :=
  ⟨⟨by decide, by decide⟩, rfl, by decide, ⟨by decide, by decide⟩, rfl, by decide⟩

theorem witness_AnyEnabledStepMayBeTaken :
    (∀ e ∈ [Event.fg, .rxIsr, .rxArrive false, .rxArrive true],
      LaunchOk { rxFull with fgPhase := .svcTx, rxIn := [7], sched := [e] } ∧
      enabled { rxFull with fgPhase := .svcTx, rxIn := [7], sched := [e] } e = true) ∧
    enabled { four with pstat := 0b00#2 } .txDone = true ∧ enabled txFull .txIsr = true ∧
    nextIs (step { rxFull with sched := [.rxIsr] }) (fun _ => true) = true := by
  refine ⟨fun e he => ?_, by decide, by decide, by decide⟩
  simp only [List.mem_cons, List.not_mem_nil, or_false] at he
  rcases he with rfl | rfl | rfl | rfl <;> exact ⟨launchOk_congr four_launchOk rfl rfl, by decide⟩

theorem witness_InitOfUnsupportedClockRefused : { defaultConfig with nclk := 2 }.nclk ≤ (2#4).toNat := by decide

theorem witness_PowerCycleRestoresPowerUp :
    LaunchOk { txFull with fault := .context, sched := [.powerCycle] } ∧
    { txFull with fault := .context, sched := [.powerCycle] }.sched = [.powerCycle] := ⟨⟨by decide, by decide⟩, rfl⟩

theorem witness_RaisedFaultIsAloneAndFinal :
    nextIs (step (atWord 0x8000 four)) (fun t => t.fault != four.fault) = true ∧ powerCycleNext (atWord 0x8000 four) = false ∧
    LaunchOk { four with fault := .context } ∧ powerCycleNext { four with fault := .context } = false ∧
    LaunchOk { four with fault := .context, sched := [.powerCycle] } :=
  ⟨by decide, rfl, ⟨by decide, by decide⟩, rfl, ⟨by decide, by decide⟩⟩

theorem witness_OperationBeforeInitRaisesNotInit :
    State.reset.fault = .noFault ∧ State.reset.fgPhase = .idle ∧ State.reset.inited = false := by decide

theorem reset_inv : Inv State.reset := by
  refine ⟨by decide, by decide, by decide, by decide, by decide, by decide, ⟨rfl, rfl⟩, by decide, by decide, fun _ => rfl, ?_⟩
  intro h; exact absurd h (by decide)

theorem witness_NothingMovesBeforeInit :
    Inv State.reset ∧ State.reset.fault = .noFault ∧ State.reset.inited = false := ⟨reset_inv, by decide, by decide⟩

theorem witness_InitResetsQueuesAndEnables :
    (four.fault = .noFault ∧ four.fgPhase = .idle ∧ (15#4).toNat < four.cfg.nclk ∧ four.cfg.rxMode = .interrupt) ∧
    (polled.fault = .noFault ∧ polled.fgPhase = .idle ∧ (0#4).toNat < polled.cfg.nclk ∧ polled.cfg.rxMode = .polled ∧ polled.rxie = false) := by
  decide

theorem witness_TxPushStoresPublishesArms :
    four.cfg.wf = true ∧ four.txBuf.wf ∧ four.fault = .noFault ∧ four.fgPhase = .idle ∧ four.inited = true ∧
    four.txHead = some 0 ∧ four.txTail = some 0 ∧ (0 : Index).toNat < four.cfg.nTx ∧ pendingCount four.cfg.nTx 0 0 < four.cfg.nTx - 1 ∧
    pendingCount four.cfg.nTx 3 1 < four.cfg.nTx - 1 := by decide

theorem witness_TxPushOnFullQueueOnlyResponds :
    txFull.cfg.wf = true ∧ txFull.fault = .noFault ∧ txFull.fgPhase = .idle ∧ txFull.inited = true ∧ txFull.txHead = some 3 ∧
    txFull.txTail = some 0 ∧ (3 : Index).toNat < txFull.cfg.nTx ∧ (0 : Index).toNat < txFull.cfg.nTx ∧
    pendingCount txFull.cfg.nTx 3 0 = txFull.cfg.nTx - 1 := by decide

theorem witness_TxPushMicroSteps :
    (four.fault = .noFault ∧ four.fgPhase = .idle ∧ four.inited = true ∧ four.txHead = some 0 ∧ four.txTail = some 0 ∧
      nextTx four.cfg 0 ≠ 0) ∧
    (let s := { four with fgPhase := .tx2, fgN := some 3, fgB := some 0xAA }
     s.fault = .noFault ∧ s.fgPhase = .tx2 ∧ s.fgN = some 3 ∧ s.fgB = some 0xAA ∧ (3 : Index).toNat < s.cfg.nTx ∧ s.txBuf.wf) ∧
    (let s := { four with fgPhase := .tx3, fgN := some 3 }
     s.fault = .noFault ∧ s.fgPhase = .tx3 ∧ s.fgN = some 3) ∧
    (let s := { polled with fgPhase := .tx4 }
     s.fault = .noFault ∧ s.fgPhase = .tx4) := by decide

theorem witness_TxIsrSendsOldestByte :
    txFull.cfg.wf = true ∧ txFull.fault = .noFault ∧ txFull.txIrq = true ∧ txFull.txHead = some 3 ∧ txFull.txTail = some 0 ∧
    (3 : Index) ≠ 0 ∧ (0 : Index).toNat < txFull.cfg.nTx ∧ txFull.txBuf.read (nextTx txFull.cfg 0).toNat = some 1 := by decide

theorem witness_TxIsrOnEmptyQueueOnlyDisarms :
    let s := { withTx four 2 2 [] with ctrl := 0x1F#8 }
    s.fault = .noFault ∧ s.txIrq = true ∧ s.txHead = some 2 ∧ s.txTail = some 2 := by decide

theorem witness_RxIsrStoresArrivedByte :
    let s := { withRx four 7 3 [] with pstat := 0b11#2, rxData := some 0x66 }
    s.cfg.wf = true ∧ s.rxBuf.wf ∧ s.fault = .noFault ∧ s.rxIrq = true ∧ s.rxData = some 0x66 ∧ s.rxHead = some 7 ∧ s.rxTail = some 3 ∧
    (7 : Index).toNat < s.cfg.nRx ∧ (3 : Index).toNat < s.cfg.nRx ∧ pendingCount s.cfg.nRx 7 3 < s.cfg.nRx - 1 := by decide

theorem witness_RxIsrOnFullQueueDropsByte :
    rxFull.cfg.wf = true ∧ rxFull.rxne = true ∧ rxFull.fault = .noFault ∧ rxFull.rxIrq = true ∧ rxFull.rxData = some 9 ∧ rxFull.rxHead = some 7 ∧
    rxFull.rxTail = some 0 ∧ (7 : Index).toNat < rxFull.cfg.nRx ∧ (0 : Index).toNat < rxFull.cfg.nRx ∧
    pendingCount rxFull.cfg.nRx 7 0 = rxFull.cfg.nRx - 1 := by decide

theorem witness_HandlerWithoutRequestHasNoStep :
    four.fault = .noFault ∧ four.txIrq = false ∧ four.rxIrq = false := by decide

theorem witness_HandlerClearsItsRequest :
    txFull.fault = .noFault ∧ nextIs (exec .txIsr txFull) (fun t => t.fault == .noFault) = true ∧
    rxFull.fault = .noFault ∧ nextIs (exec .rxIsr rxFull) (fun t => t.fault == .noFault) = true := by decide

theorem witness_HandlersTouchOnlyTheirQueue :
    nextIs (exec .txIsr txFull) (fun _ => true) = true ∧ nextIs (exec .rxIsr rxFull) (fun _ => true) = true := by decide

/-- One byte pending each way, both requests asserted, the next word a `RX_POP`. -/
def busy : State :=
  { four with
    ctrl := 0x1F#8, pstat := 0b11#2, rxData := some 0x33, prog := [0x1000#16, 0x2041#16, 0x3000#16], fgPc := 2,
    txHead := some 1, txBuf := [(1, 0x41)], rxHead := some 1, rxBuf := [(1, 0x55)] }

theorem busy_launchOk : LaunchOk busy := ⟨by decide, by decide⟩

theorem busy_inv_empty : Inv busy := by
  refine ⟨by decide, by decide, by decide, by decide, by decide, by decide, ⟨rfl, rfl⟩, by decide, by decide, ?_, fun _ => ?_⟩
  · intro h; exact absurd h (by decide)
  · refine ⟨by decide, by decide, by decide, ?_, ⟨0, rfl, by decide⟩, ⟨1, 0, ?_⟩, ⟨1, 0, ?_⟩, fun _ _ _ => by decide⟩
    · intro h; exact absurd h (by decide)
    · refine ⟨rfl, rfl, by decide, by decide, by decide, ?_, ?_, ?_⟩ <;> (intro h; exact absurd h (by decide))
    · refine ⟨rfl, rfl, by decide, by decide, by decide, ?_, ?_⟩ <;> (intro h; exact absurd h (by decide))

/-- `busy` with another schedule. -/
theorem busy_inv (sched : List Event) : Inv { busy with sched := sched } := busy_inv_empty.sched sched 0

theorem witness_HandlersCommute :
    Inv { busy with sched := [] } ∧ busy.cfg.wf = true ∧ busy.fault = .noFault ∧ busy.txIrq = true ∧ busy.rxIrq = true :=
  ⟨busy_inv [], by decide, by decide, by decide, by decide⟩

theorem witness_RxPopReturnsOldestByte :
    let s := withRx four 0 7 [(0, 0x80)]
    s.cfg.wf = true ∧ s.fault = .noFault ∧ s.fgPhase = .idle ∧ s.inited = true ∧ s.rxHead = some 0 ∧ s.rxTail = some 7 ∧
    (0 : Index) ≠ 7 ∧ s.rxBuf.read (nextRx s.cfg 7).toNat = some 0x80 := by decide

theorem witness_RxPopOnEmptyQueueOnlyResponds :
    four.fault = .noFault ∧ four.fgPhase = .idle ∧ four.inited = true ∧ four.rxHead = some 0 ∧ four.rxTail = some 0 := by decide

theorem witness_RxPopMicroSteps :
    (busy.fault = .noFault ∧ busy.fgPhase = .idle ∧ busy.inited = true ∧ busy.rxHead = some 1 ∧ busy.rxTail = some 0 ∧ (1 : Index) ≠ 0) ∧
    (let s := { busy with fgPhase := .rx2, fgN := some 1 }
     s.fault = .noFault ∧ s.fgPhase = .rx2 ∧ s.fgN = some 1) ∧
    (let s := { withRx four 7 7 [(7, 0x77)] with fgPhase := .rx3, fgN := some 7 }
     s.fault = .noFault ∧ s.fgPhase = .rx3 ∧ s.fgN = some 7 ∧ (7 : Index).toNat < s.cfg.nRx ∧ s.rxBuf.read (7 : Index).toNat = some 0x77) := by
  decide

/-- The vector V-SV6: transmit polled, receive interrupt-driven, both directions with work to do. -/
def txPolled : State :=
  { withTx (ready (params 4 8 .polled .interrupt)) 1 0 [(1, 0x21)] with pstat := 0b11#2, rxData := some 9 }

/-- The opposite: transmit interrupt-driven, receive polled. -/
def rxPolled : State :=
  { withTx (ready (params 4 8 .interrupt .polled)) 1 0 [(1, 0x21)] with fgPhase := .svcTx, ctrl := 0x1B#8 }

theorem witness_ServiceInInterruptModesChangesNothing :
    (txPolled.fault = .noFault ∧ txPolled.cfg.rxMode = .interrupt ∧ txPolled.cfg.txMode = .polled ∧ txPolled.fgPhase = .idle ∧
      txPolled.inited = true ∧ txPolled.rxne = true) ∧
    (rxPolled.fault = .noFault ∧ rxPolled.cfg.txMode = .interrupt ∧ rxPolled.cfg.rxMode = .polled ∧ rxPolled.fgPhase = .svcTx ∧
      rxPolled.txe = true) ∧
    (four.cfg.txMode = .interrupt ∧ four.cfg.rxMode = .interrupt ∧ four.fault = .noFault ∧ four.fgPhase = .idle ∧ four.inited = true) ∧
    (State.reset.fault = .noFault ∧ State.reset.fgPhase = .idle ∧ State.reset.inited = false) := by decide

theorem witness_ServicePollsReceive :
    (polled.cfg.wf = true ∧ polled.rxBuf.wf ∧ polled.cfg.rxMode = .polled ∧ polled.fault = .noFault ∧ polled.fgPhase = .idle ∧
      polled.inited = true ∧ polled.rxHead = some 0 ∧ polled.rxTail = some 0 ∧ (0 : Index).toNat < polled.cfg.nRx ∧ polled.rxne = false) ∧
    (let s := { polled with pstat := 0b11#2, rxData := some 0x7F }
     s.rxne = true ∧ s.rxData = some 0x7F ∧ s.cfg.rxMode = .polled ∧ s.inited = true ∧ pendingCount s.cfg.nRx 0 0 < s.cfg.nRx - 1) ∧
    (let s := { withRx polled 2 3 [] with pstat := 0b11#2, rxData := some 0x77 }
     s.rxne = true ∧ s.rxData = some 0x77 ∧ s.cfg.rxMode = .polled ∧ s.inited = true ∧ s.rxHead = some 2 ∧ s.rxTail = some 3 ∧
     pendingCount s.cfg.nRx 2 3 = s.cfg.nRx - 1) := by decide

theorem witness_ServicePollsTransmit :
    (let s := { withTx polled 2 1 [(2, 0x20)] with fgPhase := .svcTx, pstat := 0b00#2 }
     s.cfg.wf = true ∧ s.cfg.txMode = .polled ∧ s.fault = .noFault ∧ s.fgPhase = .svcTx ∧ s.txHead = some 2 ∧ s.txTail = some 1 ∧
     (1 : Index).toNat < s.cfg.nTx ∧ s.txe = false) ∧
    (let s := { withTx polled 3 3 [] with fgPhase := .svcTx }
     s.cfg.txMode = .polled ∧ s.fgPhase = .svcTx ∧ s.txHead = some 3 ∧ s.txTail = some 3 ∧ (3 : Index).toNat < s.cfg.nTx ∧ s.txe = true) ∧
    (let s := { withTx polled 0 3 [(0, 0x21)] with fgPhase := .svcTx }
     s.cfg.txMode = .polled ∧ s.fgPhase = .svcTx ∧ s.txHead = some 0 ∧ s.txTail = some 3 ∧ (3 : Index).toNat < s.cfg.nTx ∧ s.txe = true ∧
     (0 : Index) ≠ 3 ∧ s.txBuf.read (nextTx s.cfg 3).toNat = some 0x21) := by decide

theorem witness_TxDonePutsByteOnLine :
    let s := { four with pstat := 0b00#2, txData := some 0x12 }
    s.fault = .noFault ∧ s.txe = false ∧ s.txData = some 0x12 := by decide

theorem witness_RxArriveLatchesDiscardsOrOverruns :
    (let s := { State.reset with rxIn := [1] }
     s.fault = .noFault ∧ s.rxIn = [1] ∧ s.rxEn = false) ∧
    (let s := { four with rxIn := [1] }
     s.fault = .noFault ∧ s.rxIn = [1] ∧ s.rxEn = true ∧ s.rxne = false) ∧
    (∀ o ∈ [Overrun.keepOld, .replace, .draw],
      let s := { rxFull with rxIn := [1], cfg := { rxFull.cfg with overrun := o } }
      s.fault = .noFault ∧ s.rxIn = [1] ∧ s.rxEn = true ∧ s.rxne = true ∧ s.cfg.overrun = o) := by decide

theorem witness_DataRegisterPrimitives :
    { four with pstat := 0b00#2 }.txe = false ∧ four.txe = true ∧ four.rxne = false ∧ rxFull.rxne = true ∧ rxFull.rxData = some 9 := by
  decide

theorem witness_BufferAccessAndItsFaults :
    Memory.wf [(3, 0x33)] ∧ 4 ≤ (4 : Index).toNat ∧ (2 : Index).toNat < 4 ∧ Memory.read [(3, 0x33)] (2 : Index).toNat = none ∧
    (3 : Index).toNat < 4 ∧ Memory.read [(3, 0x33)] (3 : Index).toNat = some 0x33 := by decide

theorem witness_SuccessorsCycleThroughTheQueue :
    (params 2 2 .interrupt .interrupt).wf = true ∧ (params 256 256 .interrupt .interrupt).wf = true ∧
    (params 5 8 .interrupt .interrupt).wf = true ∧ (255 : Index).toNat < 256 := by decide

theorem witness_CountsTellEmptyAndFull :
    (params 2 2 .interrupt .interrupt).wf = true ∧ (params 256 256 .interrupt .interrupt).wf = true ∧
    nextTx (params 2 2 .interrupt .interrupt) 0 ≠ 0 ∧ (1 : Index) ≠ 0 := by decide

/-- An initialized machine with one byte pending each way and a byte in `RXDATA`, both modes `POLLED`, at a `SERVICE`. -/
def busyPolled : State :=
  { polled with
    pstat := 0b11#2, rxData := some 0x33, prog := [0x4000#16], txHead := some 1, txBuf := [(1, 0x41)], rxHead := some 1,
    rxBuf := [(1, 0x55)] }

/-- `busyPolled` between operations and in SVC.TX. -/
theorem busyPolled_inv : ∀ p ∈ [Phase.idle, .svcTx], Inv { busyPolled with fgPhase := p } := by
  intro p hp
  simp only [List.mem_cons, List.not_mem_nil, or_false] at hp
  have hi : InProgress { busyPolled with fgPhase := p } := by
    rcases hp with rfl | rfl
    · exact ⟨rfl, rfl⟩
    · show currentInstr _ = some .service
      decide
  rcases hp with rfl | rfl <;>
  · refine ⟨by decide, by decide, by decide, by decide, by decide, by decide, hi, by decide, by decide, ?_, fun _ => ?_⟩
    · intro h; exact absurd h (by decide)
    · refine ⟨by decide, by decide, by decide, by decide, ⟨0, rfl, by decide⟩, ⟨1, 0, ?_⟩, ⟨1, 0, ?_⟩,
        fun h => absurd h (by decide)⟩
      · refine ⟨rfl, rfl, by decide, by decide, by decide, ?_, ?_, ?_⟩ <;> (intro h; exact absurd h (by decide))
      · refine ⟨rfl, rfl, by decide, by decide, by decide, ?_, ?_⟩ <;> (intro h; exact absurd h (by decide))

/-- The writer of `TX_TAIL` and of `RX_HEAD` in each mode, then TX.3 and RX.2. -/
theorem witness_EachIndexHasOneWriter :
    (Inv busy ∧ nextIs (takeEvent .txIsr busy) (fun t => t.txTail != busy.txTail) = true ∧
      nextIs (takeEvent .rxIsr busy) (fun t => t.rxHead != busy.rxHead) = true) ∧
    (Inv { busyPolled with fgPhase := .idle } ∧
      nextIs (takeEvent .fg busyPolled) (fun t => t.rxHead != busyPolled.rxHead) = true) ∧
    (Inv { busyPolled with fgPhase := .svcTx } ∧
      nextIs (takeEvent .fg { busyPolled with fgPhase := .svcTx }) (fun t => t.txTail != busyPolled.txTail) = true) ∧
    nextIs (takeEvent .fg { busy with fgPhase := .tx3, fgN := some 2 }) (fun t => t.txHead != busy.txHead) = true ∧
    nextIs (takeEvent .fg { busy with fgPhase := .rx2, fgN := some 1 }) (fun t => t.rxTail != busy.rxTail) = true :=
  ⟨⟨busy_inv [], by decide, by decide⟩, ⟨busyPolled_inv _ (by decide), by decide⟩,
    ⟨busyPolled_inv _ (by decide), by decide⟩, by decide, by decide⟩

theorem witness_EachBufferHasOneWriter :
    (Inv busy ∧ nextIs (takeEvent .rxIsr busy) (fun t => t.rxBuf.read 2 != busy.rxBuf.read 2) = true) ∧
    (Inv { busyPolled with fgPhase := .idle } ∧
      nextIs (takeEvent .fg busyPolled) (fun t => t.rxBuf.read 2 != busyPolled.rxBuf.read 2) = true) :=
  ⟨⟨busy_inv [], by decide⟩, busyPolled_inv _ (by decide), by decide⟩

/-- Each writer: `INIT` sets and clears, TX.4 sets, `TX_ISR` and the polled SVC.TX clear. -/
theorem witness_EnablesChangeOnlyByTheirWriters :
    nextIs (takeEvent .fg (atWord 0x1000 State.reset)) (fun t => t.txEn && t.rxEn && t.rxie && t.inited) = true ∧
    (State.reset.txEn = false ∧ State.reset.rxEn = false ∧ State.reset.rxie = false ∧ State.reset.inited = false) ∧
    nextIs (takeEvent .fg { four with fgPhase := .tx4 }) (fun t => t.txie) = true ∧ four.txie = false ∧
    nextIs (takeEvent .txIsr { four with ctrl := 0x1F#8 }) (fun t => !t.txie) = true ∧
    nextIs (takeEvent .fg { polled with fgPhase := .svcTx, ctrl := 0x1B#8 }) (fun t => !t.txie) = true ∧
    nextIs (takeEvent .fg { busy with fgPc := 0 }) (fun t => !t.txie) = true ∧ busy.txie = true := by decide

theorem witness_StreamsMoveOnlyByTheirAgents :
    nextIs (takeEvent .txDone { four with pstat := 0b00#2, txData := some 1 }) (fun t => t.lineOut == [1]) = true ∧
    nextIs (takeEvent (.rxArrive false) { four with rxIn := [1] }) (fun t => t.rxIn == []) = true ∧
    nextIs (takeEvent .fg (atWord 0x3000 four)) (fun t => t.respLog == [0x0000#16]) = true ∧
    nextIs (takeEvent .powerCycle busy) (fun t => t.lineOut == busy.lineOut) = true := by decide

theorem witness_ParametersAndProgramAreFixed : nextIs (step { busy with sched := [.txIsr] }) (fun _ => true) = true := by decide

theorem witness_EveryStepKeepsInvariant :
    Inv { busy with sched := [.fg] } ∧ nextIs (step { busy with sched := [.fg] }) (fun _ => true) = true := ⟨busy_inv _, by decide⟩

theorem witness_GuardFaultsAreUnreachable :
    Inv { busy with sched := [.txIsr] } ∧ busy.fault = .noFault ∧ nextIs (step { busy with sched := [.txIsr] }) (fun _ => true) = true :=
  ⟨busy_inv _, by decide, by decide⟩

/-- After `INIT 0` and `TX_PUSH 0x41` from power-up: a queued byte, armed. -/
theorem witness_NoLostWakeup :
    nextIs (Host.Core.run core 5 (State.powerUp defaultConfig [0x1000#16, 0x2041#16] [] [] [] [] 0))
      (fun s => s.cfg.txMode == .interrupt && s.fault == .noFault && s.fgPhase == .idle && s.txHead != s.txTail && s.txie) = true := by
  decide

/-- The same run three steps earlier, FG about to publish. -/
def publishing : State :=
  { four with prog := [0x2041#16], fgPhase := .tx3, fgN := some 1, fgB := some 0x41, txBuf := [(1, 0x41)], sched := [.fg] }

theorem publishing_inv : Inv publishing := by
  refine ⟨by decide, by decide, by decide, by decide, by decide, by decide, ⟨0x41, by decide, rfl⟩, by decide, by decide, ?_, fun _ => ?_⟩
  · intro h; exact absurd h (by decide)
  · refine ⟨by decide, by decide, by decide, ?_, ⟨0, rfl, by decide⟩, ⟨0, 0, ?_⟩, ⟨0, 0, ?_⟩, fun _ _ h => absurd rfl h⟩
    · intro h; exact absurd h (by decide)
    · refine ⟨rfl, rfl, by decide, by decide, by decide, ?_, fun _ => by decide, ?_⟩ <;> (intro h; exact absurd h (by decide))
    · refine ⟨rfl, rfl, by decide, by decide, by decide, ?_, ?_⟩ <;> (intro h; exact absurd h (by decide))

/-- The clause of a publication, the clause of any other step, and the clause of `INIT`. -/
theorem witness_TransmitBytesKeepTheirOrder :
    (Inv publishing ∧ powerCycleNext publishing = false ∧
      nextIs (step publishing) (fun t => t.fgPhase == .tx4 && txStream t == txStream publishing ++ [some 0x41]) = true) ∧
    (Inv { busy with sched := [.txIsr] } ∧ nextIs (step { busy with sched := [.txIsr] }) (fun t => txStream t == [some 0x41]) = true) ∧
    (Inv State.reset ∧ nextIs (step { State.reset with prog := [0x1000#16] }) (fun t => t.fgPc == 1 && txStream t == []) = true) :=
  ⟨⟨publishing_inv, rfl, by decide⟩, ⟨busy_inv _, by decide⟩, reset_inv, by decide⟩

/-- The clause of a stored arrival and the clause of any other step; the clause of RX.3 is met three FG steps after `busy`. -/
theorem witness_ReceivedBytesKeepTheirOrder :
    (Inv { busy with sched := [.rxIsr] } ∧ powerCycleNext { busy with sched := [.rxIsr] } = false ∧
      nextIs (step { busy with sched := [.rxIsr] }) (fun t => t.rxHead != busy.rxHead && rxStream t == [some 0x55, some 0x33]) = true) ∧
    (Inv { busy with sched := [.fg, .fg, .fg] } ∧
      nextIs (Host.Core.run core 2 { busy with sched := [.fg, .fg, .fg] }) (fun t => t.fgPhase == .rx3 && rxStream t == [some 0x55]) = true ∧
      nextIs (Host.Core.run core 3 { busy with sched := [.fg, .fg, .fg] }) (fun t => t.fgPhase == .idle && t.respLog == [0x0155#16]) = true) :=
  ⟨⟨busy_inv _, rfl, by decide⟩, busy_inv _, by decide, by decide⟩

theorem witness_RunEndsAreAsDescribed :
    LaunchOk four ∧ powerCycleNext four = false ∧ SuccessfulEnd four ∧ LaunchOk { four with fault := .txBusy } ∧
    FaultedEnd { four with fault := .txBusy } ∧ four.fgPc ≤ four.prog.length ∧
    observeRun 1 four = some { lineOut := [], respLog := [], fault := .noFault, final := four } :=
  ⟨four_launchOk, rfl, by unfold SuccessfulEnd; decide, ⟨by decide, by decide⟩, by unfold FaultedEnd; decide, by decide, by decide⟩

/-- `four` disarmed or armed. -/
theorem four_ctrl_inv : ∀ c ∈ [0x17#8, 0x1F#8], Inv { four with ctrl := c } := by
  intro c hc
  simp only [List.mem_cons, List.not_mem_nil, or_false] at hc
  rcases hc with rfl | rfl <;>
  · refine ⟨by decide, by decide, by decide, by decide, by decide, by decide, ⟨rfl, rfl⟩, by decide, by decide, ?_, fun _ => ?_⟩
    · intro h; exact absurd h (by decide)
    · refine ⟨by decide, by decide, by decide, ?_, ⟨0, rfl, by decide⟩, ⟨0, 0, ?_⟩, ⟨0, 0, ?_⟩, fun _ _ h => absurd rfl h⟩
      · intro h; exact absurd h (by decide)
      · refine ⟨rfl, rfl, by decide, by decide, by decide, ?_, ?_, ?_⟩ <;> (intro h; exact absurd h (by decide))
      · refine ⟨rfl, rfl, by decide, by decide, by decide, ?_, ?_⟩ <;> (intro h; exact absurd h (by decide))

theorem four_inv : Inv four := four_ctrl_inv _ (by decide)

theorem witness_InterruptModeEndsDrained :
    Inv four ∧ four.inited = true ∧ four.cfg.txMode = .interrupt ∧ SuccessfulEnd four :=
  ⟨four_inv, by decide, by decide, by unfold SuccessfulEnd; decide⟩

theorem witness_EveryRunEnds :
    Inv { busy with sched := [.fg, .txIsr] } ∧ LaunchOk { busy with sched := [.fg, .txIsr] } ∧
    Event.powerCycle ∉ { busy with sched := [.fg, .txIsr] }.sched :=
  ⟨busy_inv _, ⟨by decide, by decide⟩, by decide⟩

theorem witness_ArmedQueueDrainsInOrder :
    let s := { busy with sched := [.txIsr, .txDone, .txIsr, .fg] }
    Inv s ∧ LaunchOk s ∧ s.fault = .noFault ∧ s.txIrq = true ∧ s.sched = drainSchedule (txPending s).length ++ [.fg] ∧
    (txPending s).length = 1 :=
  ⟨busy_inv _, ⟨by decide, by decide⟩, by decide, by decide, by decide, by decide⟩

/-- A frequency that `CLOCK_SET` holds, and one that it does not, whatever the set. -/
theorem witness_SourceProgramsExpandOrAreRefused :
    let s := { State.reset with cfg := { defaultConfig with nclk := 1 } }
    (∃ f, SourceLine.call (.initializeAt f) ∈ [SourceLine.call (.initializeAt (Config.clockSet 0 + 1))] ∧
      ∀ k, k < s.cfg.nclk → Config.clockSet k ≠ f) ∧
    (∀ f, SourceLine.call (.initializeAt f) ∈ [SourceLine.call (.initializeAt (Config.clockSet 0)), .call (.transmit 0x41), .word 0x3000] →
      ∃ k, k < s.cfg.nclk ∧ Config.clockSet k = f) := by
  refine ⟨⟨_, List.mem_singleton_self _, fun k hk => ?_⟩, fun f hf => ⟨0, Nat.one_pos, ?_⟩⟩
  · have h0 : k = 0 := Nat.lt_one_iff.mp hk
    subst h0; omega
  · simpa [eq_comm] using hf

/-- Both queues full, a byte arrived, both requests asserted. -/
def brim : State := { withRx txFull 7 0 rxFull.rxBuf with pstat := 0b11#2, rxData := some 9 }

theorem brim_inv : Inv brim := by
  refine ⟨by decide, by decide, by decide, by decide, by decide, by decide, ⟨rfl, rfl⟩, by decide, by decide, ?_, fun _ => ?_⟩
  · intro h; exact absurd h (by decide)
  · refine ⟨by decide, by decide, by decide, ?_, ⟨0, rfl, by decide⟩, ⟨3, 0, ?_⟩, ⟨7, 0, ?_⟩, fun _ _ _ => by decide⟩
    · intro h; exact absurd h (by decide)
    · refine ⟨rfl, rfl, by decide, by decide, by decide, ?_, ?_, ?_⟩ <;> (intro h; exact absurd h (by decide))
    · refine ⟨rfl, rfl, by decide, by decide, by decide, ?_, ?_⟩ <;> (intro h; exact absurd h (by decide))

/-- `busy` inside its `RX_POP`: at RX.2, and at RX.3 with the tail at `tl`. -/
def popping (p : Phase) (tl : Index) : State := { busy with fgPhase := p, fgN := some 1, rxTail := some tl }

theorem popping_inv : Inv (popping .rx2 0) ∧ Inv (popping .rx3 1) := by
  constructor <;>
  · refine ⟨by decide, by decide, by decide, by decide, by decide, by decide, ?_, by decide, by decide, ?_, fun _ => ?_⟩
    · show currentInstr _ = some .rxPop
      decide
    · intro h; exact absurd h (by decide)
    · refine ⟨by decide, by decide, by decide, ?_, ⟨0, rfl, by decide⟩, ⟨1, 0, ?_⟩, ⟨_, _, rfl, rfl, by decide, by decide, by decide,
        by decide, by decide⟩, fun _ _ _ => by decide⟩
      · intro h; exact absurd h (by decide)
      · refine ⟨rfl, rfl, by decide, by decide, by decide, ?_, ?_, ?_⟩ <;> (intro h; exact absurd h (by decide))

/-- Each clause's hypotheses: pending bytes and a `RX_POP` from its first micro-step to its last in `busy` and `popping`, TX.3 in
`publishing`, empty queues in `four`, the empty handler in `four` armed, full queues in `brim`. -/
theorem witness_TestablePropertiesHold :
    (Inv busy ∧ busy.cfg.wf = true ∧ busy.fault = .noFault ∧ busy.inited = true ∧ busy.txe = true ∧ busy.rxne = true ∧
      busy.cfg.txMode = .interrupt ∧ txPending busy = [some 0x41] ∧ rxPending busy = [some 0x55]) ∧
    (Inv (popping .rx2 0) ∧ Inv (popping .rx3 1)) ∧
    (Inv publishing ∧ publishing.inited = true ∧ publishing.fgPhase = .tx3) ∧
    (Inv four ∧ four.fgPhase = .idle ∧ txPending four = [] ∧ rxPending four = []) ∧
    (Inv { four with ctrl := 0x1F#8 } ∧ { four with ctrl := 0x1F#8 }.txIrq = true ∧ txPending { four with ctrl := 0x1F#8 } = []) ∧
    (Inv brim ∧ brim.cfg.wf = true ∧ brim.fault = .noFault ∧ brim.inited = true ∧ brim.fgPhase = .idle ∧ brim.rxne = true ∧
      (txPending brim).length = brim.cfg.nTx - 1 ∧ (rxPending brim).length = brim.cfg.nRx - 1) :=
  ⟨⟨busy_inv [], by decide, rfl, by decide, by decide, by decide, rfl, by decide, by decide⟩, popping_inv,
    ⟨publishing_inv, by decide, rfl⟩, ⟨four_inv, rfl, by decide, by decide⟩,
    ⟨four_ctrl_inv _ (by decide), by decide, by decide⟩, brim_inv, by decide, rfl, by decide, rfl, by decide, by decide, by decide⟩

end Sys2Proof.Tests
end

/-! PROOFS. The statements of 00_scope.md: which steps a run may take (rule R6), the parameters that stay fixed (rule R7), the
successor functions (rule R14) and the pending counts (rule R15). -/

namespace Sys2Proof.Machine

open Sys2Proof

variable {s t : State}

/-! ### The step that is taken -/

theorem fault_of_enabled {e : Event} (he : enabled s e = true) : s.fault = .noFault := by
  simpa using (Bool.and_eq_true_iff.mp he).1

theorem ne_powerCycle_of_enabled {e : Event} (he : enabled s e = true) : e ≠ .powerCycle := by
  rintro rfl
  simp [enabled_not_power] at he

/-- The schedule names an enabled step: it is picked, and the schedule moves past it (log entry 6). -/
theorem agentStep_scheduled {e : Event} {rest : List Event} (he : enabled s e = true) (hs : s.sched = e :: rest) :
    agentStep s = takeEvent e { s with sched := rest } := by
  unfold agentStep
  rw [whileLive_live (fault_of_enabled he)]
  cases hc : choices s with
  | nil => simp [choices_nil.mp hc e] at he
  | cons first more =>
    have hpick : pick s first more = e := by simp [pick, hs, he]
    have hconsume : consume s more = { s with sched := rest } := by simp [consume, hs]
    simp only [hpick, hconsume]

theorem powerCycleNext_scheduled {e : Event} {rest : List Event} (hp : e ≠ .powerCycle) (hs : s.sched = e :: rest) :
    powerCycleNext s = false := by
  rw [Bool.eq_false_iff, ne_eq, powerCycleNext_iff]
  rintro ⟨rest', h⟩
  rw [hs] at h
  exact hp (List.cons.inj h).1

theorem step_of_launchOk (hl : LaunchOk s) : step s = launchedStep s := by
  simp only [step, launchRefusal_none.mpr hl]

theorem step_scheduled {e : Event} {rest : List Event} (hl : LaunchOk s) (he : enabled s e = true)
    (hs : s.sched = e :: rest) : step s = takeEvent e { s with sched := rest } := by
  rw [step_of_launchOk hl, launchedStep_agent (powerCycleNext_scheduled (ne_powerCycle_of_enabled he) hs),
    agentStep_scheduled he hs]

/-- Settles O9: a scheduled enabled step is the one picked, and what a step takes is either a power cycle or was picked among
the enabled ones. -/
theorem anyEnabledStepMayBeTaken : Obligations.AnyEnabledStepMayBeTaken := by
  unfold Obligations.AnyEnabledStepMayBeTaken
  refine ⟨fun s e rest hl he hs => step_scheduled hl he hs, fun s t h => ?_⟩
  obtain ⟨-, ⟨rest, hs, -⟩ | ⟨-, -, he⟩⟩ := step_next h
  · exact .inl ⟨rest, hs⟩
  · exact .inr he

/-! ### The fixed parameters and program -/

/-- An overrun writes `RXDATA` at most (44_peripheral_boundary.md rule R207). -/
theorem overrunArrival_eq (r : Bool) (b : Byte) (s : State) : ∃ d, overrunArrival r b s = { s with rxData := d } := by
  unfold overrunArrival
  cases s.cfg.overrun with
  | keepOld => exact ⟨_, rfl⟩
  | replace => exact ⟨_, rfl⟩
  | draw => cases r with
    | false => exact ⟨_, rfl⟩
    | true => exact ⟨_, rfl⟩

/-- An arrival writes `RXDATA` and `PSTAT` at most (44_peripheral_boundary.md rules R205 to R207). -/
theorem arrive_eq (r : Bool) (b : Byte) (s : State) : ∃ d p, arrive r b s = { s with rxData := d, pstat := p } := by
  unfold arrive
  split_ifs
  · exact ⟨_, _, rfl⟩
  · exact ⟨_, _, rfl⟩
  · obtain ⟨d, h⟩ := overrunArrival_eq r b s
    exact ⟨d, _, h⟩

theorem txDrain_keeps_cfg_prog (h : txDrain s = .ok t) : t.cfg = s.cfg ∧ t.prog = s.prog := by
  obtain ⟨-, -, -, -, ⟨-, rfl⟩ | ⟨-, -, -, -, -, rfl⟩⟩ := txDrain_ok.mp h
  · exact ⟨rfl, rfl⟩
  · exact ⟨rfl, rfl⟩

theorem rxFill_keeps_cfg_prog (h : rxFill s = .ok t) : t.cfg = s.cfg ∧ t.prog = s.prog := by
  obtain ⟨-, -, -, -, -, -, -, ⟨-, rfl⟩ | ⟨-, -, rfl⟩⟩ := rxFill_ok.mp h
  · exact ⟨rfl, rfl⟩
  · exact ⟨rfl, rfl⟩

theorem Took.keeps_cfg_prog {e : Event} (h : Took s e t) : t.cfg = s.cfg ∧ t.prog = s.prog := by
  cases h with
  | svcRxFill u _ _ _ _ _ hu => simpa using rxFill_keeps_cfg_prog hu
  | svcTxDrain u _ _ _ hu => simpa using txDrain_keeps_cfg_prog hu
  | txIsr u _ hu => exact txDrain_keeps_cfg_prog hu
  | rxIsr u _ hu => exact rxFill_keeps_cfg_prog hu
  | init k => simp [initStep_eq]
  | tx4 => simp [armTransmit_eq]
  | rxArrive r b rest =>
    obtain ⟨d, p, heq⟩ := arrive_eq r b { s with rxIn := rest }
    simp [heq]
  | raised | txFull | tx1 | tx2 | tx3 | rxEmpty | rx1 | rx2 | rx3 | svcRxNone | svcTxNone | txDone | powerCycle =>
    exact ⟨rfl, rfl⟩

/-- Settles O48: no effect an event can have writes either field, and moving the schedule on writes neither. -/
theorem parametersAndProgramAreFixed : Obligations.ParametersAndProgramAreFixed := by
  unfold Obligations.ParametersAndProgramAreFixed
  intro s t h
  obtain ⟨-, ⟨rest, -, rfl⟩ | ⟨-, -, e, sc, d, -, ht⟩⟩ := step_next h
  · exact ⟨rfl, rfl⟩
  · exact (took_of_takeEvent ht).keeps_cfg_prog

/-! ### The successor functions -/

theorem nextTx_eq_ite {c : Config} (h : c.wf = true) {i : Index} (hi : i.toNat < c.nTx) :
    (nextTx c i).toNat = if i.toNat + 1 = c.nTx then 0 else i.toNat + 1 := by
  rw [nextTx_toNat h hi, mod_succ_cases hi]

theorem nRx_eq_two_pow {c : Config} (h : c.wf = true) : ∃ k, c.nRx = 2 ^ k := by
  have hall : ∀ n ∈ rxSizes, n = 2 ^ Nat.log2 n := by decide
  exact ⟨_, hall _ (wf_sizes h).2.2.1⟩

/-- For a legal `N_RX` the mask is the remainder (00_scope.md rule R14). -/
theorem and_nRx_sub_one {c : Config} (h : c.wf = true) (m : Nat) : m &&& (c.nRx - 1) = m % c.nRx := by
  obtain ⟨k, hk⟩ := nRx_eq_two_pow h
  rw [hk, Nat.and_two_pow_sub_one_eq_mod]

section
variable {n : Nat} {next : Index → Index}

theorem nthNext_eq_iterate (k : Nat) (i : Index) : nthNext next k i = next^[k] i := by
  induction k generalizing i with
  | zero => rfl
  | succ k ih => rw [nthNext, ih, Function.iterate_succ_apply]

theorem Succ.iterate_toNat (S : Succ n next) {i : Index} (hi : i.toNat < n) (k : Nat) :
    (next^[k] i).toNat = (i.toNat + k) % n := by
  rw [← nthNext_eq_iterate, nthNext_toNat S hi]

/-- `k` successors come back to where they began exactly when `n` divides `k`. -/
theorem Succ.iterate_eq_self_iff (S : Succ n next) {i : Index} (hi : i.toNat < n) (k : Nat) :
    next^[k] i = i ↔ n ∣ k := by
  calc next^[k] i = i
      ↔ (i.toNat + k) % n = i.toNat := by rw [← BitVec.toNat_inj, S.iterate_toNat hi]
    _ ↔ i.toNat + k ≡ i.toNat + 0 [MOD n] := by rw [Nat.ModEq, Nat.add_zero, Nat.mod_eq_of_lt hi]
    _ ↔ k ≡ 0 [MOD n] := Nat.ModEq.add_iff_left rfl
    _ ↔ n ∣ k := Nat.modEq_zero_iff_dvd

/-- A full cycle of `n`, and no shorter one (20_memory.md rule R91). -/
theorem Succ.full_cycle (S : Succ n next) {i : Index} (hi : i.toNat < n) :
    next^[n] i = i ∧ ∀ k, 0 < k → k < n → next^[k] i ≠ i :=
  ⟨(S.iterate_eq_self_iff hi n).mpr dvd_rfl,
    fun k hk hkn hc => Nat.not_dvd_of_pos_of_lt hk hkn ((S.iterate_eq_self_iff hi k).mp hc)⟩

/-- The four facts of a queue's count, for whichever successor function the queue has. -/
theorem Succ.counts (S : Succ n next) {h t : Index} (hh : h.toNat < n) (ht : t.toNat < n) :
    (pendingCount n h t = 0 ↔ h = t) ∧ (pendingCount n h t = n - 1 ↔ next h = t) ∧
    (next h ≠ t → pendingCount n (next h) t = pendingCount n h t + 1) ∧
    (h ≠ t → pendingCount n h (next t) + 1 = pendingCount n h t) :=
  ⟨pendingCount_zero hh ht, (S.full_iff hh ht).symm, S.count_head hh ht, fun hne => (S.count_tail hh ht hne).symm⟩

end

/-- Settles O41: both functions are the successor modulo the size, whose `k`-th iterate adds `k`. -/
theorem successorsCycleThroughTheQueue : Obligations.SuccessorsCycleThroughTheQueue := by
  unfold Obligations.SuccessorsCycleThroughTheQueue
  intro c hc
  refine ⟨fun i hi => nextTx_eq_ite hc hi, fun i _ => ⟨?_, nextRx_toNat hc i⟩,
    fun i hi => (succ_tx hc).full_cycle hi, fun i hi => (succ_rx hc).full_cycle hi⟩
  rw [and_nRx_sub_one hc, nextRx_toNat hc]

/-- Settles O42: both queues count on a successor modulo their size. -/
theorem countsTellEmptyAndFull : Obligations.CountsTellEmptyAndFull := by
  unfold Obligations.CountsTellEmptyAndFull
  intro c hc
  exact ⟨fun h t hh ht => (succ_tx hc).counts hh ht, fun h t hh ht => (succ_rx hc).counts hh ht⟩

end Sys2Proof.Machine

/-! PROOFS. The statements of 10_state.md: the writers of the index registers (rule R33), the foreground sequencer (rule R35), the
enables (rules R37 to R41), the streams (rule R47), the enabling conditions (rules R35, R50), the power-up state (rule R52) and the state
after `INIT` (rule R53). -/

namespace Sys2Proof.Machine

open Sys2Proof

variable {s t : State} {e : Event}

/-! ### Frames of the shared operations -/

/-- `tx_drain()` writes `CTRL`, `TX_TAIL`, `TXDATA` and `PSTAT` at most (41_transmit.md rule R145). -/
theorem txDrain_frame (h : txDrain s = .ok t) :
    t = { s with ctrl := t.ctrl, txTail := t.txTail, txData := t.txData, pstat := t.pstat } := by
  obtain ⟨-, -, -, -, ⟨-, rfl⟩ | ⟨-, -, -, -, -, rfl⟩⟩ := txDrain_ok.mp h
  · rfl
  · rfl

/-- `rx_fill()` writes `RX_HEAD`, `RXBUF` and `PSTAT` at most (42_receive.md rule R161). -/
theorem rxFill_frame (h : rxFill s = .ok t) : t = { s with rxHead := t.rxHead, rxBuf := t.rxBuf, pstat := t.pstat } := by
  obtain ⟨-, -, -, -, -, -, -, ⟨-, rfl⟩ | ⟨-, -, rfl⟩⟩ := rxFill_ok.mp h
  · rfl
  · rfl

/-- `tx_drain()` writes `CTRL` on an empty queue only, and then clears `TXIE` (41_transmit.md rules R145, R147). -/
theorem txDrain_ctrl (h : txDrain s = .ok t) :
    t.ctrl = s.ctrl ∨ (s.txHead = s.txTail ∧ t.ctrl = clearBit s.ctrl 3) := by
  obtain ⟨hd, tl, hh, ht, ⟨rfl, rfl⟩ | ⟨-, -, -, -, -, rfl⟩⟩ := txDrain_ok.mp h
  · exact .inr ⟨hh.trans ht.symm, rfl⟩
  · exact .inl rfl

/-- `TX_DONE` (44_peripheral_boundary.md rule R204). -/
theorem perTxDone_next :
    perTxDone s = .next t ↔ s.fault = .noFault ∧ s.txe = false ∧
      ∃ b, s.txData = some b ∧ t = { s with lineOut := s.lineOut ++ [b], pstat := setBit s.pstat 0 } := by
  rw [perTxDone, whileLive_next]
  cases s.txe with
  | true => simp
  | false =>
    cases s.txData with
    | none => simp [commit, Eff.bind]
    | some b => simp [eq_comm]

/-- `RX_ARRIVE` (44_peripheral_boundary.md rule R205). -/
theorem perRxArrive_next {r : Bool} :
    perRxArrive r s = .next t ↔
      s.fault = .noFault ∧ ∃ b rest, s.rxIn = b :: rest ∧ t = arrive r b { s with rxIn := rest } := by
  rw [perRxArrive, whileLive_next]
  cases s.rxIn with
  | nil => simp
  | cons b rest => simp [eq_comm]

/-! ### The enabling conditions -/

theorem enabled_fg_iff : enabled s .fg = true ↔ s.fault = .noFault ∧ (s.fgPhase ≠ .idle ∨ s.fgPc < s.prog.length) := by
  simp [enabled, fgEnabled]

theorem enabled_txIsr_iff : enabled s .txIsr = true ↔ s.fault = .noFault ∧ s.txie = true ∧ s.txe = true := by
  simp [enabled, State.txIrq]

theorem enabled_rxIsr_iff : enabled s .rxIsr = true ↔ s.fault = .noFault ∧ s.rxie = true ∧ s.rxne = true := by
  simp [enabled, State.rxIrq]

theorem enabled_txDone_iff : enabled s .txDone = true ↔ s.fault = .noFault ∧ s.txe = false := by
  simp [enabled]

theorem enabled_rxArrive_iff {r : Bool} : enabled s (.rxArrive r) = true ↔ s.fault = .noFault ∧ s.rxIn ≠ [] := by
  simp [enabled]

/-- Settles O10: one condition an agent. -/
theorem enablingConditions : Obligations.EnablingConditions := by
  unfold Obligations.EnablingConditions
  exact fun s =>
    ⟨enabled_fg_iff, enabled_txIsr_iff, enabled_rxIsr_iff, enabled_txDone_iff, fun _ => enabled_rxArrive_iff⟩

/-! ### The foreground sequencer -/

/-- Between operations FG executes the operation of its word. -/
theorem fgStep_of_decode {w : CmdWord} {i : Instr} (hp : s.fgPhase = .idle) (hw : s.prog[s.fgPc]? = some w)
    (hd : decode w = some i) (hh : i.isHandler = false) : fgStep s = exec i s := by
  simp [fgStep, fgDecode, hp, hw, hd, hh]

theorem fgStep_inside (hp : s.fgPhase ≠ .idle) : fgStep s = fgContinue s := if_neg hp

theorem fgContinue_eq_txPush (hf : s.fault = .noFault) (hp : s.fgPhase ∈ [Phase.tx2, .tx3, .tx4]) (b : Byte) :
    fgContinue s = exec (.txPush b) s := by
  simp only [List.mem_cons, List.not_mem_nil, or_false] at hp
  rcases hp with hp | hp | hp <;> simp [fgContinue, exec, execTxPush, whileLive_live hf, hp]

theorem fgContinue_eq_rxPop (hf : s.fault = .noFault) (hp : s.fgPhase ∈ [Phase.rx2, .rx3]) :
    fgContinue s = exec .rxPop s := by
  simp only [List.mem_cons, List.not_mem_nil, or_false] at hp
  rcases hp with hp | hp <;> simp [fgContinue, exec, execRxPop, whileLive_live hf, hp]

theorem fgContinue_eq_service (hf : s.fault = .noFault) (hp : s.fgPhase = .svcTx) : fgContinue s = exec .service s := by
  simp [fgContinue, exec, execService, whileLive_live hf, hp]

/-- Settles O6: the word is inside the program, so FG is enabled, and its step decodes that word. -/
theorem stepRunsDecodedOperation : Obligations.StepRunsDecodedOperation := by
  unfold Obligations.StepRunsDecodedOperation
  intro s rest w i hl hf hs hp hw hd hh
  have he : enabled s .fg = true := enabled_fg_iff.mpr ⟨hf, .inr (List.getElem?_eq_some_iff.mp hw).1⟩
  calc step s = fgStep { s with sched := rest } := step_scheduled hl he hs
    _ = exec i { s with sched := rest } := fgStep_of_decode hp hw hd hh

/-- An FG step scheduled inside an operation goes on with it. -/
theorem step_inside {rest : List Event} (hl : LaunchOk s) (hf : s.fault = .noFault) (hs : s.sched = .fg :: rest)
    (hp : s.fgPhase ≠ .idle) : step s = fgContinue { s with sched := rest } := by
  calc step s = fgStep { s with sched := rest } := step_scheduled hl (enabled_fg_iff.mpr ⟨hf, .inl hp⟩) hs
    _ = fgContinue { s with sched := rest } := fgStep_inside hp

/-- Settles O7: each phase but idle belongs to one operation, whose `exec` does the same micro-step. -/
theorem stepContinuesOperationInProgress : Obligations.StepContinuesOperationInProgress := by
  unfold Obligations.StepContinuesOperationInProgress
  intro s rest hl hf hs
  refine ⟨fun hp b => ?_, fun hp => ?_, fun hp => ?_⟩
  · rw [step_inside hl hf hs (by intro h; simp [h] at hp)]
    exact fgContinue_eq_txPush (s := { s with sched := rest }) hf hp b
  · rw [step_inside hl hf hs (by intro h; simp [h] at hp)]
    exact fgContinue_eq_rxPop (s := { s with sched := rest }) hf hp
  · rw [step_inside hl hf hs (by simp [hp])]
    exact fgContinue_eq_service (s := { s with sched := rest }) hf hp

/-! ### Power-up -/

/-- Settles O13: the fields of `State.reset`. -/
theorem powerUpState : Obligations.PowerUpState := by
  unfold Obligations.PowerUpState
  exact ⟨rfl, rfl, rfl, rfl, rfl, rfl, rfl, rfl, rfl, rfl, rfl, rfl, fun _ => ⟨rfl, rfl⟩, rfl, rfl, rfl, rfl, rfl, rfl, rfl,
    rfl, rfl⟩

/-- At power-up `INITED` is 0 and both buffers are empty, so only the sequencer's and `PSTAT`'s clauses are left. -/
theorem powerUp_inv (cfg : Config) (prog : List CmdWord) (rxIn lineOut : List Byte) (respLog : List RespWord) (sched : List Event)
    (draws : Nat) : Inv (State.powerUp cfg prog rxIn lineOut respLog sched draws) where
  ctrlReserved := by simp [State.ctrlReserved, State.powerUp]
  txBufWf := .nil
  rxBufWf := .nil
  txBufIn := List.forall_mem_nil _
  rxBufIn := List.forall_mem_nil _
  fgPcLe := Nat.zero_le _
  inProgress := ⟨rfl, rfl⟩
  txData := fun h => absurd h (by simp [State.txe, State.powerUp])
  rxData := fun h => absurd h (by simp [State.rxne, State.powerUp])
  beforeInit := fun _ => rfl
  afterInit := fun h => absurd h (by simp [State.inited, State.powerUp])

/-- Settles O49: the reset state is one of the power-up states. -/
theorem powerUpMeetsInvariant : Obligations.PowerUpMeetsInvariant := by
  unfold Obligations.PowerUpMeetsInvariant
  exact ⟨powerUp_inv, powerUp_inv _ _ _ _ _ _ _⟩

/-! ### The bits of CTRL -/

theorem ctrlReserved_congr (h : ∀ j, 5 ≤ j → t.ctrl.getLsbD j = s.ctrl.getLsbD j) : t.ctrlReserved = s.ctrlReserved := by
  apply BitVec.eq_of_getLsbD_eq
  intro i hi
  simp [State.ctrlReserved, h (5 + i)]

section
variable (k : BitVec 4) (s : State)

/-- `CTRL` after `INIT`, bit by bit: `TX_EN`, `RX_EN`, `INITED` and, in interrupt mode, `RXIE` set, `TXIE` cleared (10_state.md
rule R53). -/
theorem initStep_getLsbD {j : Nat} (hj : j < 8) :
    (initStep k s).ctrl.getLsbD j =
      (decide (j = 0 ∨ j = 1 ∨ j = 4 ∨ j = 2 ∧ s.cfg.rxMode = .interrupt) || (s.ctrl.getLsbD j && decide (j ≠ 3))) := by
  rw [initStep_eq]
  cases s.cfg.rxMode with
  | interrupt => simp [hj]; grind
  | polled => simp [hj]; grind

@[simp] theorem initStep_txEn : (initStep k s).txEn = true :=
  (initStep_getLsbD k s (j := 0) (by decide)).trans (by simp)

@[simp] theorem initStep_rxEn : (initStep k s).rxEn = true :=
  (initStep_getLsbD k s (j := 1) (by decide)).trans (by simp)

@[simp] theorem initStep_rxie : (initStep k s).rxie = (decide (s.cfg.rxMode = .interrupt) || s.rxie) :=
  (initStep_getLsbD k s (j := 2) (by decide)).trans (by simp [State.rxie])

@[simp] theorem initStep_txie : (initStep k s).txie = false :=
  (initStep_getLsbD k s (j := 3) (by decide)).trans (by simp)

@[simp] theorem initStep_inited : (initStep k s).inited = true :=
  (initStep_getLsbD k s (j := 4) (by decide)).trans (by simp)

@[simp] theorem initStep_ctrlReserved : (initStep k s).ctrlReserved = s.ctrlReserved := by
  apply ctrlReserved_congr
  intro j hj
  by_cases h8 : j < 8
  · simp [initStep_getLsbD k s h8, show j ≠ 0 ∧ j ≠ 1 ∧ j ≠ 2 ∧ j ≠ 3 ∧ j ≠ 4 by omega]
  · rw [BitVec.getLsbD_of_ge _ j (by omega), BitVec.getLsbD_of_ge _ j (by omega)]

end

/-- `exec` of `INIT k` between operations, for a supported clock (40_line_controller.md rules R130, R132). -/
theorem exec_init {k : BitVec 4} (hf : s.fault = .noFault) (hp : s.fgPhase = .idle) (hk : k.toNat < s.cfg.nclk) :
    exec (.init k) s = .next (initStep k s) := by
  have hc : (clockIndex k).toNat < s.cfg.nclk := by
    rwa [clockIndex, BitVec.toNat_setWidth, Nat.mod_eq_of_lt (by omega)]
  simp [exec, execInit, hc, whileLive_live hf, hp]

/-- Settles O18: `INIT`'s one micro-step, its bits of `CTRL` and its frame. -/
theorem initResetsQueuesAndEnables : Obligations.InitResetsQueuesAndEnables := by
  unfold Obligations.InitResetsQueuesAndEnables
  intro k s hf hp hk hpolled
  have hrxie : (initStep k s).rxie = (s.cfg.rxMode == .interrupt) := by
    rw [initStep_rxie]
    cases hm : s.cfg.rxMode with
    | interrupt => rfl
    | polled => simp [hpolled hm]
  refine ⟨initStep k s, exec_init hf hp hk, initStep_txEn k s, initStep_rxEn k s, hrxie, initStep_txie k s,
    initStep_inited k s, initStep_ctrlReserved k s, ?_⟩
  simp [initStep_eq]

/-! ### The writers of CTRL -/

/-- The event is FG's, and FG is at an `INIT`. -/
def InitNext (s : State) (e : Event) : Prop := e = .fg ∧ s.fgPhase = .idle ∧ ∃ k, currentInstr s = some (.init k)

/-- Everything an event but a power cycle can do to `CTRL`: nothing, `INIT`, arming in TX.4, or disarming on an empty queue (10_state.md
rules R37 to R41). -/
theorem Took.ctrl_cases (h : Took s e t) (he : e ≠ .powerCycle) :
    t.ctrl = s.ctrl ∨
    (InitNext s e ∧ ∃ k, t = initStep k s) ∨
    ((e = .fg ∧ s.fgPhase = .tx4 ∧ s.cfg.txMode = .interrupt) ∧ t.ctrl = setBit s.ctrl 3) ∨
    ((s.txHead = s.txTail ∧ (e = .txIsr ∨ (e = .fg ∧ s.fgPhase = .svcTx ∧ s.cfg.txMode = .polled))) ∧
      t.ctrl = clearBit s.ctrl 3) := by
  cases h with
  | init k hp hc => exact .inr (.inl ⟨⟨rfl, hp, k, hc⟩, k, rfl⟩)
  | tx4 hp =>
    cases hm : s.cfg.txMode with
    | interrupt => exact .inr (.inr (.inl ⟨⟨rfl, hp, rfl⟩, by simp [armTransmit_eq, hm]⟩))
    | polled => exact .inl (by simp [armTransmit_eq, hm])
  | svcTxDrain u hp hm hx hu =>
    obtain hc | ⟨hq, hc⟩ := txDrain_ctrl hu
    · exact .inl hc
    · exact .inr (.inr (.inr ⟨⟨hq, .inr ⟨rfl, hp, hm⟩⟩, hc⟩))
  | txIsr u hq hu =>
    obtain hc | ⟨hq, hc⟩ := txDrain_ctrl hu
    · exact .inl hc
    · exact .inr (.inr (.inr ⟨⟨hq, .inl rfl⟩, hc⟩))
  | svcRxFill u _ _ _ _ _ hu => exact .inl (congrArg State.ctrl (rxFill_frame hu) :)
  | rxIsr u _ hu => exact .inl (congrArg State.ctrl (rxFill_frame hu) :)
  | rxArrive r b rest =>
    obtain ⟨d, p, heq⟩ := arrive_eq r b { s with rxIn := rest }
    exact .inl (congrArg State.ctrl heq :)
  | powerCycle => exact absurd rfl he
  | raised | txFull | tx1 | tx2 | tx3 | rxEmpty | rx1 | rx2 | rx3 | svcRxNone | svcTxNone | txDone => exact .inl rfl

/-- Where no bit but `TXIE` changes, the other enables and the reserved bits stay. -/
theorem enables_congr (h : ∀ j, j ≠ 3 → t.ctrl.getLsbD j = s.ctrl.getLsbD j) :
    t.txEn = s.txEn ∧ t.rxEn = s.rxEn ∧ t.rxie = s.rxie ∧ t.inited = s.inited ∧ t.ctrlReserved = s.ctrlReserved :=
  ⟨h 0 (by decide), h 1 (by decide), h 2 (by decide), h 4 (by decide), ctrlReserved_congr fun j hj => h j (by omega)⟩

/-- Settles O46: the four things an event can do to `CTRL`, each read bit by bit. -/
theorem enablesChangeOnlyByTheirWriters : Obligations.EnablesChangeOnlyByTheirWriters := by
  unfold Obligations.EnablesChangeOnlyByTheirWriters
  intro s t e he h byInit
  obtain hc | ⟨hb, k, rfl⟩ | ⟨hw, hc⟩ | ⟨hw, hc⟩ := (took_of_takeEvent h).ctrl_cases he
  · obtain ⟨h0, h1, h2, h4, hr⟩ := enables_congr (s := s) (t := t) fun j _ => by rw [hc]
    have h3 : t.txie = s.txie := by rw [State.txie, hc, State.txie]
    exact ⟨absurd h0, absurd h1, absurd h2, absurd h4, hr, fun hs ht => by simp [h3, hs] at ht,
      fun hs ht => by simp [h3, hs] at ht⟩
  · have hrxie : (initStep k s).rxie ≠ s.rxie → (initStep k s).rxie = true ∧ byInit ∧ s.cfg.rxMode = .interrupt := by
      cases hm : s.cfg.rxMode with
      | interrupt => exact fun _ => ⟨by simp [hm], hb, rfl⟩
      | polled => simp [hm]
    exact ⟨fun _ => ⟨initStep_txEn k s, hb⟩, fun _ => ⟨initStep_rxEn k s, hb⟩, hrxie, fun _ => ⟨initStep_inited k s, hb⟩,
      initStep_ctrlReserved k s, by simp, fun _ _ => .inl hb⟩
  · obtain ⟨h0, h1, h2, h4, hr⟩ := enables_congr (s := s) (t := t) fun j hj => by simp [hc, hj]
    have h3 : t.txie = true := by simp [State.txie, hc]
    exact ⟨absurd h0, absurd h1, absurd h2, absurd h4, hr, fun _ _ => hw, fun _ ht => by simp [h3] at ht⟩
  · obtain ⟨h0, h1, h2, h4, hr⟩ := enables_congr (s := s) (t := t) fun j hj => by simp [hc, hj]
    have h3 : t.txie = false := by simp [State.txie, hc]
    exact ⟨absurd h0, absurd h1, absurd h2, absurd h4, hr, fun _ ht => by simp [h3] at ht, fun _ _ => .inr hw⟩

/-! ### The writers of the index registers -/

/-- The four index registers (10_state.md rule R32). -/
@[ext] structure Indices where
  txHead : Option Index
  txTail : Option Index
  rxHead : Option Index
  rxTail : Option Index

def State.indices (s : State) : Indices := ⟨s.txHead, s.txTail, s.rxHead, s.rxTail⟩

/-- Everything an event but a power cycle can do to the index registers: nothing, `INIT`, or one register written in its context
(20_memory.md rule R77). -/
theorem Took.indices_cases (h : Took s e t) (he : e ≠ .powerCycle) :
    t.indices = s.indices ∨
    InitNext s e ∨
    ((e = .fg ∧ s.fgPhase = .tx3) ∧ t.indices = { s.indices with txHead := t.txHead }) ∨
    ((e = .fg ∧ s.fgPhase = .rx2) ∧ t.indices = { s.indices with rxTail := t.rxTail }) ∨
    (((s.txIrq = true ∧ e = .txIsr) ∨ (s.cfg.txMode = .polled ∧ e = .fg ∧ s.fgPhase = .svcTx)) ∧
      t.indices = { s.indices with txTail := t.txTail }) ∨
    (((s.rxIrq = true ∧ e = .rxIsr) ∨
        (s.cfg.rxMode = .polled ∧ e = .fg ∧ s.fgPhase = .idle ∧ currentInstr s = some .service)) ∧
      t.indices = { s.indices with rxHead := t.rxHead }) := by
  cases h with
  | init k hp hc => exact .inr (.inl ⟨rfl, hp, k, hc⟩)
  | tx3 n hp => exact .inr (.inr (.inl ⟨⟨rfl, hp⟩, rfl⟩))
  | rx2 n hp => exact .inr (.inr (.inr (.inl ⟨⟨rfl, hp⟩, rfl⟩)))
  | svcTxDrain u hp hm _ hu =>
    exact .inr (.inr (.inr (.inr (.inl ⟨.inr ⟨hm, rfl, hp⟩, (congrArg State.indices (txDrain_frame hu) :)⟩))))
  | txIsr u hq hu =>
    exact .inr (.inr (.inr (.inr (.inl ⟨.inl ⟨hq, rfl⟩, (congrArg State.indices (txDrain_frame hu) :)⟩))))
  | svcRxFill u hp hc _ hm _ hu =>
    exact .inr (.inr (.inr (.inr (.inr ⟨.inr ⟨hm, rfl, hp, hc⟩, (congrArg State.indices (rxFill_frame hu) :)⟩))))
  | rxIsr u hq hu =>
    exact .inr (.inr (.inr (.inr (.inr ⟨.inl ⟨hq, rfl⟩, (congrArg State.indices (rxFill_frame hu) :)⟩))))
  | tx4 => exact .inl (by rw [armTransmit_eq]; rfl)
  | rxArrive r b rest =>
    obtain ⟨d, p, heq⟩ := arrive_eq r b { s with rxIn := rest }
    exact .inl (congrArg State.indices heq :)
  | powerCycle => exact absurd rfl he
  | raised | txFull | tx1 | tx2 | rxEmpty | rx1 | rx3 | svcRxNone | svcTxNone | txDone => exact .inl rfl

/-- Settles O44: an event writes one index register at most outside `INIT`, and a handler's request is asserted in interrupt mode
only. -/
theorem eachIndexHasOneWriter : Obligations.EachIndexHasOneWriter := by
  unfold Obligations.EachIndexHasOneWriter
  intro s t e hi he h byInit
  obtain hx | hb | ⟨hw, hx⟩ | ⟨hw, hx⟩ | ⟨hw, hx⟩ | ⟨hw, hx⟩ := (took_of_takeEvent h).indices_cases he
  · obtain ⟨hth, htt, hrh, hrt⟩ := Indices.ext_iff.mp hx
    exact ⟨absurd hth, absurd hrt, absurd htt, absurd hrh⟩
  · exact ⟨fun _ => .inl hb, fun _ => .inl hb, fun _ => .inl hb, fun _ => .inl hb⟩
  · obtain ⟨-, htt, hrh, hrt⟩ := Indices.ext_iff.mp hx
    exact ⟨fun _ => .inr hw, absurd hrt, absurd htt, absurd hrh⟩
  · obtain ⟨hth, htt, hrh, -⟩ := Indices.ext_iff.mp hx
    exact ⟨absurd hth, fun _ => .inr hw, absurd htt, absurd hrh⟩
  · obtain ⟨hth, -, hrh, hrt⟩ := Indices.ext_iff.mp hx
    have hwriter := hw.imp_left fun ⟨hq, hev⟩ => And.intro (hi.txMode_of_txIrq hq) hev
    exact ⟨absurd hth, absurd hrt, fun _ => .inr hwriter, absurd hrh⟩
  · obtain ⟨hth, htt, -, hrt⟩ := Indices.ext_iff.mp hx
    have hwriter := hw.imp_left fun ⟨hq, hev⟩ => And.intro (hi.rxMode_of_rxIrq hq) hev
    exact ⟨absurd hth, absurd hrt, absurd htt, fun _ => .inr hwriter⟩

/-! ### The streams -/

/-- FG completed an operation and answered one word (30_encoding.md rule R108). -/
def Responded (s t : State) (e : Event) : Prop :=
  e = .fg ∧ t.fgPc = s.fgPc + 1 ∧ t.fgPhase = .idle ∧ ∃ w, t.respLog = s.respLog ++ [w]

/-- No event but PER's two moves `LINE_OUT` or `RX_IN`, and only a completed operation of FG answers (10_state.md rule R47). -/
theorem Took.streams (h : Took s e t) (hd : e ≠ .txDone) (hr : ∀ r, e ≠ .rxArrive r) :
    t.lineOut = s.lineOut ∧ t.rxIn = s.rxIn ∧ (t.respLog = s.respLog ∨ Responded s t e) := by
  cases h with
  | txFull | rxEmpty | rx3 => exact ⟨rfl, rfl, .inr ⟨rfl, rfl, rfl, _, rfl⟩⟩
  | tx4 =>
    rw [armTransmit_eq]
    exact ⟨rfl, rfl, .inr ⟨rfl, rfl, rfl, _, rfl⟩⟩
  | svcTxDrain u _ _ _ hu => rw [txDrain_frame hu]; exact ⟨rfl, rfl, .inl rfl⟩
  | txIsr u _ hu => rw [txDrain_frame hu]; exact ⟨rfl, rfl, .inl rfl⟩
  | svcRxFill u _ _ _ _ _ hu => rw [rxFill_frame hu]; exact ⟨rfl, rfl, .inl rfl⟩
  | rxIsr u _ hu => rw [rxFill_frame hu]; exact ⟨rfl, rfl, .inl rfl⟩
  | txDone => exact absurd rfl hd
  | rxArrive r => exact absurd rfl (hr r)
  | init => rw [initStep_eq]; exact ⟨rfl, rfl, .inl rfl⟩
  | raised | tx1 | tx2 | tx3 | rx1 | rx2 | svcRxNone | svcTxNone | powerCycle =>
    exact ⟨rfl, rfl, .inl rfl⟩

/-- Settles O47: PER's two steps each move their own stream, and every other event is one of FG, of IH or a power cycle. -/
theorem streamsMoveOnlyByTheirAgents : Obligations.StreamsMoveOnlyByTheirAgents := by
  unfold Obligations.StreamsMoveOnlyByTheirAgents
  intro s t e h
  by_cases hd : e = .txDone
  · subst hd
    obtain ⟨-, -, b, hb, rfl⟩ := perTxDone_next.mp h
    exact ⟨absurd rfl, fun _ => ⟨b, hb, rfl⟩, fun _ => rfl, nofun, .inl rfl⟩
  by_cases hr : ∃ r, e = .rxArrive r
  · obtain ⟨r, rfl⟩ := hr
    obtain ⟨-, b, rest, hb, rfl⟩ := perRxArrive_next.mp h
    obtain ⟨d, p, heq⟩ := arrive_eq r b { s with rxIn := rest }
    rw [heq]
    exact ⟨fun _ => rfl, nofun, fun hn => absurd rfl (hn r), fun _ _ => ⟨b, hb⟩, .inl rfl⟩
  · have hr' : ∀ r, e ≠ .rxArrive r := not_exists.mp hr
    obtain ⟨hout, hin, hresp⟩ := (took_of_takeEvent h).streams hd hr'
    exact ⟨fun _ => hout, fun he => absurd he hd, fun _ => hin, fun r he => absurd he (hr' r), hresp⟩

end Sys2Proof.Machine

/-! PROOFS. The statements of 20_memory.md: the buffer accesses and their faults (rule R71), and the writer of each buffer's cells (rules
R72, R80). -/

namespace Sys2Proof.Machine

open Sys2Proof

section
variable {m : Memory} {n : Nat} {i : Index} {v : Byte}

/-! ### The accesses and their faults -/

theorem memRead_indexRange (h : n ≤ i.toNat) : memRead m n i = .raises .indexRange := if_pos h

theorem memWrite_indexRange (h : n ≤ i.toNat) : memWrite m n i v = .raises .indexRange := if_pos h

theorem memRead_unwritten (hi : i.toNat < n) (h : m.read i.toNat = none) : memRead m n i = .raises .unwritten := by
  simp [memRead, hi.not_ge, h]

/-- The one cell whose reading a write may change is the cell written. -/
theorem Memory.eq_of_read_write_ne (hm : m.wf) {a j : Nat} (h : (m.write j v).read a ≠ m.read a) : a = j :=
  by_contra fun hne => h (Memory.read_write_other m hm hne v)

end

/-- Settles O40: the two faults are the accesses' guards, and a write in range is `Memory.write`, whose laws give the rest. -/
theorem bufferAccessAndItsFaults : Obligations.BufferAccessAndItsFaults := by
  unfold Obligations.BufferAccessAndItsFaults
  intro m n i v hm
  refine ⟨fun h => ⟨memRead_indexRange h, memWrite_indexRange h⟩, memRead_unwritten, fun hi hv => memRead_ok.mpr ⟨hi, hv⟩,
    fun hi => ⟨m.write i.toNat v, memWrite_ok.mpr ⟨hi, rfl⟩, Memory.wf_write m hm _ v, ?_, ?_⟩⟩
  · exact memRead_ok.mpr ⟨hi, Memory.read_write_same m hm _ v⟩
  · exact fun a ha => Memory.read_write_other m hm ha v

/-! ### The writers of the buffers -/

variable {s t : State} {e : Event}

/-- `rx_fill()` changes the cell `next_rx(RX_HEAD)` of `RXBUF` at most: it stores the byte there or drops it (42_receive.md rule R161). -/
theorem rxFill_rxBuf (hm : s.rxBuf.wf) (h : rxFill s = .ok t) :
    ∃ hd, s.rxHead = some hd ∧ ∀ a, t.rxBuf.read a ≠ s.rxBuf.read a → a = (nextRx s.cfg hd).toNat := by
  obtain ⟨-, b, hd, tl, -, hh, -, ⟨-, rfl⟩ | ⟨-, -, rfl⟩⟩ := rxFill_ok.mp h
  · exact ⟨hd, hh, fun a ha => absurd rfl ha⟩
  · exact ⟨hd, hh, fun a ha => Memory.eq_of_read_write_ne hm ha⟩

/-- Everything an event but a power cycle can do to the buffers: nothing, TX.2's write to `TXBUF`, or `rx_fill()`'s to `RXBUF` in the one
of its two contexts that runs it (20_memory.md rule R72). -/
theorem Took.buffers_cases (h : Took s e t) (he : e ≠ .powerCycle) :
    (t.txBuf = s.txBuf ∧ t.rxBuf = s.rxBuf) ∨
    ((e = .fg ∧ s.fgPhase = .tx2) ∧ (∃ n b, s.fgN = some n ∧ t.txBuf = s.txBuf.write n.toNat b) ∧ t.rxBuf = s.rxBuf) ∨
    (((s.rxIrq = true ∧ e = .rxIsr) ∨
        (s.cfg.rxMode = .polled ∧ e = .fg ∧ s.fgPhase = .idle ∧ currentInstr s = some .service)) ∧
      t.txBuf = s.txBuf ∧ ∃ u, rxFill s = .ok u ∧ t.rxBuf = u.rxBuf) := by
  cases h with
  | tx2 n b hp hn => exact .inr (.inl ⟨⟨rfl, hp⟩, ⟨n, b, hn, rfl⟩, rfl⟩)
  | svcRxFill u hp hc _ hm _ hu =>
    exact .inr (.inr ⟨.inr ⟨hm, rfl, hp, hc⟩, (congrArg State.txBuf (rxFill_frame hu) :), _, hu, rfl⟩)
  | rxIsr u hq hu => exact .inr (.inr ⟨.inl ⟨hq, rfl⟩, (congrArg State.txBuf (rxFill_frame hu) :), _, hu, rfl⟩)
  | svcTxDrain u _ _ _ hu => exact .inl (by rw [txDrain_frame hu]; exact ⟨rfl, rfl⟩)
  | txIsr u _ hu => exact .inl (by rw [txDrain_frame hu]; exact ⟨rfl, rfl⟩)
  | init => exact .inl (by rw [initStep_eq]; exact ⟨rfl, rfl⟩)
  | tx4 => exact .inl (by rw [armTransmit_eq]; exact ⟨rfl, rfl⟩)
  | rxArrive r b rest =>
    obtain ⟨d, p, heq⟩ := arrive_eq r b { s with rxIn := rest }
    exact .inl (by rw [heq]; exact ⟨rfl, rfl⟩)
  | powerCycle => exact absurd rfl he
  | raised | txFull | tx1 | tx3 | rxEmpty | rx1 | rx2 | rx3 | svcRxNone | svcTxNone | txDone => exact .inl ⟨rfl, rfl⟩

/-- Settles O45: an event writes one buffer at most and one cell of it, and `RX_ISR`'s request is asserted in interrupt mode only. -/
theorem eachBufferHasOneWriter : Obligations.EachBufferHasOneWriter := by
  unfold Obligations.EachBufferHasOneWriter
  intro s t e hi he h
  obtain ⟨htx, hrx⟩ | ⟨⟨hev, hp⟩, ⟨n, b, hn, htx⟩, hrx⟩ | ⟨hw, htx, u, hu, hrx⟩ := (took_of_takeEvent h).buffers_cases he
  · rw [htx, hrx]
    exact ⟨fun _ => absurd rfl, fun _ => absurd rfl⟩
  · rw [htx, hrx]
    exact ⟨fun a ha => ⟨hev, hp, n, hn, Memory.eq_of_read_write_ne hi.txBufWf ha⟩, fun _ => absurd rfl⟩
  · rw [htx, hrx]
    obtain ⟨hd, hh, hcell⟩ := rxFill_rxBuf hi.rxBufWf hu
    have hwriter := hw.imp_left fun ⟨hq, hev⟩ => And.intro (hi.rxMode_of_rxIrq hq) hev
    exact ⟨fun _ => absurd rfl, fun a ha => ⟨hwriter, hd, hh, hcell a ha⟩⟩

end Sys2Proof.Machine

/-! PROOFS. The statements of 30_encoding.md: the decoder and the encoder (rules R100 to R105), the opcode table (R102), the illegal words
(R103, R104), the supported clocks (R106), the response word (R107) and source programs (R111). -/

namespace Sys2Proof

variable {w : CmdWord} {i : Instr}

/-! ### The three fields of a word -/

section
variable (o a : BitVec 4) (d : Byte)

theorem opcOf_append : opcOf (o ++ a ++ d) = o :=
  (BitVec.extractLsb'_append_eq_of_le (by decide)).trans BitVec.extractLsb'_append_eq_left

theorem argOf_append : argOf (o ++ a ++ d) = a :=
  (BitVec.extractLsb'_append_eq_of_le (by decide)).trans BitVec.extractLsb'_append_eq_right

theorem dataOf_append : dataOf (o ++ a ++ d) = d := BitVec.extractLsb'_append_eq_right

end

/-- A word is its `OPC`, its `ARG` and its `DATA` (30_encoding.md rule R100). -/
theorem fields_append (w : CmdWord) : opcOf w ++ argOf w ++ dataOf w = w := by
  calc opcOf w ++ argOf w ++ dataOf w
      = w.extractLsb' 8 8 ++ w.extractLsb' 0 8 :=
        congrArg (· ++ dataOf w) (BitVec.extractLsb'_append_extractLsb'_eq_extractLsb' rfl)
    _ = w.extractLsb' 0 16 := BitVec.extractLsb'_append_extractLsb'_eq_extractLsb' rfl
    _ = w := BitVec.extractLsb'_eq_self

/-- The bits that an instruction's encoding has in the field `OPC` (30_encoding.md rule R102). -/
def Instr.opc : Instr → BitVec 4
  | .init _ => 0x1#4
  | .txPush _ => 0x2#4
  | .rxPop => 0x3#4
  | .service => 0x4#4
  | .txIsr => 0x8#4
  | .rxIsr => 0x9#4

/-- The bits that an instruction's encoding has in the field `ARG`: the operand of `INIT`, else 0 (30_encoding.md rules R101, R103). -/
def Instr.arg : Instr → BitVec 4
  | .init k => k
  | .txPush _ | .rxPop | .service | .txIsr | .rxIsr => 0x0#4

/-- The bits that an instruction's encoding has in the field `DATA`: the operand of `TX_PUSH`, else 0 (30_encoding.md rules R101,
R103). -/
def Instr.data : Instr → Byte
  | .txPush b => b
  | .init _ | .rxPop | .service | .txIsr | .rxIsr => 0x00#8

theorem encode_eq_append (i : Instr) : encode i = i.opc ++ i.arg ++ i.data := by
  cases i <;> rfl

@[simp] theorem opcOf_encode (i : Instr) : opcOf (encode i) = i.opc := by
  rw [encode_eq_append, opcOf_append]

@[simp] theorem argOf_encode (i : Instr) : argOf (encode i) = i.arg := by
  rw [encode_eq_append, argOf_append]

@[simp] theorem dataOf_encode (i : Instr) : dataOf (encode i) = i.data := by
  rw [encode_eq_append, dataOf_append]

/-- A word with an instruction's three fields is its encoding. -/
theorem encode_eq_of_fields (ho : opcOf w = i.opc) (ha : argOf w = i.arg) (hd : dataOf w = i.data) : encode i = w := by
  rw [encode_eq_append, ← ho, ← ha, ← hd, fields_append]

/-! ### The decoder inverts the encoder -/

theorem decode_eq_some_iff_decodeWord : decode w = some i ↔ decodeWord w = .ok i := by
  unfold decode
  cases decodeWord w <;> simp

theorem decodeWord_encode (i : Instr) : decodeWord (encode i) = .ok i := by
  cases i <;> simp [decodeWord, Instr.opc, Instr.arg, Instr.data]

/-- The decoder accepts a word for the fields of the instruction it answers. -/
theorem encode_of_decodeWord (h : decodeWord w = .ok i) : encode i = w := by
  unfold decodeWord at h
  split_ifs at h with ho hd ho ha ho hz ho hz ho hz ho hz <;> cases h
  · exact encode_eq_of_fields ho rfl hd
  · exact encode_eq_of_fields ho ha rfl
  · exact hz.elim (encode_eq_of_fields ho)
  · exact hz.elim (encode_eq_of_fields ho)
  · exact hz.elim (encode_eq_of_fields ho)
  · exact hz.elim (encode_eq_of_fields ho)

/-- Decoding an encoding gives the instruction back, and a word that decodes has the three fields of the encoding. -/
theorem decode_eq_some_iff : decode w = some i ↔ encode i = w := by
  rw [decode_eq_some_iff_decodeWord]
  constructor
  · exact encode_of_decodeWord
  · rintro rfl
    exact decodeWord_encode i

theorem decode_encode (i : Instr) : decode (encode i) = some i := decode_eq_some_iff.mpr rfl

/-- Settles O2: `decode_eq_some_iff`. -/
theorem decodeInvertsEncode : Obligations.DecodeInvertsEncode := by
  unfold Obligations.DecodeInvertsEncode
  exact fun w i => decode_eq_some_iff

/-- Settles O1: each word written out is its instruction's encoding. -/
theorem writtenOutWordsDecode : Obligations.WrittenOutWordsDecode := by
  unfold Obligations.WrittenOutWordsDecode
  exact ⟨decode_encode (.init 15#4), decode_encode (.txPush 0x41#8), decode_encode .rxPop, decode_encode .service,
    decode_encode .txIsr, decode_encode .rxIsr⟩

/-! ### The opcode table -/

/-- The per-instruction laws, for every instruction. -/
theorem encodesRow (i : Instr) : Laws.EncodesRow.Statement i := by
  cases i with
  | init k => exact Laws.EncodesRow.init k
  | txPush b => exact Laws.EncodesRow.txPush b
  | rxPop => exact Laws.EncodesRow.rxPop
  | service => exact Laws.EncodesRow.service
  | txIsr => exact Laws.EncodesRow.txIsr
  | rxIsr => exact Laws.EncodesRow.rxIsr

theorem Instr.row_mem_opcodeTable (i : Instr) : i.row ∈ opcodeTable := by
  cases i <;> simp [Instr.row, opcodeTable]

/-- A field that a mask keeps whole is the pattern's in every word that matches. -/
theorem extractLsb'_of_and_eq {m p : CmdWord} {start len : Nat} (h : w &&& m = p)
    (hm : m.extractLsb' start len = BitVec.allOnes len) : w.extractLsb' start len = p.extractLsb' start len := by
  rw [← h, BitVec.extractLsb'_and, hm, BitVec.and_allOnes]

/-- A row of the table covers the encodings of its instructions and no other word. -/
theorem Row.covers_iff_encode {r : Row} (hr : r ∈ opcodeTable) : r.covers w = true ↔ ∃ i : Instr, i.row = r ∧ encode i = w := by
  constructor
  · intro h
    have hw : w &&& r.mask = r.pattern := beq_iff_eq.mp h
    simp only [opcodeTable, List.mem_cons, List.not_mem_nil, or_false] at hr
    rcases hr with rfl | rfl | rfl | rfl | rfl | rfl
    · exact ⟨.init (argOf w), rfl,
        encode_eq_of_fields (extractLsb'_of_and_eq hw (by decide)) rfl (extractLsb'_of_and_eq hw (by decide))⟩
    · exact ⟨.txPush (dataOf w), rfl,
        encode_eq_of_fields (extractLsb'_of_and_eq hw (by decide)) (extractLsb'_of_and_eq hw (by decide)) rfl⟩
    · exact ⟨.rxPop, rfl, hw.symm.trans BitVec.and_allOnes⟩
    · exact ⟨.service, rfl, hw.symm.trans BitVec.and_allOnes⟩
    · exact ⟨.txIsr, rfl, hw.symm.trans BitVec.and_allOnes⟩
    · exact ⟨.rxIsr, rfl, hw.symm.trans BitVec.and_allOnes⟩
  · rintro ⟨i, rfl, rfl⟩
    exact (encodesRow i).1

/-- Settles O3: by `Row.covers_iff_encode` a covered word is one instruction's encoding, that of the instruction it decodes to. -/
theorem opcodeTableIsUnambiguous : Obligations.OpcodeTableIsUnambiguous := by
  unfold Obligations.OpcodeTableIsUnambiguous
  refine ⟨fun w r₁ hr₁ r₂ hr₂ h₁ h₂ => ?_, fun w => ?_, fun w i hd => ?_⟩
  · obtain ⟨i₁, rfl, he₁⟩ := (Row.covers_iff_encode hr₁).mp h₁
    obtain ⟨i₂, rfl, he₂⟩ := (Row.covers_iff_encode hr₂).mp h₂
    have hi : some i₁ = some i₂ := (decode_eq_some_iff.mpr he₁).symm.trans (decode_eq_some_iff.mpr he₂)
    rw [Option.some.inj hi]
  · rw [Option.isSome_iff_exists]
    constructor
    · rintro ⟨r, hr, hw⟩
      obtain ⟨i, -, hi⟩ := (Row.covers_iff_encode hr).mp hw
      exact ⟨i, decode_eq_some_iff.mpr hi⟩
    · rintro ⟨i, hd⟩
      have hi := decode_eq_some_iff.mp hd
      exact ⟨i.row, i.row_mem_opcodeTable, (Row.covers_iff_encode i.row_mem_opcodeTable).mpr ⟨i, rfl, hi⟩⟩
  · obtain rfl := decode_eq_some_iff.mp hd
    obtain ⟨hcovers, hname, -⟩ := encodesRow i
    exact ⟨i.row_mem_opcodeTable, hname, hcovers⟩

/-! ### Illegal words -/

/-- No encoding has a reserved `OPC` or a reserved field that is not zero (30_encoding.md rules R102 to R104). -/
theorem not_illegalWord_encode (i : Instr) : ¬ illegalWord (encode i) := by
  cases i <;> simp [illegalWord, Instr.opc, Instr.arg, Instr.data]

theorem decode_of_illegalWord (h : illegalWord w) : decode w = none := by
  rw [Option.eq_none_iff_forall_ne_some]
  rintro i hd
  obtain rfl := decode_eq_some_iff.mp hd
  exact not_illegalWord_encode i h

end Sys2Proof

namespace Sys2Proof.Machine

open Sys2Proof

variable {s : State}

/-- FG's step at a word that encodes no operation raises `ILLEGAL_OP` (60_exceptions.md rule R223). -/
theorem fgStep_of_decode_none {w : CmdWord} (hp : s.fgPhase = .idle) (hw : s.prog[s.fgPc]? = some w) (hd : decode w = none) :
    fgStep s = .next { s with fault := .illegalOp } := by
  simp [fgStep, fgDecode, hp, hw, hd, raiseFault]

/-- Settles O4: FG is enabled at the word, and its step finds no operation there. -/
theorem reservedWordsRaiseIllegalOp : Obligations.ReservedWordsRaiseIllegalOp := by
  unfold Obligations.ReservedWordsRaiseIllegalOp
  intro s rest w hl hf hs hp hw hill
  have he : enabled s .fg = true := enabled_fg_iff.mpr ⟨hf, .inr (List.getElem?_eq_some_iff.mp hw).1⟩
  calc step s = fgStep { s with sched := rest } := step_scheduled hl he hs
    _ = .next { s with sched := rest, fault := .illegalOp } := fgStep_of_decode_none hp hw (decode_of_illegalWord hill)

/-! ### The supported clocks -/

theorem toNat_clockIndex (k : BitVec 4) : (clockIndex k).toNat = k.toNat := BitVec.toNat_setWidth_of_le (by decide)

/-- Settles O12: the operand's own check fails. -/
theorem initOfUnsupportedClockRefused : Obligations.InitOfUnsupportedClockRefused := by
  unfold Obligations.InitOfUnsupportedClockRefused
  intro k s hk
  rw [← toNat_clockIndex] at hk
  exact if_neg hk.not_gt

/-! ### The response word -/

/-- Bits 15:9 of a response are zero (30_encoding.md rule R107). -/
theorem respWord_reserved (f : Bool) (b : Byte) : (respWord f b).extractLsb' 9 7 = 0#7 :=
  (BitVec.extractLsb'_append_eq_of_le (by decide)).trans BitVec.extractLsb'_append_eq_left

theorem respWord_true (b : Byte) : respWord true b = 0x0100#16 ||| b.zeroExtend 16 := by
  revert b; decide

/-- Settles O43: the three fields one by one, and the two fixed words. -/
theorem responseWordFields : Obligations.ResponseWordFields := by
  unfold Obligations.ResponseWordFields
  exact fun f b => ⟨respFlag_respWord f b, respData_respWord f b, respWord_reserved f b, rfl, rfl, respWord_true b⟩

end Sys2Proof.Machine

namespace Sys2Proof

/-! ### Source programs -/

variable {c : Config}

/-- An accepted program's words are its lines' words, a word a line (30_encoding.md rule R111). -/
theorem expandProgram_eq_ok {lines : List SourceLine} {ws : List CmdWord} (h : expandProgram c lines = .ok ws) :
    ws.length = lines.length ∧ ∀ (j : Nat) (l : SourceLine), lines[j]? = some l → ∃ w, ws[j]? = some w ∧ l.expand c = .ok w := by
  induction lines generalizing ws with
  | nil => cases h; exact ⟨rfl, nofun⟩
  | cons l ls ih =>
    obtain ⟨r, -, hr⟩ | ⟨w, r, -, -, hr⟩ | ⟨w, ws', hw, hws, hok⟩ := expandProgram_cons (c := c) l ls
    · simp [hr] at h
    · simp [hr] at h
    · obtain rfl : w :: ws' = ws := by simpa [hok] using h
      obtain ⟨hlen, hwords⟩ := ih hws
      refine ⟨congrArg (· + 1) hlen, fun j l' hl' => ?_⟩
      cases j with
      | zero => cases hl'; exact ⟨w, rfl, hw⟩
      | succ j => exact hwords j l' hl'

/-- A refused program has a line that is refused. -/
theorem expandProgram_eq_error {lines : List SourceLine} {r : Machine.Refusal} (h : expandProgram c lines = .error r) :
    ∃ l ∈ lines, l.expand c = .error r := by
  induction lines with
  | nil => cases h
  | cons l ls ih =>
    obtain ⟨r', hl, hr⟩ | ⟨w, r', -, hls, hr⟩ | ⟨w, ws, -, -, hok⟩ := expandProgram_cons (c := c) l ls
    · obtain rfl : r' = r := by simpa [hr] using h
      exact ⟨l, List.mem_cons_self, hl⟩
    · obtain rfl : r' = r := by simpa [hr] using h
      obtain ⟨l', hmem, hl'⟩ := ih hls
      exact ⟨l', List.mem_cons_of_mem l hmem, hl'⟩
    · simp [hok] at h

/-- What the one word of a line that has one is (30_encoding.md rule R111). -/
theorem SourceLine.expand_eq_ok {l : SourceLine} {w : CmdWord} (h : l.expand c = .ok w) :
    (∀ v, l = .word v → w = v) ∧
    (∀ f, l = .call (.initializeAt f) → ∃ k, k < c.nclk ∧ Config.clockSet k = f ∧ w = encode (.init (BitVec.ofNat 4 k))) ∧
    (∀ b, l = .call (.transmit b) → w = encode (.txPush b)) ∧
    (l = .call .receive → w = 0x3000#16) ∧
    (l = .call .service → w = 0x4000#16) := by
  cases l with
  | word v => cases h; exact ⟨fun _ hl => SourceLine.word.inj hl, nofun, nofun, nofun, nofun⟩
  | call a =>
    cases a with
    | initializeAt f =>
      refine ⟨nofun, fun g hl => ?_, nofun, nofun, nofun⟩
      cases hl
      by_cases hk : ∃ k, k < c.nclk ∧ Config.clockSet k = f
      · obtain ⟨k, hlt, hf, he⟩ := (expand_initializeAt f).1 hk
        simp only [SourceLine.expand, he] at h
        exact ⟨k, hlt, hf, (Except.ok.inj h).symm⟩
      · simp [SourceLine.expand, (expand_initializeAt f).2 (by simpa using hk)] at h
    | transmit b => cases h; exact ⟨nofun, nofun, fun _ hl => by cases hl; rfl, nofun, nofun⟩
    | receive => cases h; exact ⟨nofun, nofun, nofun, fun _ => rfl, nofun⟩
    | service => cases h; exact ⟨nofun, nofun, nofun, nofun, fun _ => rfl⟩

/-- Settles O59: a refusal is some line's, so it is `REF_CLOCK`, for a frequency that no index holds; accepted lines correspond
to the words one to one. -/
theorem sourceProgramsExpandOrAreRefused : Obligations.SourceProgramsExpandOrAreRefused := by
  unfold Obligations.SourceProgramsExpandOrAreRefused
  intro s lines
  cases he : expandProgram s.cfg lines with
  | error r =>
    obtain ⟨l, hmem, hl⟩ := expandProgram_eq_error he
    obtain ⟨rfl, f, rfl⟩ := SourceLine.expand_error hl
    refine ⟨fun _ => by simp [Machine.loadProgram, he], fun hall => ?_⟩
    obtain ⟨k, -, -, hk⟩ := (expand_initializeAt f).1 (hall f hmem)
    simp [SourceLine.expand, hk] at hl
  | ok ws =>
    obtain ⟨hlen, hwords⟩ := expandProgram_eq_ok he
    refine ⟨fun ⟨f, hmem, hno⟩ => ?_, fun _ => ⟨ws, by simp [Machine.loadProgram, he], hlen, fun j l hj => ?_⟩⟩
    · obtain ⟨j, hj⟩ := List.mem_iff_getElem?.mp hmem
      obtain ⟨w, -, hw⟩ := hwords j _ hj
      simp [SourceLine.expand, (expand_initializeAt f).2 hno] at hw
    · obtain ⟨w, hw, hl⟩ := hwords j l hj
      exact ⟨w, hw, SourceLine.expand_eq_ok hl⟩

end Sys2Proof

/-! PROOFS. The statements of 41_transmit.md: `TX_PUSH` (rules R141 to R144), the transmit handler (rules R145 to R148), the order of the
bytes (rule R149) and no lost wakeup (rule R152). -/

namespace Sys2Proof.Machine

open Sys2Proof

variable {s t : State} {e : Event} {b : Byte} {h tl n : Index}

/-! ### The micro-steps of TX_PUSH -/

/-- TX.1 on a full queue (41_transmit.md rule R143). -/
theorem exec_txPush_full (hf : s.fault = .noFault) (hp : s.fgPhase = .idle) (hi : s.inited = true) (hh : s.txHead = some h)
    (ht : s.txTail = some (nextTx s.cfg h)) :
    exec (.txPush b) s = .next (fgDone (respond (respWord false 0x00#8) s)) := by
  have hok : txPush1 b s = .ok (fgDone (respond (respWord false 0x00#8) s)) :=
    txPush1_ok.mpr ⟨hi, h, nextTx s.cfg h, hh, ht, .inl ⟨rfl, rfl⟩⟩
  simp [exec, execTxPush, whileLive_live hf, hp, hok]

/-- TX.1 with room (41_transmit.md rule R141). -/
theorem exec_txPush_room (hf : s.fault = .noFault) (hp : s.fgPhase = .idle) (hi : s.inited = true) (hh : s.txHead = some h)
    (ht : s.txTail = some tl) (hne : nextTx s.cfg h ≠ tl) :
    exec (.txPush b) s = .next { s with fgPhase := .tx2, fgN := some (nextTx s.cfg h), fgB := some b } := by
  have hok : txPush1 b s = .ok (fgGoto .tx2 { s with fgN := some (nextTx s.cfg h), fgB := some b }) :=
    txPush1_ok.mpr ⟨hi, h, tl, hh, ht, .inr ⟨hne, rfl⟩⟩
  simp [exec, execTxPush, whileLive_live hf, hp, hok, fgGoto]

/-- TX.2 (41_transmit.md rule R141). -/
theorem exec_txPush_store {c : Byte} (hf : s.fault = .noFault) (hp : s.fgPhase = .tx2) (hn : s.fgN = some n) (hb : s.fgB = some c)
    (hlt : n.toNat < s.cfg.nTx) :
    exec (.txPush b) s = .next { s with fgPhase := .tx3, txBuf := s.txBuf.write n.toNat c } := by
  have hok : txPush2 s = .ok (fgGoto .tx3 { s with txBuf := s.txBuf.write n.toNat c }) :=
    txPush2_ok.mpr ⟨n, c, hn, hb, hlt, rfl⟩
  simp [exec, execTxPush, whileLive_live hf, hp, hok, fgGoto]

/-- TX.3 (41_transmit.md rule R141). -/
theorem exec_txPush_publish (hf : s.fault = .noFault) (hp : s.fgPhase = .tx3) (hn : s.fgN = some n) :
    exec (.txPush b) s = .next { s with fgPhase := .tx4, txHead := some n } := by
  have hok : txPush3 s = .ok (fgGoto .tx4 { s with txHead := some n }) := txPush3_ok.mpr ⟨n, hn, rfl⟩
  simp [exec, execTxPush, whileLive_live hf, hp, hok, fgGoto]

/-- TX.4 (41_transmit.md rule R141). -/
theorem exec_txPush_arm (hf : s.fault = .noFault) (hp : s.fgPhase = .tx4) :
    exec (.txPush b) s = .next (fgDone (respond (respWord true 0x00#8) (armTransmit s))) := by
  simp [exec, execTxPush, whileLive_live hf, hp, txPush4]

/-- Arming sets `TXIE` in interrupt mode (41_transmit.md rule R144). -/
@[simp] theorem armTransmit_txie (s : State) : (armTransmit s).txie = (s.txie || s.cfg.txMode == .interrupt) := by
  rw [armTransmit_eq]
  cases s.cfg.txMode with
  | interrupt => simp [State.txie]
  | polled => simp [State.txie]

/-- Arming changes no bit of `CTRL` but `TXIE` (41_transmit.md rule R144). -/
theorem armTransmit_getLsbD (s : State) {j : Nat} (hj : j ≠ 3) : (armTransmit s).ctrl.getLsbD j = s.ctrl.getLsbD j := by
  rw [armTransmit_eq]
  cases s.cfg.txMode with
  | interrupt => simp [hj]
  | polled => rfl

/-- TX.4 with its frame: `TXIE` set in interrupt mode, 0x0100 returned, the operation ended (41_transmit.md rules R141, R144). -/
theorem exec_txPush_arm_frame (hf : s.fault = .noFault) (hp : s.fgPhase = .tx4) :
    ∃ t, exec (.txPush b) s = .next t ∧
      t.txie = (s.txie || s.cfg.txMode == .interrupt) ∧ (∀ j, j ≠ 3 → t.ctrl.getLsbD j = s.ctrl.getLsbD j) ∧
      t = { s with
        ctrl := t.ctrl, respLog := s.respLog ++ [0x0100#16], fgPhase := .idle, fgPc := s.fgPc + 1, fgN := none, fgB := none } :=
  ⟨_, exec_txPush_arm hf hp, armTransmit_txie s, fun _ => armTransmit_getLsbD s, by rw [armTransmit_eq]; rfl⟩

/-- Settles O20: `N_TX − 1` pending is what TX.1 finds full. -/
theorem txPushOnFullQueueOnlyResponds : Obligations.TxPushOnFullQueueOnlyResponds := by
  unfold Obligations.TxPushOnFullQueueOnlyResponds
  intro b s h tl hw hf hp hi hh ht hhlt htlt hfull
  obtain rfl := ((succ_tx hw).full_iff hhlt htlt).mpr hfull
  exact exec_txPush_full hf hp hi hh ht

/-- Settles O21: the four micro-steps, each from a state that stands at its phase. -/
theorem txPushMicroSteps : Obligations.TxPushMicroSteps := by
  unfold Obligations.TxPushMicroSteps
  intro b s hf
  refine ⟨fun h tl hp hi hh ht hne => exec_txPush_room hf hp hi hh ht hne, fun n c hp hn hb hlt hm => ?_,
    fun n hp hn => exec_txPush_publish hf hp hn, fun hp => exec_txPush_arm_frame hf hp⟩
  exact ⟨_, exec_txPush_store hf hp hn hb hlt, fun a => Memory.read_write s.txBuf hm _ a c, rfl⟩

/-- One micro-step, then the rest of the operation. -/
theorem execSteps_succ {i : Instr} (k : Nat) (hx : exec i s = .next t) : execSteps i (k + 1) s = execSteps i k t := by
  simp only [execSteps, hx]

/-- The state between TX.3 and TX.4 of a push of `b`: stored in the cell `n` and published. -/
def published (n : Index) (b : Byte) (s : State) : State :=
  { s with fgPhase := .tx4, fgN := some n, fgB := some b, txBuf := s.txBuf.write n.toNat b, txHead := some n }

/-- The first three micro-steps of a push that finds room, one after the other. -/
theorem execSteps_txPush_room (k : Nat) (hw : s.cfg.wf = true) (hf : s.fault = .noFault) (hp : s.fgPhase = .idle)
    (hi : s.inited = true) (hh : s.txHead = some h) (ht : s.txTail = some tl) (hlt : h.toNat < s.cfg.nTx)
    (hne : nextTx s.cfg h ≠ tl) :
    execSteps (.txPush b) (k + 3) s = execSteps (.txPush b) k (published (nextTx s.cfg h) b s) := by
  have htake := exec_txPush_room (b := b) hf hp hi hh ht hne
  have hstore := exec_txPush_store (b := b) (s := { s with fgPhase := .tx2, fgN := some (nextTx s.cfg h), fgB := some b })
    hf rfl rfl rfl (nextTx_lt hw hlt)
  have hpublish := exec_txPush_publish (b := b)
    (s := { published (nextTx s.cfg h) b s with fgPhase := .tx3, txHead := s.txHead }) hf rfl rfl
  exact (execSteps_succ (k + 2) htake).trans <| (execSteps_succ (k + 1) hstore).trans <| execSteps_succ k hpublish

/-- Settles O19: the push is published in three micro-steps, and TX.4 ends it. -/
theorem txPushStoresPublishesArms : Obligations.TxPushStoresPublishesArms := by
  unfold Obligations.TxPushStoresPublishesArms
  intro b s h tl hw hm hf hp hi hh ht hhlt htlt hroom
  have hne : nextTx s.cfg h ≠ tl := fun hfull => hroom.ne (((succ_tx hw).full_iff hhlt htlt).mp hfull)
  obtain ⟨t, harm, htxie, hctrl, hframe⟩ := exec_txPush_arm_frame (b := b) (s := published (nextTx s.cfg h) b s) hf rfl
  refine ⟨t, ?_, fun a => ?_, htxie, hctrl, by rw [hframe]; rfl⟩
  · exact (execSteps_txPush_room 1 hw hf hp hi hh ht hhlt hne).trans (execSteps_succ 0 harm)
  · rw [hframe]
    exact Memory.read_write s.txBuf hm _ a b

/-! ### The transmit handler -/

theorem exec_txIsr (hf : s.fault = .noFault) (hq : s.txIrq = true) : exec .txIsr s = commit s (txDrain s) := by
  simp [exec, execTxIsr, whileLive_live hf, hq]

/-- The oldest byte `v` taken off the queue with tail `tl` and given to the peripheral (41_transmit.md rule R145). -/
def sendOldest (tl : Index) (v : Byte) (s : State) : State :=
  { s with txTail := some (nextTx s.cfg tl), txData := some v, pstat := clearBit s.pstat 0 }

@[simp] theorem sendOldest_txe (tl : Index) (v : Byte) (s : State) : (sendOldest tl v s).txe = false := by
  simp [sendOldest, State.txe]

@[simp] theorem sendOldest_rxne (tl : Index) (v : Byte) (s : State) : (sendOldest tl v s).rxne = s.rxne := by
  simp [sendOldest, State.rxne]

/-- The handler on a queue that is not empty (41_transmit.md rules R145, R146). -/
theorem exec_txIsr_send {v : Byte} (hf : s.fault = .noFault) (hq : s.txIrq = true) (hh : s.txHead = some h) (ht : s.txTail = some tl)
    (hne : h ≠ tl) (hlt : (nextTx s.cfg tl).toNat < s.cfg.nTx) (hv : s.txBuf.read (nextTx s.cfg tl).toNat = some v) :
    exec .txIsr s = .next (sendOldest tl v s) := by
  have hx : s.txe = true := (Bool.and_eq_true_iff.mp hq).2
  rw [exec_txIsr hf hq, txDrain_ok.mpr ⟨h, tl, hh, ht, .inr ⟨hne, hlt, hx, v, hv, rfl⟩⟩, commit_ok, sendOldest]

/-- The handler on an empty queue (41_transmit.md rules R145, R147). -/
theorem exec_txIsr_disarm (hf : s.fault = .noFault) (hq : s.txIrq = true) (hh : s.txHead = some h) (ht : s.txTail = some h) :
    exec .txIsr s = .next (disableTransmitInterrupt s) := by
  rw [exec_txIsr hf hq, txDrain_ok.mpr ⟨h, h, hh, ht, .inl ⟨rfl, rfl⟩⟩, commit_ok]

/-- Settles O22: `tx_drain()` on a queue that is not empty. -/
theorem txIsrSendsOldestByte : Obligations.TxIsrSendsOldestByte := by
  unfold Obligations.TxIsrSendsOldestByte
  intro s h tl v hw hf hq hh ht hne htlt hv
  exact ⟨_, exec_txIsr_send hf hq hh ht hne (nextTx_lt hw htlt) hv, sendOldest_txe tl v s, sendOldest_rxne tl v s, rfl⟩

/-- Settles O23: `tx_drain()` on an empty queue. -/
theorem txIsrOnEmptyQueueOnlyDisarms : Obligations.TxIsrOnEmptyQueueOnlyDisarms := by
  unfold Obligations.TxIsrOnEmptyQueueOnlyDisarms
  intro s h hf hq hh ht
  exact ⟨_, exec_txIsr_disarm hf hq hh ht, by simp [State.txie], fun j hj => by simp [hj], rfl⟩

/-! ### The handlers and their requests -/

/-- A send clears `TXE`, a disarming clears `TXIE`: either takes `TXIRQ` away (41_transmit.md rule R148). -/
theorem txDrain_txIrq (hu : txDrain s = .ok t) : t.txIrq = false := by
  obtain ⟨-, -, -, -, ⟨-, rfl⟩ | ⟨-, -, -, -, -, rfl⟩⟩ := txDrain_ok.mp hu
  · simp [State.txIrq, State.txie]
  · simp [State.txIrq, State.txe]

/-- The mandatory read clears `RXNE`, stored or dropped (42_receive.md rule R163). -/
theorem rxFill_rxIrq (hu : rxFill s = .ok t) : t.rxIrq = false := by
  obtain ⟨-, -, -, -, -, -, -, ⟨-, rfl⟩ | ⟨-, -, rfl⟩⟩ := rxFill_ok.mp hu
  · simp [State.rxIrq, State.rxne]
  · simp [State.rxIrq, State.rxne]

/-- Settles O27: with no fault raised, the handler's run is its body's. -/
theorem handlerClearsItsRequest : Obligations.HandlerClearsItsRequest := by
  unfold Obligations.HandlerClearsItsRequest
  intro s t _ hf
  refine ⟨fun hx => ?_, fun hx => ?_⟩
  · cases took_of_takeEvent (e := .txIsr) hx with
    | raised _ _ _ hc => exact absurd hf hc
    | txIsr _ _ hu => exact txDrain_txIrq hu
  · cases took_of_takeEvent (e := .rxIsr) hx with
    | raised _ _ _ hc => exact absurd hf hc
    | rxIsr _ _ hu => exact rxFill_rxIrq hu

/-- Settles O26: the request is the handler's whole enabling condition. -/
theorem handlerWithoutRequestHasNoStep : Obligations.HandlerWithoutRequestHasNoStep := by
  unfold Obligations.HandlerWithoutRequestHasNoStep
  intro s hf
  refine ⟨fun hq => ⟨?_, by simp [enabled, hq]⟩, fun hq => ⟨?_, by simp [enabled, hq]⟩⟩
  · simp [exec, execTxIsr, whileLive_live hf, hq]
  · simp [exec, execRxIsr, whileLive_live hf, hq]

/-! ### No lost wakeup -/

/-- What every step keeps, a run keeps. -/
theorem run_keeps {P : State → Prop} (hstep : ∀ s t, P s → step s = .next t → P t) {k : Nat} (hs : P s)
    (hrun : Host.Core.run core k s = .next t) : P t := by
  induction k generalizing s with
  | zero =>
    cases hrun
    exact hs
  | succ k ih =>
    cases hu : step s with
    | next u => exact ih (hstep s u hs hu) (run_next k hu ▸ hrun)
    | fault r => simp [run_fault k hu] at hrun
    | refused r => simp [run_refused k hu] at hrun

/-- What a power-up has and every step keeps holds in every state a run reaches. -/
theorem Reachable.induct {P : State → Prop} (hup : ∀ cfg prog rxIn sched draws, P (State.powerUp cfg prog rxIn [] [] sched draws))
    (hstep : ∀ s t, P s → step s = .next t → P t) (hr : Reachable s) : P s := by
  obtain ⟨cfg, prog, rxIn, sched, draws, k, hrun⟩ := hr
  exact run_keeps hstep (hup cfg prog rxIn sched draws) hrun

/-- In interrupt mode, a queue that is not empty is armed, but between its publication and TX.4 (41_transmit.md rule R152). -/
def QueuedIsArmed (s : State) : Prop :=
  s.cfg.txMode = .interrupt → s.fgPhase ≠ .tx4 → s.txHead ≠ s.txTail → s.txie = true

/-- A drain disarms an empty queue only. -/
theorem QueuedIsArmed.txDrain (hs : QueuedIsArmed s) (hu : txDrain s = .ok t) : QueuedIsArmed t := by
  obtain ⟨hd, tl, hh, ht, ⟨rfl, rfl⟩ | ⟨hne, -, -, -, -, rfl⟩⟩ := txDrain_ok.mp hu
  · exact fun _ _ hq => absurd (hh.trans ht.symm) hq
  · exact fun hm hp _ => hs hm hp (by simpa [hh, ht] using hne)

/-- `rx_fill()` reads and writes nothing of the transmit queue. -/
theorem QueuedIsArmed.rxFill (hs : QueuedIsArmed s) (hu : rxFill s = .ok t) : QueuedIsArmed t := by
  rw [rxFill_frame hu]
  exact hs

/-- TX.3 publishes into the excepted phase, TX.4 leaves it armed, the drain disarms an empty queue only, and `INIT` and a power cycle
empty the queue; no other event touches it. -/
theorem Took.queuedIsArmed (h : Took s e t) (hs : QueuedIsArmed s) : QueuedIsArmed t := by
  cases h with
  | tx3 => exact fun _ hp => absurd rfl hp
  | tx4 =>
    intro hm _ _
    have hm' : s.cfg.txMode = .interrupt := by simpa [armTransmit_eq] using hm
    exact (armTransmit_txie s).trans (by simp [hm'])
  | init => exact fun _ _ hq => absurd (by simp [initStep_eq]) hq
  | powerCycle => exact fun _ _ hq => absurd rfl hq
  | txIsr u _ hu => exact hs.txDrain hu
  | rxIsr u _ hu => exact hs.rxFill hu
  | svcRxFill u hp _ _ _ _ hu =>
    rw [rxFill_frame hu]
    exact fun hm _ hq => hs hm (by simp [hp]) hq
  | svcTxDrain u hp _ _ hu =>
    have hu' : QueuedIsArmed u := hs.txDrain hu
    exact fun hm _ hq => hu' hm (by rw [txDrain_frame hu]; simp [hp]) hq
  | rxArrive r b rest =>
    obtain ⟨d, p, heq⟩ := arrive_eq r b { s with rxIn := rest }
    rw [heq]
    exact hs
  | raised | txDone => exact hs
  | txFull _ _ hp | tx1 _ _ _ hp | tx2 _ _ hp | rxEmpty _ hp | rx1 _ _ hp | rx2 _ hp | rx3 _ _ hp | svcRxNone hp | svcTxNone hp =>
    exact fun hm _ hq => hs hm (by simp [hp]) hq

/-- Settles O52: nothing is queued at power-up, and every step keeps a queued byte armed. -/
theorem noLostWakeup : Obligations.NoLostWakeup := by
  unfold Obligations.NoLostWakeup
  intro s hr hm _ hp hq
  have hs : QueuedIsArmed s := by
    refine hr.induct (P := QueuedIsArmed) (fun _ _ _ _ _ _ _ hne => absurd rfl hne) fun u v hu hstep => ?_
    obtain ⟨-, ⟨rest, -, rfl⟩ | ⟨-, -, e, sc, d, -, ht⟩⟩ := step_next hstep
    · exact Took.powerCycle.queuedIsArmed hu
    · exact (took_of_takeEvent ht).queuedIsArmed (s := { u with sched := sc, draws := d }) hu
  exact hs hm hp hq

/-! ### The order of the transmitted bytes -/

/-- Whatever differs from its power-up value shows an initialized machine (70_reset_and_hazards.md rule R262). -/
theorem Inv.inited_of_ne_powerUp {α : Type} (hi : Inv s) (f : State → α)
    (hf : f s ≠ f { State.powerUp s.cfg s.prog s.rxIn s.lineOut s.respLog s.sched s.draws with fault := s.fault }) :
    s.inited = true := by
  by_contra hn
  exact hf (congrArg f (hi.beforeInit (by simpa using hn)))

theorem Inv.inited_of_txHead (hi : Inv s) (hh : s.txHead = some h) : s.inited = true :=
  hi.inited_of_ne_powerUp State.txHead (by simp [hh, State.powerUp])

theorem Inv.inited_of_inside (hi : Inv s) (hp : s.fgPhase ≠ .idle) : s.inited = true :=
  hi.inited_of_ne_powerUp State.fgPhase hp

theorem Inv.inited_of_txIrq (hi : Inv s) (hq : s.txIrq = true) : s.inited = true :=
  hi.inited_of_ne_powerUp State.txIrq (hq.trans_ne (by simp [State.txIrq, State.txie, State.powerUp]))

/-- `INIT` has one micro-step, so FG is never inside one (40_line_controller.md rule R130). -/
theorem Inv.idle_of_init {k : BitVec 4} (hi : Inv s) (hk : currentInstr s = some (.init k)) : s.fgPhase = .idle := by
  have hprog := hi.inProgress
  unfold InProgress at hprog
  cases hp : s.fgPhase <;> simp [hp, hk] at hprog ⊢

theorem txPending_eq (hh : s.txHead = some h) (ht : s.txTail = some tl) :
    txPending s =
      (pendingFrom (nextTx s.cfg) (pendingCount s.cfg.nTx h tl) tl).map fun i => s.txBuf.read i.toNat := by
  simp only [txPending, hh, ht]

theorem txPending_empty (hq : s.txHead = s.txTail) : txPending s = [] := by
  cases ht : s.txTail with
  | none => simp [txPending, hq, ht]
  | some tl => simp [txPending_eq (hq.trans ht) ht, pendingCount, pendingFrom]

/-- Two states with one `LINE_OUT`, one byte in flight and one queue have one stream. -/
theorem txStream_congr (hl : t.lineOut = s.lineOut) (hx : t.txe = s.txe) (hd : t.txData = s.txData) (hp : txPending t = txPending s) :
    txStream t = txStream s := by
  simp only [txStream, txInFlight, hl, hx, hd, hp]

/-- TX.2 writes a cell that is not pending (20_memory.md rule R80). -/
theorem TxQueue.txPending_write (q : TxQueue s h tl) (hw : s.cfg.wf = true) (hm : s.txBuf.wf) (hne : nextTx s.cfg h ≠ tl) (b : Byte) :
    txPending { s with txBuf := s.txBuf.write (nextTx s.cfg h).toNat b } = txPending s := by
  simp only [txPending, q.head, q.tail]
  refine List.map_congr_left fun i hi => Memory.read_write_other s.txBuf hm (fun heq => ?_) b
  obtain rfl := BitVec.eq_of_toNat_eq heq
  exact next_head_not_pending (succ_tx hw) q.headLt q.tailLt hne hi

/-- TX.3 adds the cell it publishes at the end (41_transmit.md rule R149). -/
theorem TxQueue.txPending_publish (q : TxQueue s h tl) (hw : s.cfg.wf = true) (hne : nextTx s.cfg h ≠ tl) :
    txPending { s with txHead := some (nextTx s.cfg h) } = txPending s ++ [s.txBuf.read (nextTx s.cfg h).toNat] := by
  simp only [txPending, q.head, q.tail]
  rw [pending_head (succ_tx hw) q.headLt q.tailLt hne, List.map_append, List.map_singleton]

/-- A drain takes the first of the pending bytes (41_transmit.md rule R149). -/
theorem TxQueue.txPending_take (q : TxQueue s h tl) (hw : s.cfg.wf = true) (hne : h ≠ tl) :
    txPending s = s.txBuf.read (nextTx s.cfg tl).toNat :: txPending { s with txTail := some (nextTx s.cfg tl) } := by
  simp only [txPending, q.head, q.tail]
  rw [pending_tail (succ_tx hw) q.headLt q.tailLt hne, List.map_cons]

/-- The drain moves a byte from the queue to the register, or only disarms. -/
theorem Inv.txStream_txDrain (hi : Inv s) (hw : s.cfg.wf = true) (hu : txDrain s = .ok t) : txStream t = txStream s := by
  obtain ⟨h, tl, hh, ht, ⟨rfl, rfl⟩ | ⟨hne, -, hx, v, hv, rfl⟩⟩ := txDrain_ok.mp hu
  · rfl
  · obtain ⟨h', tl', q⟩ := (hi.afterInit (hi.inited_of_txHead hh)).tx
    obtain rfl : h' = h := Option.some.inj (q.head.symm.trans hh)
    obtain rfl : tl' = tl := Option.some.inj (q.tail.symm.trans ht)
    have hp := q.txPending_take hw hne
    rw [hv] at hp
    simp only [txStream, hp, txInFlight, hx]
    simp [State.txe, txPending]

/-- The receive fill leaves `TXE` and the whole transmit direction. -/
theorem txStream_rxFill (hu : rxFill s = .ok t) : txStream t = txStream s := by
  obtain ⟨-, -, -, -, -, -, -, ⟨-, rfl⟩ | ⟨-, -, rfl⟩⟩ := rxFill_ok.mp hu
  · exact txStream_congr rfl (by simp [State.txe]) rfl rfl
  · exact txStream_congr rfl (by simp [State.txe]) rfl rfl

/-- An arrival leaves `TXE` and the whole transmit direction. -/
theorem txStream_arrive (r : Bool) (b : Byte) (s : State) : txStream (arrive r b s) = txStream s := by
  unfold arrive
  split_ifs
  · rfl
  · exact txStream_congr rfl (by simp [State.txe]) rfl rfl
  · obtain ⟨d, heq⟩ := overrunArrival_eq r b s
    rw [heq]
    rfl

/-- `TX_DONE` moves the byte being sent to the line (44_peripheral_boundary.md rule R204). -/
theorem txStream_txDone (hx : s.txe = false) (hb : s.txData = some b) :
    txStream { s with lineOut := s.lineOut ++ [b], pstat := setBit s.pstat 0 } = txStream s := by
  simp only [txStream, txInFlight, hx, hb]
  simp [State.txe, txPending]

theorem txStream_init (k : BitVec 4) (s : State) : txStream (initStep k s) = s.lineOut.map some ++ txInFlight s := by
  rw [txStream, txPending_empty (by simp [initStep_eq])]
  simp [initStep_eq, txInFlight, State.txe]

/-- Only FG moves its sequencer, but for a power cycle (10_state.md rule R35, 60_exceptions.md rule R235). -/
theorem Took.sequencer (h : Took s e t) (hfg : e ≠ .fg) (he : e ≠ .powerCycle) : t.fgPhase = s.fgPhase ∧ t.fgPc = s.fgPc := by
  cases h with
  | txIsr u _ hu => rw [txDrain_frame hu]; exact ⟨rfl, rfl⟩
  | rxIsr u _ hu => rw [rxFill_frame hu]; exact ⟨rfl, rfl⟩
  | rxArrive r b rest =>
    obtain ⟨d, p, heq⟩ := arrive_eq r b { s with rxIn := rest }
    rw [heq]
    exact ⟨rfl, rfl⟩
  | raised | txDone => exact ⟨rfl, rfl⟩
  | powerCycle => exact absurd rfl he
  | _ => exact absurd rfl hfg

/-- Into TX.4 leads the micro-step TX.3 only (41_transmit.md rule R141). -/
theorem Took.of_publish (h : Took s e t) (he : e ≠ .powerCycle) (hp : s.fgPhase = .tx3) (hp' : t.fgPhase = .tx4) :
    ∃ n, s.fgN = some n ∧ t = { s with fgPhase := .tx4, txHead := some n } := by
  by_cases hfg : e = .fg
  · subst hfg
    cases h with
    | tx3 n _ hn => exact ⟨n, hn, rfl⟩
    | raised => simp [hp] at hp'
    | init _ hq | txFull _ _ hq | tx1 _ _ _ hq | tx2 _ _ hq | tx4 hq | rxEmpty _ hq | rx1 _ _ hq | rx2 _ hq | rx3 _ _ hq
      | svcRxNone hq | svcRxFill _ hq | svcTxNone hq | svcTxDrain _ hq => simp [hp] at hq
  · rw [(h.sequencer hfg he).1, hp] at hp'
    cases hp'

/-- Past an `INIT` leads `INIT`'s own micro-step only (40_line_controller.md rule R130). -/
theorem Took.of_initTaken (hi : Inv s) (h : Took s e t) (he : e ≠ .powerCycle) (ht : InitTaken s t) : ∃ k, t = initStep k s := by
  obtain ⟨⟨k, hk⟩, hpc⟩ := ht
  have hidle := hi.idle_of_init hk
  by_cases hfg : e = .fg
  · subst hfg
    cases h with
    | init k => exact ⟨k, rfl⟩
    | raised => simp at hpc
    | txFull _ _ _ hc | tx1 _ _ _ _ hc | rxEmpty _ _ hc | rx1 _ _ _ hc | svcRxNone _ hc | svcRxFill _ _ hc => simp [hk] at hc
    | tx2 _ _ hq | tx3 _ hq | tx4 hq | rx2 _ hq | rx3 _ _ hq | svcTxNone hq | svcTxDrain _ hq => simp [hidle] at hq
  · rw [(h.sequencer hfg he).2] at hpc
    omega

/-- Any other event moves no byte of the stream but from the queue to the register and from the register to the line. -/
theorem Took.txStream_eq (hi : Inv s) (hw : s.cfg.wf = true) (h : Took s e t) (he : e ≠ .powerCycle)
    (hpub : ¬ (s.fgPhase = .tx3 ∧ t.fgPhase = .tx4)) (hinit : ¬ InitTaken s t) : txStream t = txStream s := by
  cases h with
  | init k _ hc => exact absurd ⟨⟨k, hc⟩, by simp [initStep_eq]⟩ hinit
  | tx3 _ hp => exact absurd ⟨hp, rfl⟩ hpub
  | powerCycle => exact absurd rfl he
  | tx2 n b hp hn hb =>
    obtain ⟨hd, tl, q⟩ := (hi.afterInit (hi.inited_of_inside (by simp [hp]))).tx
    obtain ⟨hq, hne⟩ := q.atTx2 hp
    obtain rfl : n = nextTx s.cfg hd := Option.some.inj (hn.symm.trans hq)
    exact txStream_congr rfl rfl rfl (q.txPending_write hw hi.txBufWf hne b)
  | txIsr u _ hu => exact hi.txStream_txDrain hw hu
  | svcTxDrain u _ _ _ hu => exact (hi.txStream_txDrain hw hu :)
  | rxIsr u _ hu => exact txStream_rxFill hu
  | svcRxFill u _ _ _ _ _ hu => exact (txStream_rxFill hu :)
  | txDone b hx hb => exact txStream_txDone hx hb
  | rxArrive r b rest => exact txStream_arrive r b { s with rxIn := rest }
  | tx4 => rw [armTransmit_eq]; rfl
  | raised | txFull | tx1 | rxEmpty | rx1 | rx2 | rx3 | svcRxNone | svcTxNone => rfl

/-- TX.3 adds the byte that TX.2 stored (41_transmit.md rules R141, R149). -/
theorem Inv.txStream_publish (hi : Inv s) (hw : s.cfg.wf = true) (hp : s.fgPhase = .tx3) (hn : s.fgN = some n) :
    ∃ b, s.fgB = some b ∧ txStream { s with fgPhase := .tx4, txHead := some n } = txStream s ++ [some b] := by
  obtain ⟨hd, tl, q⟩ := (hi.afterInit (hi.inited_of_inside (by simp [hp]))).tx
  obtain ⟨hq, hne, hstored⟩ := q.atTx3 hp
  obtain rfl : n = nextTx s.cfg hd := Option.some.inj (hn.symm.trans hq)
  have hprog := hi.inProgress
  simp only [InProgress, hp] at hprog
  obtain ⟨b, -, hb⟩ := hprog
  have hpend := q.txPending_publish hw hne
  rw [hstored.trans hb] at hpend
  refine ⟨b, hb, ?_⟩
  calc txStream { s with fgPhase := .tx4, txHead := some (nextTx s.cfg hd) }
      = s.lineOut.map some ++ txInFlight s ++ txPending { s with txHead := some (nextTx s.cfg hd) } := rfl
    _ = txStream s ++ [some b] := by rw [hpend, ← List.append_assoc, txStream]

/-- Settles O53: TX.3 adds its byte, `INIT` drops what is pending, and any other event keeps the order. -/
theorem transmitBytesKeepTheirOrder : Obligations.TransmitBytesKeepTheirOrder := by
  unfold Obligations.TransmitBytesKeepTheirOrder
  intro s t hi hstep hnext
  obtain ⟨⟨hw, -⟩, ⟨rest, hs, -⟩ | ⟨-, -, e, sc, d, he, ht⟩⟩ := step_next hstep
  · rw [powerCycleNext_iff.mpr ⟨rest, hs⟩] at hnext
    cases hnext
  have h := took_of_takeEvent ht
  have hi' : Inv { s with sched := sc, draws := d } := hi.sched sc d
  have hpc := ne_powerCycle_of_enabled he
  refine ⟨fun hp hp' => ?_, fun hinit => ?_, fun hpub hinit => ?_⟩
  · obtain ⟨n, hn, rfl⟩ := h.of_publish hpc hp hp'
    exact hi'.txStream_publish hw hp hn
  · obtain ⟨k, rfl⟩ := h.of_initTaken hi' hpc hinit
    exact txStream_init k { s with sched := sc, draws := d }
  · exact h.txStream_eq (s := { s with sched := sc, draws := d }) hi' hw hpc hpub hinit

/-! ### The drain of an armed queue -/

/-- A drain that takes a byte keeps the queue's form: what stays pending was pending, and a push in progress keeps its room. -/
theorem TxQueue.take (q : TxQueue s h tl) (hw : s.cfg.wf = true) (hne : h ≠ tl) (v : Byte) :
    TxQueue (sendOldest tl v s) h (nextTx s.cfg tl) where
  head := q.head
  tail := rfl
  headLt := q.headLt
  tailLt := nextTx_lt hw q.tailLt
  written i hi := q.written i (by rw [pending_tail (succ_tx hw) q.headLt q.tailLt hne]; exact List.mem_cons_of_mem _ hi)
  atTx2 hp := ⟨(q.atTx2 hp).1, fun heq => hne ((succ_tx hw).inj q.headLt q.tailLt heq)⟩
  atTx3 hp := ⟨(q.atTx3 hp).1, fun heq => hne ((succ_tx hw).inj q.headLt q.tailLt heq), (q.atTx3 hp).2.2⟩
  atTx4 := q.atTx4

/-- A running machine whose transmit request is asserted, its queue in form: what each round of the drain needs and keeps. -/
structure Armed (s : State) (h tl : Index) : Prop where
  launchOk : LaunchOk s
  live : s.fault = .noFault
  txIrq : s.txIrq = true
  queue : TxQueue s h tl

theorem Armed.step_txIsr (a : Armed s h tl) {rest : List Event} (hs : s.sched = .txIsr :: rest) :
    step s = exec .txIsr { s with sched := rest } :=
  step_scheduled a.launchOk (by simp [enabled, a.live, a.txIrq]) hs

/-- A scheduled completion (44_peripheral_boundary.md rule R204). -/
theorem step_txDone {rest : List Event} (hl : LaunchOk s) (hf : s.fault = .noFault) (hx : s.txe = false) (hb : s.txData = some b)
    (hs : s.sched = .txDone :: rest) :
    step s = .next { s with sched := rest, lineOut := s.lineOut ++ [b], pstat := setBit s.pstat 0 } :=
  (step_scheduled hl (enabled_txDone_iff.mpr ⟨hf, hx⟩) hs).trans
    (perTxDone_next (s := { s with sched := rest }) |>.mpr ⟨hf, hx, b, hb, rfl⟩)

/-- A round of the drain later: the oldest byte `v` sent and on the line, the register empty again. -/
def roundDone (tl : Index) (v : Byte) (rest : List Event) (s : State) : State :=
  { sendOldest tl v s with
    sched := rest, lineOut := s.lineOut ++ [v], pstat := setBit (clearBit s.pstat 0) 0 }

/-- A handler run and a completion put the oldest byte on the line (41_transmit.md rules R145, R149). -/
theorem Armed.run_round (a : Armed s h tl) (hne : h ≠ tl) {v : Byte} (hv : s.txBuf.read (nextTx s.cfg tl).toNat = some v)
    {rest : List Event} (hs : s.sched = .txIsr :: .txDone :: rest) (k : Nat) :
    Host.Core.run core (k + 2) s = Host.Core.run core k (roundDone tl v rest s) := by
  have hsend : step s = .next (sendOldest tl v { s with sched := .txDone :: rest }) := (a.step_txIsr hs).trans <|
    exec_txIsr_send (s := { s with sched := .txDone :: rest }) a.live a.txIrq a.queue.head a.queue.tail hne
      (nextTx_lt a.launchOk.1 a.queue.tailLt) hv
  have hdone : step (sendOldest tl v { s with sched := .txDone :: rest }) = .next (roundDone tl v rest s) :=
    step_txDone (s := sendOldest tl v { s with sched := .txDone :: rest }) a.launchOk a.live (sendOldest_txe _ _ _) rfl rfl
  rw [run_next _ hsend, run_next _ hdone]

theorem Armed.roundDone (a : Armed s h tl) (hne : h ≠ tl) (v : Byte) (rest : List Event) :
    Armed (roundDone tl v rest s) h (nextTx s.cfg tl) where
  launchOk := a.launchOk
  live := a.live
  txIrq := by
    have hie : s.txie = true := (Bool.and_eq_true_iff.mp a.txIrq).1
    exact Bool.and_eq_true_iff.mpr ⟨hie, by simp [Machine.roundDone, State.txe]⟩
  queue :=
    have q := a.queue.take a.launchOk.1 hne v
    ⟨q.head, q.tail, q.headLt, q.tailLt, q.written, q.atTx2, q.atTx3, q.atTx4⟩

/-- What a drain comes to: the pending bytes on the line, the queue empty and disarmed, the schedule used up, and `RESP_LOG`, `FG_PC` and `RXBUF`
as they were. -/
structure DrainedTo (s t : State) (rest : List Event) : Prop where
  lineOut : t.lineOut.map some = s.lineOut.map some ++ txPending s
  empty : txPending t = []
  txie : t.txie = false
  txe : t.txe = true
  sched : t.sched = rest
  respLog : t.respLog = s.respLog
  fgPc : t.fgPc = s.fgPc
  rxBuf : t.rxBuf = s.rxBuf

/-- Induction on the pending count: a round takes the oldest byte, and the handler's run on the empty queue disarms (41_transmit.md
rules R147, R152). -/
theorem Armed.drain (a : Armed s h tl) {k : Nat} (hk : (txPending s).length = k) {rest : List Event}
    (hs : s.sched = drainSchedule k ++ rest) : ∃ t, Host.Core.run core (2 * k + 1) s = .next t ∧ DrainedTo s t rest := by
  induction k generalizing s tl with
  | zero =>
    obtain rfl : h = tl := by
      rw [txPending_eq a.queue.head a.queue.tail, List.length_map, length_pendingFrom] at hk
      exact (pendingCount_zero a.queue.headLt a.queue.tailLt).mp hk
    have hstep : step s = .next (disableTransmitInterrupt { s with sched := rest }) := (a.step_txIsr hs).trans <|
      exec_txIsr_disarm (s := { s with sched := rest }) a.live a.txIrq a.queue.head a.queue.tail
    have hempty : txPending s = [] := List.length_eq_zero_iff.mp hk
    refine ⟨_, run_next 0 hstep, ?_, hempty, by simp [State.txie], (Bool.and_eq_true_iff.mp a.txIrq).2, rfl, rfl, rfl, rfl⟩
    simp [hempty]
  | succ k ih =>
    have hne : h ≠ tl := by
      rintro rfl
      simp [txPending_empty (a.queue.head.trans a.queue.tail.symm)] at hk
    have hpend := a.queue.txPending_take a.launchOk.1 hne
    obtain ⟨v, hv⟩ := Option.isSome_iff_exists.mp (a.queue.written (nextTx s.cfg tl) (by
      rw [pending_tail (succ_tx a.launchOk.1) a.queue.headLt a.queue.tailLt hne]
      exact List.mem_cons_self))
    rw [hv] at hpend
    have hlen : (txPending (Machine.roundDone tl v (drainSchedule k ++ rest) s)).length = k := by
      rw [hpend] at hk
      exact Nat.succ.inj hk
    obtain ⟨t, hrun, d⟩ := ih (a.roundDone hne v (drainSchedule k ++ rest)) hlen rfl
    refine ⟨t, (a.run_round hne hv hs (2 * k + 1)).trans hrun, { d with lineOut := ?_ }⟩
    rw [d.lineOut, hpend]
    simp [Machine.roundDone, sendOldest, txPending]

/-- Settles O58: the invariant arms the machine, and an armed machine drains. -/
theorem armedQueueDrainsInOrder : Obligations.ArmedQueueDrainsInOrder := by
  unfold Obligations.ArmedQueueDrainsInOrder
  intro s rest hi hl hf hq hs
  obtain ⟨h, tl, q⟩ := (hi.afterInit (hi.inited_of_txIrq hq)).tx
  obtain ⟨t, hrun, d⟩ := Armed.drain ⟨hl, hf, hq, q⟩ rfl hs
  exact ⟨t, hrun, d.lineOut, d.empty, d.txie, d.txe, d.sched, d.respLog, d.fgPc, d.rxBuf⟩

end Sys2Proof.Machine

/-! PROOFS. The statements of 42_receive.md: `RX_POP` (rules R165, R166), the receive handler and the receive fill (rules R161 to R164), and
the order of the received bytes (rule R167). -/

namespace Sys2Proof.Machine

open Sys2Proof

variable {s t : State} {e : Event} {v : Byte} {h tl n : Index}

/-! ### The order of the received bytes -/

theorem Inv.inited_of_rxHead (hi : Inv s) (hh : s.rxHead = some h) : s.inited = true :=
  hi.inited_of_ne_powerUp State.rxHead (by simp [hh, State.powerUp])

theorem rxPending_empty (hq : s.rxHead = s.rxTail) : rxPending s = [] := by
  cases ht : s.rxTail with
  | none => simp [rxPending, hq, ht]
  | some tl => simp [rxPending, hq, ht, pendingCount, pendingFrom]

theorem rxInHand_of_ne_rx3 (hp : s.fgPhase ≠ .rx3) : rxInHand s = [] := if_neg hp

theorem rxInHand_of_rx3 (hp : s.fgPhase = .rx3) (hn : s.fgN = some n) : rxInHand s = [s.rxBuf.read n.toNat] := by
  rw [rxInHand, if_pos hp, hn]
  rfl

/-- With no byte in hand on either side of a step, the stream is the queue. -/
theorem rxStream_congr_outside (hp : s.fgPhase ≠ .rx3) (hp' : t.fgPhase ≠ .rx3) (hq : rxPending t = rxPending s) :
    rxStream t = rxStream s := by
  rw [rxStream, rxStream, rxInHand_of_ne_rx3 hp, rxInHand_of_ne_rx3 hp', hq]

/-- The byte `v` read out of `RXDATA`, stored in the cell after the head `h` and published (42_receive.md rule R161). -/
def storeArrival (h : Index) (v : Byte) (s : State) : State :=
  { s with
    pstat := clearBit s.pstat 1, rxBuf := s.rxBuf.write (nextRx s.cfg h).toNat v, rxHead := some (nextRx s.cfg h) }

@[simp] theorem storeArrival_rxne (h : Index) (v : Byte) (s : State) : (storeArrival h v s).rxne = false := by
  simp [storeArrival, State.rxne]

@[simp] theorem storeArrival_txe (h : Index) (v : Byte) (s : State) : (storeArrival h v s).txe = s.txe := by
  simp [storeArrival, State.txe]

/-- The cell `next_rx(RX_HEAD)` written and published is the last of the pending ones, and no pending one is written (42_receive.md
rule R161, 20_memory.md rule R80). -/
theorem RxQueue.rxPending_store (q : RxQueue s h tl) (hw : s.cfg.wf = true) (hm : s.rxBuf.wf) (hne : nextRx s.cfg h ≠ tl) (v : Byte) :
    rxPending (storeArrival h v s) = rxPending s ++ [some v] := by
  simp only [rxPending, storeArrival, q.head, q.tail]
  rw [pending_head (succ_rx hw) q.headLt q.tailLt hne, List.map_append, List.map_singleton, Memory.read_write_same s.rxBuf hm]
  congr 1
  refine List.map_congr_left fun i hi => Memory.read_write_other s.rxBuf hm (fun heq => ?_) v
  obtain rfl := BitVec.eq_of_toNat_eq heq
  exact next_head_not_pending (succ_rx hw) q.headLt q.tailLt hne hi

/-- The byte in hand is in the cell at the tail, which a fill with room does not write (10_state.md rule R32: the sacrificed slot). -/
theorem RxQueue.rxInHand_store (q : RxQueue s h tl) (hm : s.rxBuf.wf) (hne : nextRx s.cfg h ≠ tl) (v : Byte) :
    rxInHand (storeArrival h v s) = rxInHand s := by
  by_cases hp : s.fgPhase = .rx3
  · have hn := (q.atRx3 hp).1
    have hcell : tl.toNat ≠ (nextRx s.cfg h).toNat := fun heq => hne (BitVec.eq_of_toNat_eq heq.symm)
    simp [rxInHand, storeArrival, hp, hn, Memory.read_write_other s.rxBuf hm hcell]
  · simp [rxInHand, storeArrival, hp]

/-- RX.2 takes the first of the pending bytes off the queue (42_receive.md rule R165). -/
theorem RxQueue.rxPending_take (q : RxQueue s h tl) (hw : s.cfg.wf = true) (hne : h ≠ tl) :
    rxPending s = s.rxBuf.read (nextRx s.cfg tl).toNat :: rxPending { s with rxTail := some (nextRx s.cfg tl) } := by
  simp only [rxPending, q.head, q.tail]
  rw [pending_tail (succ_rx hw) q.headLt q.tailLt hne, List.map_cons]

/-- The step stores no arrival and moves no byte of the receive stream. -/
def RxKept (s t : State) : Prop := t.rxHead = s.rxHead ∧ rxStream t = rxStream s

/-- The step stores an arrival: it publishes a cell, and the byte of `RXDATA` is the last of the receive stream. -/
def RxStored (s t : State) : Prop := t.rxHead ≠ s.rxHead ∧ ∃ v, s.rxData = some v ∧ rxStream t = rxStream s ++ [some v]

/-- The receive fill drops the byte or stores it (42_receive.md rule R161). -/
theorem Inv.rxFill_kept_or_stored (hi : Inv s) (hw : s.cfg.wf = true) (hu : rxFill s = .ok t) : RxKept s t ∨ RxStored s t := by
  obtain ⟨-, v, h, tl, hd, hh, ht, ⟨-, rfl⟩ | ⟨hne, -, rfl⟩⟩ := rxFill_ok.mp hu
  · exact .inl ⟨rfl, rfl⟩
  · obtain ⟨h', tl', q⟩ := (hi.afterInit (hi.inited_of_rxHead hh)).rx
    obtain rfl : h' = h := Option.some.inj (q.head.symm.trans hh)
    obtain rfl : tl' = tl := Option.some.inj (q.tail.symm.trans ht)
    have hmoved : some (nextRx s.cfg h') ≠ s.rxHead := by simpa [hh] using (succ_rx hw).ne_self q.headLt
    have hadded : rxStream (storeArrival h' v s) = rxStream s ++ [some v] := by
      rw [rxStream, q.rxInHand_store hi.rxBufWf hne, q.rxPending_store hw hi.rxBufWf hne, ← List.append_assoc, rxStream]
    exact .inr ⟨hmoved, v, hd, hadded⟩

/-- RX.2 moves the first pending byte into FG's hand (42_receive.md rules R165, R167). -/
theorem Inv.rxStream_take (hi : Inv s) (hw : s.cfg.wf = true) (hp : s.fgPhase = .rx2) (hn : s.fgN = some n) :
    rxStream { s with fgPhase := .rx3, rxTail := some n } = rxStream s := by
  obtain ⟨h, tl, q⟩ := (hi.afterInit (hi.inited_of_inside (by simp [hp]))).rx
  obtain ⟨hq, hne⟩ := q.atRx2 hp
  obtain rfl : n = nextRx s.cfg tl := Option.some.inj (hn.symm.trans hq)
  have hnow : rxInHand s = [] := rxInHand_of_ne_rx3 (by simp [hp])
  have hthen : rxInHand { s with fgPhase := .rx3, rxTail := some (nextRx s.cfg tl) } = [s.rxBuf.read (nextRx s.cfg tl).toNat] :=
    rxInHand_of_rx3 rfl hn
  rw [rxStream, rxStream, hnow, hthen, q.rxPending_take hw hne]
  rfl

/-- RX.3 gives the byte in hand away (42_receive.md rule R165). -/
theorem rxStream_return (w : RespWord) (hp : s.fgPhase = .rx3) (hn : s.fgN = some n) (hv : s.rxBuf.read n.toNat = some v) :
    rxStream s = some v :: rxStream (fgDone (respond w s)) := by
  rw [rxStream, rxStream, rxInHand_of_rx3 hp hn, hv, rxInHand_of_ne_rx3 (s := fgDone (respond w s)) (by simp)]
  rfl

/-- `INIT` empties the queue and leaves nothing in hand (40_line_controller.md rule R130). -/
theorem rxStream_init (k : BitVec 4) (s : State) : rxStream (initStep k s) = [] := by
  rw [rxStream, rxPending_empty (by simp [initStep_eq]), rxInHand_of_ne_rx3 (by simp [initStep_eq])]
  rfl

/-- Out of RX.3 to an operation's end leads RX.3's own micro-step only (42_receive.md rule R165). -/
theorem Took.of_return (ht : Took s e t) (he : e ≠ .powerCycle) (hp : s.fgPhase = .rx3) (hp' : t.fgPhase = .idle) :
    ∃ n v, s.fgN = some n ∧ s.rxBuf.read n.toNat = some v ∧ t = fgDone (respond (respWord true v) s) := by
  by_cases hfg : e = .fg
  · subst hfg
    cases ht with
    | rx3 n v _ hn _ hv => exact ⟨n, v, hn, hv, rfl⟩
    | raised => simp [hp] at hp'
    | init _ hq | txFull _ _ hq | tx1 _ _ _ hq | tx2 _ _ hq | tx3 _ hq | tx4 hq | rxEmpty _ hq | rx1 _ _ hq | rx2 _ hq
      | svcRxNone hq | svcRxFill _ hq | svcTxNone hq | svcTxDrain _ hq => simp [hp] at hq
  · rw [(ht.sequencer hfg he).1, hp] at hp'
    cases hp'

/-- But for `INIT` and a power cycle, an event stores an arrival, ends RX.3, or moves no byte but from the queue into FG's hand. -/
theorem Took.rxStream_cases (hi : Inv s) (hw : s.cfg.wf = true) (ht : Took s e t) (he : e ≠ .powerCycle) (hinit : ¬ InitTaken s t) :
    RxKept s t ∨ RxStored s t ∨ (t.rxHead = s.rxHead ∧ s.fgPhase = .rx3 ∧ t.fgPhase = .idle) := by
  cases ht with
  | init k _ hc => exact absurd ⟨⟨k, hc⟩, by simp [initStep_eq]⟩ hinit
  | powerCycle => exact absurd rfl he
  | rx3 n v hp => exact .inr (.inr ⟨rfl, hp, rfl⟩)
  | rx2 n hp hn => exact .inl ⟨rfl, hi.rxStream_take hw hp hn⟩
  | rxIsr u _ hu => exact (hi.rxFill_kept_or_stored hw hu).imp_right .inl
  | svcRxFill u hp _ _ _ _ hu =>
    have hpu : u.fgPhase ≠ .rx3 := by simp [congrArg State.fgPhase (rxFill_frame hu), hp]
    have hstream : rxStream (fgGoto .svcTx u) = rxStream u := rxStream_congr_outside hpu (by simp) rfl
    obtain ⟨hh, hs⟩ | ⟨hh, v, hd, hs⟩ := hi.rxFill_kept_or_stored hw hu
    · exact .inl ⟨hh, hstream.trans hs⟩
    · exact .inr (.inl ⟨hh, v, hd, hstream.trans hs⟩)
  | txIsr u _ hu => rw [txDrain_frame hu]; exact .inl ⟨rfl, rfl⟩
  | svcTxDrain u hp _ _ hu => rw [txDrain_frame hu]; exact .inl ⟨rfl, rxStream_congr_outside (by simp [hp]) (by simp) rfl⟩
  | tx4 hp => rw [armTransmit_eq]; exact .inl ⟨rfl, rxStream_congr_outside (by simp [hp]) (by simp) rfl⟩
  | rxArrive r b rest =>
    obtain ⟨d, p, heq⟩ := arrive_eq r b { s with rxIn := rest }
    rw [heq]
    exact .inl ⟨rfl, rfl⟩
  | raised | txDone => exact .inl ⟨rfl, rfl⟩
  | txFull _ _ hp | tx1 _ _ _ hp | tx2 _ _ hp | tx3 _ hp | rxEmpty _ hp | rx1 _ _ hp | svcRxNone hp | svcTxNone hp =>
    exact .inl ⟨rfl, rxStream_congr_outside (by simp [hp]) (by simp) rfl⟩

/-- Settles O54: RX.3 returns the byte in hand, `INIT` empties the queue, and any other event keeps the stream or adds the arrival it
stores. -/
theorem receivedBytesKeepTheirOrder : Obligations.ReceivedBytesKeepTheirOrder := by
  unfold Obligations.ReceivedBytesKeepTheirOrder
  intro s t hi hstep hnext
  obtain ⟨⟨hw, -⟩, ⟨rest, hs, -⟩ | ⟨-, -, e, sc, d, he, htake⟩⟩ := step_next hstep
  · rw [powerCycleNext_iff.mpr ⟨rest, hs⟩] at hnext
    cases hnext
  have ht := took_of_takeEvent htake
  have hi' : Inv { s with sched := sc, draws := d } := hi.sched sc d
  have hpc := ne_powerCycle_of_enabled he
  have hcases := ht.rxStream_cases (s := { s with sched := sc, draws := d }) hi' hw hpc
  refine ⟨fun hp hp' => ?_, fun hinit => ?_, fun hmoved hinit => ?_, fun hstays hinit hreturn => ?_⟩
  · obtain ⟨n, v, hn, hv, rfl⟩ := ht.of_return hpc hp hp'
    exact ⟨v, rxStream_return (respWord true v) hp hn hv, by rw [← respWord_true]; rfl⟩
  · obtain ⟨k, rfl⟩ := ht.of_initTaken hi' hpc hinit
    exact rxStream_init k _
  · obtain ⟨hh, -⟩ | ⟨-, hadded⟩ | ⟨hh, -⟩ := hcases hinit
    · exact absurd hh hmoved
    · exact hadded
    · exact absurd hh hmoved
  · obtain ⟨-, hkept⟩ | ⟨hh, -⟩ | ⟨-, hp⟩ := hcases hinit
    · exact hkept
    · exact absurd hstays hh
    · exact absurd hp hreturn

/-! ### The receive handler -/

theorem exec_rxIsr (hf : s.fault = .noFault) (hq : s.rxIrq = true) : exec .rxIsr s = commit s (rxFill s) := by
  simp [exec, execRxIsr, whileLive_live hf, hq]

/-- The fill with room (42_receive.md rule R161). -/
theorem rxFill_store (hr : s.rxne = true) (hd : s.rxData = some v) (hh : s.rxHead = some h) (ht : s.rxTail = some tl)
    (hne : nextRx s.cfg h ≠ tl) (hlt : (nextRx s.cfg h).toNat < s.cfg.nRx) :
    rxFill s = .ok (storeArrival h v s) :=
  rxFill_ok.mpr ⟨hr, v, h, tl, hd, hh, ht, .inr ⟨hne, hlt, rfl⟩⟩

/-- The fill on a full queue (42_receive.md rule R164). -/
theorem rxFill_drop (hr : s.rxne = true) (hd : s.rxData = some v) (hh : s.rxHead = some h) (ht : s.rxTail = some (nextRx s.cfg h)) :
    rxFill s = .ok { s with pstat := clearBit s.pstat 1 } :=
  rxFill_ok.mpr ⟨hr, v, h, nextRx s.cfg h, hd, hh, ht, .inl ⟨rfl, rfl⟩⟩

/-- Settles O24: fewer than `N_RX − 1` pending is room for the fill. -/
theorem rxIsrStoresArrivedByte : Obligations.RxIsrStoresArrivedByte := by
  unfold Obligations.RxIsrStoresArrivedByte
  intro s h tl v hw hm hf hq hd hh ht hhlt htlt hroom
  have hr : s.rxne = true := (Bool.and_eq_true_iff.mp hq).2
  have hne : nextRx s.cfg h ≠ tl := fun hfull => hroom.ne (((succ_rx hw).full_iff hhlt htlt).mp hfull)
  have hfill := rxFill_store hr hd hh ht hne (nextRx_lt hw h)
  exact ⟨_, by rw [exec_rxIsr hf hq, hfill, commit_ok], storeArrival_rxne h v s, storeArrival_txe h v s,
    fun a => Memory.read_write s.rxBuf hm _ a v, rfl⟩

/-- Settles O25: `N_RX − 1` pending is what the fill finds full. -/
theorem rxIsrOnFullQueueDropsByte : Obligations.RxIsrOnFullQueueDropsByte := by
  unfold Obligations.RxIsrOnFullQueueDropsByte
  intro s h tl v hw hr hd hh ht hhlt htlt hfull
  obtain rfl := ((succ_rx hw).full_iff hhlt htlt).mpr hfull
  have hfill := rxFill_drop hr hd hh ht
  exact ⟨_, hfill, by simp [State.rxne], by simp [State.txe], rfl, fun hf hq => by rw [exec_rxIsr hf hq, hfill, commit_ok]⟩

/-! ### The micro-steps of RX_POP -/

/-- RX.1 with a byte pending (42_receive.md rule R165). -/
theorem exec_rxPop_pending (hf : s.fault = .noFault) (hp : s.fgPhase = .idle) (hi : s.inited = true) (hh : s.rxHead = some h)
    (ht : s.rxTail = some tl) (hne : h ≠ tl) :
    exec .rxPop s = .next { s with fgPhase := .rx2, fgN := some (nextRx s.cfg tl) } := by
  have hok : rxPop1 s = .ok (fgGoto .rx2 { s with fgN := some (nextRx s.cfg tl) }) :=
    rxPop1_ok.mpr ⟨hi, h, tl, hh, ht, .inr ⟨hne, rfl⟩⟩
  simp [exec, execRxPop, whileLive_live hf, hp, hok, fgGoto]

/-- RX.2 (42_receive.md rule R165). -/
theorem exec_rxPop_take (hf : s.fault = .noFault) (hp : s.fgPhase = .rx2) (hn : s.fgN = some n) :
    exec .rxPop s = .next { s with fgPhase := .rx3, rxTail := some n } := by
  have hok : rxPop2 s = .ok (fgGoto .rx3 { s with rxTail := some n }) := rxPop2_ok.mpr ⟨n, hn, rfl⟩
  simp [exec, execRxPop, whileLive_live hf, hp, hok, fgGoto]

/-- RX.3 (42_receive.md rule R165). -/
theorem exec_rxPop_return (hf : s.fault = .noFault) (hp : s.fgPhase = .rx3) (hn : s.fgN = some n) (hlt : n.toNat < s.cfg.nRx)
    (hv : s.rxBuf.read n.toNat = some v) :
    exec .rxPop s =
      .next { s with
        respLog := s.respLog ++ [0x0100#16 ||| v.zeroExtend 16], fgPhase := .idle, fgPc := s.fgPc + 1, fgN := none, fgB := none } := by
  have hok : rxPop3 s = .ok (fgDone (respond (respWord true v) s)) := rxPop3_ok.mpr ⟨n, v, hn, hlt, hv, rfl⟩
  simp [exec, execRxPop, whileLive_live hf, hp, hok, fgDone, respond, respWord_true]

/-- Settles O32: the three micro-steps, each from a state that stands at its phase. -/
theorem rxPopMicroSteps : Obligations.RxPopMicroSteps := by
  unfold Obligations.RxPopMicroSteps
  intro s hf
  exact ⟨fun h tl hp hi hh ht hne => exec_rxPop_pending hf hp hi hh ht hne, fun n hp hn => exec_rxPop_take hf hp hn,
    fun n v hp hn hlt hv => exec_rxPop_return hf hp hn hlt hv⟩

/-- Settles O30: the three micro-steps, one after the other. -/
theorem rxPopReturnsOldestByte : Obligations.RxPopReturnsOldestByte := by
  unfold Obligations.RxPopReturnsOldestByte
  intro s h tl v hw hf hp hi hh ht hne hv
  have hfind := exec_rxPop_pending hf hp hi hh ht hne
  have htake := exec_rxPop_take (s := { s with fgPhase := .rx2, fgN := some (nextRx s.cfg tl) }) hf rfl rfl
  have hreturn := exec_rxPop_return
    (s := { s with fgPhase := .rx3, fgN := some (nextRx s.cfg tl), rxTail := some (nextRx s.cfg tl) }) hf rfl rfl (nextRx_lt hw tl) hv
  exact (execSteps_succ 2 hfind).trans <| (execSteps_succ 1 htake).trans <| execSteps_succ 0 hreturn

/-- Settles O31: RX.1 on an empty queue answers at once. -/
theorem rxPopOnEmptyQueueOnlyResponds : Obligations.RxPopOnEmptyQueueOnlyResponds := by
  unfold Obligations.RxPopOnEmptyQueueOnlyResponds
  intro s h hf hp hi hh ht
  have hok : rxPop1 s = .ok (fgDone (respond (respWord false 0x00#8) s)) := rxPop1_ok.mpr ⟨hi, h, h, hh, ht, .inl ⟨rfl, rfl⟩⟩
  simp [exec, execRxPop, whileLive_live hf, hp, hok, fgDone, respond, respWord]

end Sys2Proof.Machine

/-! PROOFS. The statements of 43_polling.md: `SERVICE` in the polled modes (rules R180 to R182) and in the interrupt modes (rules R183,
R184). -/

namespace Sys2Proof.Machine

open Sys2Proof

variable {s u : State}

/-! ### The two micro-steps of SERVICE -/

theorem exec_service_idle (hf : s.fault = .noFault) (hp : s.fgPhase = .idle) : exec .service s = commit s (serviceRx s) := by
  simp [exec, execService, whileLive_live hf, hp]

theorem exec_service_svcTx (hf : s.fault = .noFault) (hp : s.fgPhase = .svcTx) : exec .service s = commit s (serviceTx s) := by
  simp [exec, execService, whileLive_live hf, hp]

/-- SVC.RX before `INIT`, in every mode (43_polling.md rule R184). -/
theorem exec_service_notInit (hf : s.fault = .noFault) (hp : s.fgPhase = .idle) (hi : s.inited = false) :
    exec .service s = .next { s with fault := .notInit } := by
  have hraise : serviceRx s = .raises .notInit := by simp [serviceRx, hi]
  rw [exec_service_idle hf hp, hraise, commit_raises]

/-- SVC.RX with nothing to poll: interrupt mode, or no unread byte (43_polling.md rules R182, R183). -/
theorem exec_service_rxNone (hf : s.fault = .noFault) (hp : s.fgPhase = .idle) (hi : s.inited = true)
    (hno : ¬ (s.cfg.rxMode = .polled ∧ s.rxne = true)) : exec .service s = .next { s with fgPhase := .svcTx } := by
  rw [exec_service_idle hf hp, serviceRx_ok.mpr ⟨hi, s, rfl, .inr ⟨hno, rfl⟩⟩, commit_ok, fgGoto]

/-- SVC.RX with an unread byte in polled mode is the receive fill (43_polling.md rule R182). -/
theorem exec_service_rxFill (hf : s.fault = .noFault) (hp : s.fgPhase = .idle) (hi : s.inited = true)
    (hm : s.cfg.rxMode = .polled) (hr : s.rxne = true) (hu : rxFill s = .ok u) : exec .service s = .next (fgGoto .svcTx u) := by
  rw [exec_service_idle hf hp, serviceRx_ok.mpr ⟨hi, u, rfl, .inl ⟨hm, hr, hu⟩⟩, commit_ok]

/-- SVC.TX with nothing to poll: interrupt mode, or a byte being sent (43_polling.md rules R181, R183). -/
theorem exec_service_txNone (hf : s.fault = .noFault) (hp : s.fgPhase = .svcTx)
    (hno : ¬ (s.cfg.txMode = .polled ∧ s.txe = true)) : exec .service s = .next (fgDone s) := by
  rw [exec_service_svcTx hf hp, serviceTx_ok.mpr ⟨s, rfl, .inr ⟨hno, rfl⟩⟩, commit_ok]

/-- SVC.TX with the register empty in polled mode is the transmit drain (43_polling.md rule R181). -/
theorem exec_service_txDrain (hf : s.fault = .noFault) (hp : s.fgPhase = .svcTx) (hm : s.cfg.txMode = .polled) (hx : s.txe = true)
    (hu : txDrain s = .ok u) : exec .service s = .next (fgDone u) := by
  rw [exec_service_svcTx hf hp, serviceTx_ok.mpr ⟨u, rfl, .inl ⟨hm, hx, hu⟩⟩, commit_ok]

/-! ### The statements -/

/-- Settles O34: SVC.RX goes on at once, or fills the queue, which stores the byte or drops it. -/
theorem servicePollsReceive : Obligations.ServicePollsReceive := by
  unfold Obligations.ServicePollsReceive
  intro s h tl hw hbuf hm hf hp hi hh ht hhlt htlt
  refine ⟨fun hr => ?_, fun v hr hd hroom => ?_, fun v hr hd hfull => ?_⟩
  · exact exec_service_rxNone hf hp hi (by simp [hr])
  · have hne : nextRx s.cfg h ≠ tl := fun hfull => hroom.ne (((succ_rx hw).full_iff hhlt htlt).mp hfull)
    have hstore := rxFill_store hr hd hh ht hne (nextRx_lt hw h)
    exact ⟨_, exec_service_rxFill hf hp hi hm hr hstore, storeArrival_rxne h v s, storeArrival_txe h v s,
      fun a => Memory.read_write s.rxBuf hbuf _ a v, rfl⟩
  · obtain rfl := ((succ_rx hw).full_iff hhlt htlt).mpr hfull
    have hdrop := rxFill_drop hr hd hh ht
    exact ⟨_, exec_service_rxFill hf hp hi hm hr hdrop, by simp [State.rxne], by simp [State.txe], rfl⟩

/-- Settles O35: SVC.TX ends at once, or drains the queue, which disarms an empty one or sends the oldest byte. -/
theorem servicePollsTransmit : Obligations.ServicePollsTransmit := by
  unfold Obligations.ServicePollsTransmit
  intro s h tl hw hm hf hp hh ht htlt
  refine ⟨fun hx => ?_, fun hx heq => ?_, fun v hx hne hv => ?_⟩
  · exact exec_service_txNone hf hp (by simp [hx])
  · have hdisarm : txDrain s = .ok (disableTransmitInterrupt s) := txDrain_ok.mpr ⟨h, tl, hh, ht, .inl ⟨heq, rfl⟩⟩
    exact ⟨_, exec_service_txDrain hf hp hm hx hdisarm, by simp [State.txie], fun j hj => by simp [hj], rfl⟩
  · have hsend : txDrain s = .ok (sendOldest tl v s) :=
      txDrain_ok.mpr ⟨h, tl, hh, ht, .inr ⟨hne, nextTx_lt hw htlt, hx, v, hv, rfl⟩⟩
    exact ⟨_, exec_service_txDrain hf hp hm hx hsend, sendOldest_txe tl v s, sendOldest_rxne tl v s, rfl⟩

/-- Settles O33: in interrupt mode each micro-step has nothing to poll, and SVC.RX still checks `INITED`. -/
theorem serviceInInterruptModesChangesNothing : Obligations.ServiceInInterruptModesChangesNothing := by
  unfold Obligations.ServiceInInterruptModesChangesNothing
  intro s hf
  refine ⟨fun hrx hp hi => exec_service_rxNone hf hp hi (by simp [hrx]),
    fun htx hp => exec_service_txNone hf hp (by simp [htx]), fun htx hrx hp hi => ?_,
    fun hp hi => exec_service_notInit hf hp hi⟩
  have hfirst := exec_service_rxNone hf hp hi (by simp [hrx])
  have hsecond := exec_service_txNone (s := { s with fgPhase := .svcTx }) hf rfl (by simp [htx])
  exact (execSteps_succ 1 hfirst).trans (execSteps_succ 0 hsecond)

end Sys2Proof.Machine

/-! PROOFS. The statements of 44_peripheral_boundary.md: the data-register primitives (rules R195, R196), arming and disarming (R198,
R199), `TX_DONE` (R204) and `RX_ARRIVE` (R205 to R207). -/

namespace Sys2Proof.Machine

open Sys2Proof

variable {s : State}

/-! ### A bit written twice -/

section
variable {n : Nat} (w : BitVec n) (i : Nat)

@[simp] theorem setBit_setBit : setBit (setBit w i) i = setBit w i := by
  simp only [setBit, BitVec.or_assoc, BitVec.or_self]

@[simp] theorem clearBit_clearBit : clearBit (clearBit w i) i = clearBit w i := by
  simp only [clearBit, BitVec.and_assoc, BitVec.and_self]

end

theorem enableTransmitInterrupt_idem (s : State) :
    enableTransmitInterrupt (enableTransmitInterrupt s) = enableTransmitInterrupt s :=
  congrArg (fun c => { s with ctrl := c }) (setBit_setBit s.ctrl 3)

theorem disableTransmitInterrupt_idem (s : State) :
    disableTransmitInterrupt (disableTransmitInterrupt s) = disableTransmitInterrupt s :=
  congrArg (fun c => { s with ctrl := c }) (clearBit_clearBit s.ctrl 3)

/-! ### The guards of the two data registers -/

/-- The write's guard (44_peripheral_boundary.md rule R195). -/
theorem writeTransmitRegister_busy (b : Byte) (hx : s.txe = false) : writeTransmitRegister b s = .raises .txBusy := by
  simp [writeTransmitRegister, hx]

/-- The read's guard (44_peripheral_boundary.md rule R196). -/
theorem readReceiveRegister_empty (hr : s.rxne = false) : readReceiveRegister s = .raises .rxEmpty := by
  simp [readReceiveRegister, hr]

/-! ### The cases of an arrival -/

section
variable (r : Bool) (b : Byte)

/-- A disabled receiver discards the byte (44_peripheral_boundary.md rule R206). -/
theorem arrive_discard (he : s.rxEn = false) : arrive r b s = s := by
  simp [arrive, he]

/-- An enabled receiver with no unread byte latches the byte (44_peripheral_boundary.md rule R205). -/
theorem arrive_latch (he : s.rxEn = true) (hr : s.rxne = false) :
    arrive r b s = { s with rxData := some b, pstat := setBit s.pstat 1 } := by
  simp [arrive, he, hr]

/-- An enabled receiver with an unread byte is overrun (44_peripheral_boundary.md rule R207). -/
theorem arrive_overrun (he : s.rxEn = true) (hr : s.rxne = true) : arrive r b s = overrunArrival r b s := by
  simp [arrive, he, hr]

theorem overrunArrival_keepOld (ho : s.cfg.overrun = .keepOld) : overrunArrival r b s = s := by
  simp only [overrunArrival, ho]

theorem overrunArrival_replace (ho : s.cfg.overrun = .replace) : overrunArrival r b s = { s with rxData := some b } := by
  simp only [overrunArrival, ho]

theorem overrunArrival_draw (ho : s.cfg.overrun = .draw) :
    overrunArrival r b s = if r then { s with rxData := some b } else s := by
  simp only [overrunArrival, ho]

end

/-! ### The statements -/

/-- Settles O37: the byte taken off `RX_IN` meets one of the cases of an arrival, and an overrun one of its three policies. -/
theorem rxArriveLatchesDiscardsOrOverruns : Obligations.RxArriveLatchesDiscardsOrOverruns := by
  unfold Obligations.RxArriveLatchesDiscardsOrOverruns
  intro s b rest hf hin
  have harrive (r : Bool) : perRxArrive r s = .next (arrive r b { s with rxIn := rest }) :=
    perRxArrive_next.mpr ⟨hf, b, rest, hin, rfl⟩
  simp only [harrive]
  refine ⟨fun he r => congrArg _ (arrive_discard r b he), fun he hr r => ?_, fun he hr => ?_⟩
  · exact ⟨_, congrArg _ (arrive_latch r b he hr), by simp [State.rxne], by simp [State.txe], rfl⟩
  · have hover (r : Bool) : arrive r b { s with rxIn := rest } = overrunArrival r b { s with rxIn := rest } :=
      arrive_overrun r b he hr
    simp only [hover]
    exact ⟨fun ho r => congrArg _ (overrunArrival_keepOld r b ho), fun ho r => congrArg _ (overrunArrival_replace r b ho),
      fun ho => ⟨congrArg _ (overrunArrival_draw false b ho), congrArg _ (overrunArrival_draw true b ho)⟩⟩

/-- Settles O36: `TX_DONE` writes `LINE_OUT` and the bit `TXE`. -/
theorem txDonePutsByteOnLine : Obligations.TxDonePutsByteOnLine := by
  unfold Obligations.TxDonePutsByteOnLine
  intro s b hf hx hd
  exact ⟨_, perTxDone_next.mpr ⟨hf, hx, b, hd, rfl⟩, by simp [State.txe], by simp [State.rxne], rfl⟩

/-- Settles O38: both are writes of bit 3 of `CTRL`, and a bit written twice is written once. -/
theorem txieIsWrittenAsOneBit : Obligations.TxieIsWrittenAsOneBit := by
  unfold Obligations.TxieIsWrittenAsOneBit
  intro s
  exact ⟨by simp [State.txie], by simp [State.txie], fun j hj => ⟨by simp [hj], by simp [hj]⟩, rfl, rfl,
    enableTransmitInterrupt_idem s, disableTransmitInterrupt_idem s⟩

/-- Settles O39: each primitive stops at its guard or writes its flag's bit. -/
theorem dataRegisterPrimitives : Obligations.DataRegisterPrimitives := by
  unfold Obligations.DataRegisterPrimitives
  intro s b
  refine ⟨writeTransmitRegister_busy b, fun hx => ?_, readReceiveRegister_empty, fun hr hd => ?_⟩
  · exact ⟨_, writeTransmitRegister_ok.mpr ⟨hx, rfl⟩, by simp [State.txe], by simp [State.rxne], rfl⟩
  · exact ⟨_, readReceiveRegister_ok.mpr ⟨hr, hd, rfl⟩, by simp [State.rxne], by simp [State.txe], rfl⟩

end Sys2Proof.Machine

/-! PROOFS. The statements of 60_exceptions.md: a raised fault (rule R222) and its causes (rules R224, R225, and R226 by way of
70_reset_and_hazards.md rules R272 to R274), the refusals (R228), the two handlers (R232 to R235) and the power cycle (R245). -/

namespace Sys2Proof.Machine

open Sys2Proof

variable {s t u v : State} {e : Event} {b : Byte} {h tl : Index}

/-! ### No instruction runs in a faulted state -/

/-- Every meaning is guarded by `FAULT = NONE` (60_exceptions.md rule R222). -/
theorem live_of_exec {i : Instr} (hx : exec i s = .next t) : s.fault = .noFault := by
  cases i with
  | init k =>
    simp only [exec, execInit] at hx
    split at hx
    · exact (whileLive_next.mp hx).1
    · cases hx
  | txPush | rxPop | service | txIsr | rxIsr => exact (whileLive_next.mp hx).1

theorem noStep_of_faulted (hf : s.fault ≠ .noFault) : NoStep s := fun e => by simp [enabled, hf]

/-- A faulted machine stops at its faulted end (70_reset_and_hazards.md rule R281). -/
theorem step_faulted (hl : LaunchOk s) (hf : s.fault ≠ .noFault) (hp : powerCycleNext s = false) :
    step s = .fault (.faulted s) := by
  rw [step_of_launchOk hl, launchedStep_agent hp, agentStep, whileLive_faulted hf]

theorem step_powerCycle {rest : List Event} (hl : LaunchOk s) (hs : s.sched = .powerCycle :: rest) :
    step s = .next (powerCycle { s with sched := rest }) := by
  rw [step_of_launchOk hl, launchedStep_power hs]

/-- Settles O14: the power cycle is taken whatever the state, and keeps the parameters, the program and the streams. -/
theorem powerCycleRestoresPowerUp : Obligations.PowerCycleRestoresPowerUp := by
  unfold Obligations.PowerCycleRestoresPowerUp
  exact fun s rest hl hs => step_powerCycle hl hs

theorem txDrain_fault (hu : txDrain s = .ok u) : u.fault = s.fault := (congrArg State.fault (txDrain_frame hu) :)

theorem rxFill_fault (hu : rxFill s = .ok u) : u.fault = s.fault := (congrArg State.fault (rxFill_frame hu) :)

/-- An event but a power cycle keeps `FAULT`, or raises and changes nothing else (60_exceptions.md rule R222). -/
theorem Took.fault_kept_or_alone (ht : Took s e t) (he : e ≠ .powerCycle) : t.fault = s.fault ∨ t = { s with fault := t.fault } := by
  cases ht with
  | raised => exact .inr rfl
  | powerCycle => exact absurd rfl he
  | init => exact .inl (by rw [initStep_eq])
  | tx4 => exact .inl (by rw [armTransmit_eq]; rfl)
  | svcRxFill u _ _ _ _ _ hu => exact .inl (rxFill_fault hu :)
  | rxIsr u _ hu => exact .inl (rxFill_fault hu)
  | svcTxDrain u _ _ _ hu => exact .inl (txDrain_fault hu :)
  | txIsr u _ hu => exact .inl (txDrain_fault hu)
  | rxArrive r b rest =>
    obtain ⟨d, p, heq⟩ := arrive_eq r b { s with rxIn := rest }
    exact .inl (congrArg State.fault heq :)
  | txFull | tx1 | tx2 | tx3 | rxEmpty | rx1 | rx2 | rx3 | svcRxNone | svcTxNone | txDone => exact .inl rfl

/-- Settles O15: of an event's effects only the raising one changes `FAULT`; every agent and every instruction waits for
`FAULT = NONE`; the power cycle does not. -/
theorem raisedFaultIsAloneAndFinal : Obligations.RaisedFaultIsAloneAndFinal := by
  unfold Obligations.RaisedFaultIsAloneAndFinal
  refine ⟨fun s t hstep hp hne => ?_, fun s hf => ⟨noStep_of_faulted hf, fun i t hx => hf (live_of_exec hx)⟩,
    fun s hl hf hp => step_faulted hl hf hp, fun s rest hl hs => ⟨_, step_powerCycle hl hs, rfl⟩⟩
  obtain ⟨-, ⟨rest, hs, -⟩ | ⟨-, -, e, sc, d, he, ht⟩⟩ := step_next hstep
  · simp [powerCycleNext_iff.mpr ⟨rest, hs⟩] at hp
  · obtain hkept | halone := (took_of_takeEvent ht).fault_kept_or_alone (ne_powerCycle_of_enabled he)
    · exact absurd hkept hne
    · rw [halone]

/-! ### The causes of a fault -/

/-- TX.1 before `INIT` (60_exceptions.md rule R224). -/
theorem exec_txPush_notInit (hf : s.fault = .noFault) (hp : s.fgPhase = .idle) (hi : s.inited = false) :
    exec (.txPush b) s = .next { s with fault := .notInit } := by
  have hraise : txPush1 b s = .raises .notInit := by simp [txPush1, hi]
  simp [exec, execTxPush, whileLive_live hf, hp, hraise]

/-- RX.1 before `INIT` (60_exceptions.md rule R224). -/
theorem exec_rxPop_notInit (hf : s.fault = .noFault) (hp : s.fgPhase = .idle) (hi : s.inited = false) :
    exec .rxPop s = .next { s with fault := .notInit } := by
  have hraise : rxPop1 s = .raises .notInit := by simp [rxPop1, hi]
  simp [exec, execRxPop, whileLive_live hf, hp, hraise]

/-- Settles O16: each operation's first micro-step checks `INITED` before anything else. -/
theorem operationBeforeInitRaisesNotInit : Obligations.OperationBeforeInitRaisesNotInit := by
  unfold Obligations.OperationBeforeInitRaisesNotInit
  exact fun s b hf hp hi => ⟨exec_txPush_notInit hf hp hi, exec_rxPop_notInit hf hp hi, exec_service_notInit hf hp hi⟩

/-- FG's step at a handler's word (60_exceptions.md rule R225). -/
theorem fgStep_of_handler {w : CmdWord} {i : Instr} (hp : s.fgPhase = .idle) (hw : s.prog[s.fgPc]? = some w)
    (hd : decode w = some i) (hh : i.isHandler = true) : fgStep s = .next { s with fault := .context } := by
  simp [fgStep, fgDecode, hp, hw, hd, hh, raiseFault]

/-- The two handler words are the encodings of the two handlers (30_encoding.md rule R102). -/
theorem decode_handlerWord {w : CmdWord} (hw : w = 0x8000#16 ∨ w = 0x9000#16) : ∃ i, decode w = some i ∧ i.isHandler = true := by
  rcases hw with rfl | rfl
  · exact ⟨.txIsr, decode_encode .txIsr, rfl⟩
  · exact ⟨.rxIsr, decode_encode .rxIsr, rfl⟩

theorem txIrq_of_exec_txIsr (hx : exec .txIsr s = .next t) : s.txIrq = true := by
  by_contra hq
  simp [(handlerWithoutRequestHasNoStep s (live_of_exec hx)).1 (by simpa using hq)] at hx

theorem rxIrq_of_exec_rxIsr (hx : exec .rxIsr s = .next t) : s.rxIrq = true := by
  by_contra hq
  simp [(handlerWithoutRequestHasNoStep s (live_of_exec hx)).2 (by simpa using hq)] at hx

/-- Settles O5: FG is enabled at the word, which decodes to a handler; and a handler without its request has no step. -/
theorem handlerWordRaisesContext : Obligations.HandlerWordRaisesContext := by
  unfold Obligations.HandlerWordRaisesContext
  refine ⟨fun s rest w hl hf hs hp hw hhandler => ?_, fun _ _ => txIrq_of_exec_txIsr, fun _ _ => rxIrq_of_exec_rxIsr⟩
  obtain ⟨i, hd, hh⟩ := decode_handlerWord hhandler
  have he : enabled s .fg = true := enabled_fg_iff.mpr ⟨hf, .inr (List.getElem?_eq_some_iff.mp hw).1⟩
  calc step s = fgStep { s with sched := rest } := step_scheduled hl he hs
    _ = .next { s with sched := rest, fault := .context } := fgStep_of_handler hp hw hd hh

/-! ### The refusals -/

theorem config_wf_iff {c : Config} :
    c.wf = true ↔ 2 ≤ c.nTx ∧ c.nTx ≤ 256 ∧ c.nRx ∈ [2, 4, 8, 16, 32, 64, 128, 256] ∧ 1 ≤ c.nclk ∧ c.nclk ≤ 16 := by
  simp [Config.wf, rxSizes, and_assoc]

theorem instr_wf_eq_false_iff {c : Config} {i : Instr} : i.wf c = false ↔ ∃ k, i = .init k ∧ c.nclk ≤ k.toNat := by
  cases i <;> simp [Instr.wf]

/-- `PROG` holds an `INIT` of an unsupported clock (30_encoding.md rule R106). -/
theorem clocksSupported_eq_false_iff :
    clocksSupported s = false ↔ ∃ w ∈ s.prog, ∃ k, decode w = some (.init k) ∧ s.cfg.nclk ≤ k.toNat := by
  rw [clocksSupported, List.all_eq_false]
  refine exists_congr fun w => and_congr_right fun _ => ?_
  cases hd : decode w with
  | none => simp
  | some i => simp [instr_wf_eq_false_iff]

/-- A supported program's `INIT`s name supported clocks (30_encoding.md rule R106). -/
theorem clock_lt_of_supported {k : BitVec 4} (hl : clocksSupported s = true) (hc : currentInstr s = some (.init k)) :
    k.toNat < s.cfg.nclk := by
  obtain ⟨w, hw, hd⟩ := Option.bind_eq_some_iff.mp hc
  by_contra hk
  simp [clocksSupported_eq_false_iff.mpr ⟨w, List.mem_of_getElem? hw, k, hd, by omega⟩] at hl

theorem whileLive_refused {act : Host.Outcome State Fault Refusal} {r : Refusal} (hx : whileLive s act = .refused r) :
    act = .refused r := by
  by_cases hf : s.fault = .noFault
  · rwa [whileLive_live hf] at hx
  · simp [whileLive_faulted hf] at hx

/-- Only an `INIT` of an unsupported clock is refused by its meaning (30_encoding.md rule R106; log entry 24). -/
theorem exec_refused {i : Instr} {r : Refusal} (hx : exec i s = .refused r) : ∃ k, i = .init k ∧ s.cfg.nclk ≤ k.toNat := by
  cases i with
  | init k =>
    refine ⟨k, rfl, not_lt.mp fun hk => ?_⟩
    rw [← toNat_clockIndex] at hk
    simp only [exec, execInit, if_pos hk] at hx
    have hx := whileLive_refused hx
    split at hx <;> cases hx
  | txPush | rxPop | service | txIsr | rxIsr =>
    have hx := whileLive_refused hx
    split at hx <;> simp [commit_refused] at hx

theorem fgContinue_ne_refused {r : Refusal} : fgContinue s ≠ .refused r := by
  unfold fgContinue
  split <;> simp [commit_refused]

/-- Once launched, FG's decoded `INIT` names a supported clock, so its step is not refused. -/
theorem fgStep_ne_refused {r : Refusal} (hl : clocksSupported s = true) : fgStep s ≠ .refused r := by
  intro hx
  by_cases hp : s.fgPhase = .idle
  · cases hw : s.prog[s.fgPc]? with
    | none => simp [fgStep, hp, hw] at hx
    | some w =>
      cases hd : decode w with
      | none => simp [fgStep_of_decode_none hp hw hd] at hx
      | some i =>
        cases hh : i.isHandler with
        | true => simp [fgStep_of_handler hp hw hd hh] at hx
        | false =>
          rw [fgStep_of_decode hp hw hd hh] at hx
          obtain ⟨k, rfl, hk⟩ := exec_refused hx
          exact hk.not_gt (clock_lt_of_supported hl (by simp [currentInstr, hw, hd]))
  · rw [fgStep_inside hp] at hx
    exact fgContinue_ne_refused hx

/-- Once launched, no event is refused. -/
theorem takeEvent_ne_refused {r : Refusal} (hl : clocksSupported s = true) : takeEvent e s ≠ .refused r := by
  intro hx
  cases e with
  | fg => exact fgStep_ne_refused hl hx
  | txIsr => simpa using exec_refused (i := .txIsr) hx
  | rxIsr => simpa using exec_refused (i := .rxIsr) hx
  | txDone =>
    have hx := whileLive_refused hx
    split at hx <;> simp [commit_refused] at hx
  | rxArrive r =>
    have hx := whileLive_refused hx
    split at hx <;> cases hx
  | powerCycle => cases hx

/-- A step is refused by the launch check alone (60_exceptions.md rule R228). -/
theorem step_refused_iff {r : Refusal} : step s = .refused r ↔ launchRefusal s = some r := by
  constructor
  · intro hx
    cases hr : launchRefusal s with
    | some r' => simpa [step, hr] using hx
    | none =>
      obtain ⟨hn, -⟩ | ⟨-, rest, -, hnext⟩ | ⟨hl, -, hagent⟩ := step_cases hx
      · exact absurd (launchRefusal_none.mp hr) hn
      · cases hnext
      · obtain ⟨-, hx⟩ | ⟨-, -, hx⟩ | ⟨-, e, sc, d, -, hx⟩ := agentStep_cases hagent
        · cases hx
        · cases hx
        · exact absurd hx.symm (takeEvent_ne_refused (s := { s with sched := sc, draws := d }) hl.2)
  · intro hr
    simp [step, hr]

/-- The launch check's answer names the reason it found (60_exceptions.md rule R228; log entry 12). -/
theorem launchRefusal_eq_some_iff {r : Refusal} :
    launchRefusal s = some r ↔
      (s.cfg.wf = false ∧ r = .refConfig) ∨ (s.cfg.wf = true ∧ clocksSupported s = false ∧ r = .refClock) := by
  unfold launchRefusal
  cases s.cfg.wf <;> cases clocksSupported s <;> simp [eq_comm]

/-- Settles O11: the launch check alone refuses, and its two tests are the two reasons. -/
theorem onlyIllegalLaunchesAreRefused : Obligations.OnlyIllegalLaunchesAreRefused := by
  unfold Obligations.OnlyIllegalLaunchesAreRefused
  intro s legal unsupported
  have hlegal : ¬ legal ↔ s.cfg.wf = false := by rw [← Bool.not_eq_true, config_wf_iff]
  have hunsupported : unsupported ↔ clocksSupported s = false := clocksSupported_eq_false_iff.symm
  simp only [hlegal, hunsupported, ne_eq, step_refused_iff, launchRefusal_eq_some_iff]
  cases s.cfg.wf <;> simp

/-! ### The two handlers -/

/-- The drain leaves `RXNE` (41_transmit.md rule R145). -/
theorem txDrain_rxne (hu : txDrain s = .ok u) : u.rxne = s.rxne := by
  obtain ⟨-, -, -, -, ⟨-, rfl⟩ | ⟨-, -, -, -, -, rfl⟩⟩ := txDrain_ok.mp hu
  · rfl
  · simp [State.rxne]

/-- The fill leaves `TXE` (42_receive.md rule R161). -/
theorem rxFill_txe (hv : rxFill s = .ok v) : v.txe = s.txe := by
  obtain ⟨-, -, -, -, -, -, -, ⟨-, rfl⟩ | ⟨-, -, rfl⟩⟩ := rxFill_ok.mp hv
  · simp [State.txe]
  · simp [State.txe]

/-- The drain leaves every bit of `CTRL` but `TXIE` (41_transmit.md rule R145). -/
theorem txDrain_getLsbD (hu : txDrain s = .ok u) {j : Nat} (hj : j ≠ 3) : u.ctrl.getLsbD j = s.ctrl.getLsbD j := by
  obtain hc | ⟨-, hc⟩ := txDrain_ctrl hu
  · rw [hc]
  · simp [hc, hj]

/-- Settles O28: a raised fault writes `FAULT` alone, and the two bodies keep within their frames. -/
theorem handlersTouchOnlyTheirQueue : Obligations.HandlersTouchOnlyTheirQueue := by
  unfold Obligations.HandlersTouchOnlyTheirQueue
  refine ⟨fun s t hx => ?_, fun s t hx => ?_⟩
  · cases took_of_takeEvent (e := .txIsr) hx with
    | raised => exact ⟨rfl, rfl, fun _ _ => rfl⟩
    | txIsr _ _ hu => exact ⟨by rw [txDrain_frame hu], txDrain_rxne hu, fun _ => txDrain_getLsbD hu⟩
  · cases took_of_takeEvent (e := .rxIsr) hx with
    | raised => exact ⟨rfl, rfl⟩
    | rxIsr _ _ hu => exact ⟨by rw [rxFill_frame hu], rxFill_txe hu⟩

/-- Settles O8: the request is the handler's enabling condition. -/
theorem stepRunsRequestedHandler : Obligations.StepRunsRequestedHandler := by
  unfold Obligations.StepRunsRequestedHandler
  exact fun s rest hl hf => ⟨fun hq hs => step_scheduled hl (by simp [enabled, hf, hq]) hs,
    fun hq hs => step_scheduled hl (by simp [enabled, hf, hq]) hs⟩

theorem clearBit_comm {n : Nat} (w : BitVec n) (i j : Nat) : clearBit (clearBit w i) j = clearBit (clearBit w j) i := by
  unfold clearBit
  ac_rfl

/-- The drain reads and writes the transmit direction and `TXE`, the fill the receive direction and `RXNE`: in either order each finds
what it would have found first (60_exceptions.md rule R232). -/
theorem txDrain_rxFill_comm (hu : txDrain s = .ok u) (hv : rxFill s = .ok v) : ∃ t, rxFill u = .ok t ∧ txDrain v = .ok t := by
  have hr := txDrain_rxne hu
  have hx := rxFill_txe hv
  obtain ⟨h, tl, hh, ht, ⟨heq, rfl⟩ | ⟨hne, hlt, hs, c, hc, rfl⟩⟩ := txDrain_ok.mp hu <;>
    obtain ⟨hq, b, h', tl', hd, hh', ht', ⟨hfull, rfl⟩ | ⟨hroom, hlt', rfl⟩⟩ := rxFill_ok.mp hv
  · exact ⟨_, rxFill_ok.mpr ⟨hr.trans hq, b, h', tl', hd, hh', ht', .inl ⟨hfull, rfl⟩⟩,
      txDrain_ok.mpr ⟨h, tl, hh, ht, .inl ⟨heq, rfl⟩⟩⟩
  · exact ⟨_, rxFill_ok.mpr ⟨hr.trans hq, b, h', tl', hd, hh', ht', .inr ⟨hroom, hlt', rfl⟩⟩,
      txDrain_ok.mpr ⟨h, tl, hh, ht, .inl ⟨heq, rfl⟩⟩⟩
  · exact ⟨_, rxFill_ok.mpr ⟨hr.trans hq, b, h', tl', hd, hh', ht', .inl ⟨hfull, rfl⟩⟩,
      txDrain_ok.mpr ⟨h, tl, hh, ht, .inr ⟨hne, hlt, hx.trans hs, c, hc, by rw [clearBit_comm]⟩⟩⟩
  · exact ⟨_, rxFill_ok.mpr ⟨hr.trans hq, b, h', tl', hd, hh', ht', .inr ⟨hroom, hlt', rfl⟩⟩,
      txDrain_ok.mpr ⟨h, tl, hh, ht, .inr ⟨hne, hlt, hx.trans hs, c, hc, by rw [clearBit_comm]⟩⟩⟩

/-! ### The bodies run -/

/-- The oldest pending byte of the transmit queue is written (70_reset_and_hazards.md rule R272). -/
theorem TxQueue.oldest_written (q : TxQueue s h tl) (hw : s.cfg.wf = true) (hne : h ≠ tl) :
    ∃ v, s.txBuf.read (nextTx s.cfg tl).toNat = some v := by
  refine Option.isSome_iff_exists.mp (q.written _ ?_)
  rw [pending_tail (succ_tx hw) q.headLt q.tailLt hne]
  exact List.mem_cons_self

/-- The drain meets no guard while the register is empty (70_reset_and_hazards.md rule R272). -/
theorem TxQueue.txDrain_runs (q : TxQueue s h tl) (hw : s.cfg.wf = true) (hx : s.txe = true) : ∃ u, txDrain s = .ok u := by
  by_cases heq : h = tl
  · exact ⟨_, txDrain_ok.mpr ⟨h, tl, q.head, q.tail, .inl ⟨heq, rfl⟩⟩⟩
  · obtain ⟨v, hv⟩ := q.oldest_written hw heq
    exact ⟨_, txDrain_ok.mpr ⟨h, tl, q.head, q.tail, .inr ⟨heq, nextTx_lt hw q.tailLt, hx, v, hv, rfl⟩⟩⟩

/-- The fill meets no guard while a byte is unread (70_reset_and_hazards.md rule R273). -/
theorem RxQueue.rxFill_runs (q : RxQueue s h tl) (hw : s.cfg.wf = true) (hr : s.rxne = true) (hd : s.rxData.isSome = true) :
    ∃ u, rxFill s = .ok u := by
  obtain ⟨v, hv⟩ := Option.isSome_iff_exists.mp hd
  by_cases hfull : nextRx s.cfg h = tl
  · exact ⟨_, rxFill_drop hr hv q.head (hfull ▸ q.tail)⟩
  · exact ⟨_, rxFill_store hr hv q.head q.tail hfull (nextRx_lt hw h)⟩

theorem Inv.txDrain_runs (hi : Inv s) (hw : s.cfg.wf = true) (hn : s.inited = true) (hx : s.txe = true) : ∃ u, txDrain s = .ok u := by
  obtain ⟨h, tl, q⟩ := (hi.afterInit hn).tx
  exact q.txDrain_runs hw hx

theorem Inv.rxFill_runs (hi : Inv s) (hw : s.cfg.wf = true) (hn : s.inited = true) (hr : s.rxne = true) : ∃ u, rxFill s = .ok u := by
  obtain ⟨h, tl, q⟩ := (hi.afterInit hn).rx
  exact q.rxFill_runs hw hr (hi.rxData hr)

/-- A handler's request shows an initialized machine whose queue it can serve. -/
theorem Inv.txDrain_of_txIrq (hi : Inv s) (hw : s.cfg.wf = true) (hq : s.txIrq = true) : ∃ u, txDrain s = .ok u :=
  hi.txDrain_runs hw (hi.inited_of_txIrq hq) (Bool.and_eq_true_iff.mp hq).2

theorem Inv.inited_of_rxIrq (hi : Inv s) (hq : s.rxIrq = true) : s.inited = true :=
  hi.inited_of_ne_powerUp State.rxIrq (hq.trans_ne (by simp [State.rxIrq, State.rxie, State.powerUp]))

theorem Inv.rxFill_of_rxIrq (hi : Inv s) (hw : s.cfg.wf = true) (hq : s.rxIrq = true) : ∃ u, rxFill s = .ok u :=
  hi.rxFill_runs hw (hi.inited_of_rxIrq hq) (Bool.and_eq_true_iff.mp hq).2

/-- Settles O29: the invariant lets both bodies run, neither takes the other's request away, and they commute. -/
theorem handlersCommute : Obligations.HandlersCommute := by
  unfold Obligations.HandlersCommute
  intro s hi hw hf htx hrx
  obtain ⟨u, hu⟩ := hi.txDrain_of_txIrq hw htx
  obtain ⟨v, hv⟩ := hi.rxFill_of_rxIrq hw hrx
  obtain ⟨t, ht, ht'⟩ := txDrain_rxFill_comm hu hv
  have hrx' : u.rxIrq = true := by
    rw [State.rxIrq, State.rxie, txDrain_getLsbD hu (by decide), txDrain_rxne hu]
    exact hrx
  have htx' : v.txIrq = true := by
    rw [State.txIrq, rxFill_txe hv, rxFill_frame hv]
    exact htx
  refine ⟨u, v, t, ?_, ?_, ?_, ?_⟩
  · rw [exec_txIsr hf htx, hu, commit_ok]
  · rw [exec_rxIsr ((txDrain_fault hu).trans hf) hrx', ht, commit_ok]
  · rw [exec_rxIsr hf hrx, hv, commit_ok]
  · rw [exec_txIsr ((rxFill_fault hv).trans hf) htx', ht', commit_ok]

/-! ### The guards are unreachable -/

/-- The faults a program can raise by its words alone: `NONE`, `ILLEGAL_OP`, `NOT_INIT` and `CONTEXT`, no guard's
(60_exceptions.md rule R226). -/
def FaultCode.NoGuard (c : FaultCode) : Prop := c = .noFault ∨ c = .illegalOp ∨ c = .notInit ∨ c = .context

/-- The step is taken and meets no guard. -/
def Proceeds (o : Host.Outcome State Fault Refusal) : Prop := ∃ t, o = .next t ∧ t.fault.NoGuard

theorem Proceeds.live {o : Host.Outcome State Fault Refusal} (ho : o = .next t) (hf : t.fault = .noFault) : Proceeds o :=
  ⟨t, ho, .inl hf⟩

theorem Proceeds.illegalOp {o : Host.Outcome State Fault Refusal} (ho : o = .next { s with fault := .illegalOp }) : Proceeds o :=
  ⟨_, ho, .inr (.inl rfl)⟩

theorem Proceeds.notInit {o : Host.Outcome State Fault Refusal} (ho : o = .next { s with fault := .notInit }) : Proceeds o :=
  ⟨_, ho, .inr (.inr (.inl rfl))⟩

theorem Proceeds.context {o : Host.Outcome State Fault Refusal} (ho : o = .next { s with fault := .context }) : Proceeds o :=
  ⟨_, ho, .inr (.inr (.inr rfl))⟩

/-- TX.1 (70_reset_and_hazards.md rule R272). -/
theorem Inv.txPush_proceeds (hi : Inv s) (hf : s.fault = .noFault) (hp : s.fgPhase = .idle) : Proceeds (exec (.txPush b) s) := by
  cases hn : s.inited with
  | false => exact .notInit (exec_txPush_notInit hf hp hn)
  | true =>
    obtain ⟨h, tl, q⟩ := (hi.afterInit hn).tx
    by_cases hfull : nextTx s.cfg h = tl
    · exact .live (exec_txPush_full hf hp hn q.head (hfull ▸ q.tail)) hf
    · exact .live (exec_txPush_room hf hp hn q.head q.tail hfull) hf

/-- RX.1 (70_reset_and_hazards.md rule R273). -/
theorem Inv.rxPop_proceeds (hi : Inv s) (hf : s.fault = .noFault) (hp : s.fgPhase = .idle) : Proceeds (exec .rxPop s) := by
  cases hn : s.inited with
  | false => exact .notInit (exec_rxPop_notInit hf hp hn)
  | true =>
    obtain ⟨h, tl, q⟩ := (hi.afterInit hn).rx
    by_cases hempty : h = tl
    · exact .live (rxPopOnEmptyQueueOnlyResponds s h hf hp hn q.head (hempty ▸ q.tail)) hf
    · exact .live (exec_rxPop_pending hf hp hn q.head q.tail hempty) hf

/-- SVC.RX (70_reset_and_hazards.md rule R273). -/
theorem Inv.service_proceeds (hi : Inv s) (hw : s.cfg.wf = true) (hf : s.fault = .noFault) (hp : s.fgPhase = .idle) :
    Proceeds (exec .service s) := by
  cases hn : s.inited with
  | false => exact .notInit (exec_service_notInit hf hp hn)
  | true =>
    by_cases hpoll : s.cfg.rxMode = .polled ∧ s.rxne = true
    · obtain ⟨u, hu⟩ := hi.rxFill_runs hw hn hpoll.2
      exact .live (exec_service_rxFill hf hp hn hpoll.1 hpoll.2 hu) ((rxFill_fault hu).trans hf)
    · exact .live (exec_service_rxNone hf hp hn hpoll) hf

/-- Between operations FG decodes its word, and whatever the word, its step is taken (60_exceptions.md rules R223 to R226). -/
theorem Inv.fgStep_idle_proceeds (hi : Inv s) (hl : LaunchOk s) (hf : s.fault = .noFault) (hp : s.fgPhase = .idle)
    (hpc : s.fgPc < s.prog.length) : Proceeds (fgStep s) := by
  have hword := List.getElem?_eq_getElem hpc
  cases hd : decode s.prog[s.fgPc] with
  | none => exact .illegalOp (fgStep_of_decode_none hp hword hd)
  | some i =>
    cases hh : i.isHandler with
    | true => exact .context (fgStep_of_handler hp hword hd hh)
    | false =>
      rw [fgStep_of_decode hp hword hd hh]
      cases i with
      | init k =>
        have hk := clock_lt_of_supported hl.2 (k := k) (by simp [currentInstr, hword, hd])
        exact .live (exec_init hf hp hk) (by rw [initStep_eq]; exact hf)
      | txPush b => exact hi.txPush_proceeds hf hp
      | rxPop => exact hi.rxPop_proceeds hf hp
      | service => exact hi.service_proceeds hl.1 hf hp
      | txIsr | rxIsr => cases hh

/-- Inside an operation the locals and the cell of `FG_N` are what the micro-step needs (70_reset_and_hazards.md rules R272, R273). -/
theorem Inv.fgContinue_proceeds (hi : Inv s) (hw : s.cfg.wf = true) (hf : s.fault = .noFault) (hp : s.fgPhase ≠ .idle) :
    Proceeds (fgContinue s) := by
  have hn := hi.inited_of_inside hp
  obtain ⟨h, tl, qt⟩ := (hi.afterInit hn).tx
  obtain ⟨h', tl', qr⟩ := (hi.afterInit hn).rx
  cases hphase : s.fgPhase with
  | idle => exact absurd hphase hp
  | tx2 =>
    have hprog := hi.inProgress
    obtain ⟨b, -, hb⟩ : ∃ b, currentInstr s = some (.txPush b) ∧ s.fgB = some b := by simpa [InProgress, hphase] using hprog
    rw [fgContinue_eq_txPush hf (by simp [hphase]) b]
    exact .live (exec_txPush_store hf hphase (qt.atTx2 hphase).1 hb (nextTx_lt hw qt.headLt)) hf
  | tx3 =>
    rw [fgContinue_eq_txPush hf (by simp [hphase]) 0]
    exact .live (exec_txPush_publish hf hphase (qt.atTx3 hphase).1) hf
  | tx4 =>
    rw [fgContinue_eq_txPush hf (by simp [hphase]) 0]
    exact .live (exec_txPush_arm hf hphase) (by rw [armTransmit_eq]; exact hf)
  | rx2 =>
    rw [fgContinue_eq_rxPop hf (by simp [hphase])]
    exact .live (exec_rxPop_take hf hphase (qr.atRx2 hphase).1) hf
  | rx3 =>
    obtain ⟨hN, hcell⟩ := qr.atRx3 hphase
    obtain ⟨v, hv⟩ := Option.isSome_iff_exists.mp hcell
    rw [fgContinue_eq_rxPop hf (by simp [hphase])]
    exact .live (exec_rxPop_return hf hphase hN qr.tailLt hv) hf
  | svcTx =>
    rw [fgContinue_eq_service hf hphase]
    by_cases hpoll : s.cfg.txMode = .polled ∧ s.txe = true
    · obtain ⟨u, hu⟩ := qt.txDrain_runs hw hpoll.2
      exact .live (exec_service_txDrain hf hphase hpoll.1 hpoll.2 hu) ((txDrain_fault hu).trans hf)
    · exact .live (exec_service_txNone hf hphase hpoll) hf

/-- Progress: from the invariant an enabled step is taken, and meets no guard (70_reset_and_hazards.md rules R272 to R274). -/
theorem Inv.takeEvent_proceeds (hi : Inv s) (hl : LaunchOk s) (he : enabled s e = true) : Proceeds (takeEvent e s) := by
  have hf := fault_of_enabled he
  cases e with
  | fg =>
    by_cases hp : s.fgPhase = .idle
    · exact hi.fgStep_idle_proceeds hl hf hp ((enabled_fg_iff.mp he).2.resolve_left (absurd hp))
    · rw [takeEvent, fgStep_inside hp]
      exact hi.fgContinue_proceeds hl.1 hf hp
  | txIsr =>
    have hq : s.txIrq = true := (Bool.and_eq_true_iff.mp he).2
    obtain ⟨u, hu⟩ := hi.txDrain_of_txIrq hl.1 hq
    exact .live (by rw [takeEvent, exec_txIsr hf hq, hu, commit_ok]) ((txDrain_fault hu).trans hf)
  | rxIsr =>
    have hq : s.rxIrq = true := (Bool.and_eq_true_iff.mp he).2
    obtain ⟨u, hu⟩ := hi.rxFill_of_rxIrq hl.1 hq
    exact .live (by rw [takeEvent, exec_rxIsr hf hq, hu, commit_ok]) ((rxFill_fault hu).trans hf)
  | txDone =>
    have hx := (enabled_txDone_iff.mp he).2
    obtain ⟨b, hb⟩ := Option.isSome_iff_exists.mp (hi.txData hx)
    exact .live (perTxDone_next.mpr ⟨hf, hx, b, hb, rfl⟩) hf
  | rxArrive r =>
    obtain ⟨b, rest, hin⟩ := List.exists_cons_of_ne_nil (enabled_rxArrive_iff.mp he).2
    obtain ⟨d, p, heq⟩ := arrive_eq r b { s with rxIn := rest }
    exact .live (perRxArrive_next.mpr ⟨hf, b, rest, hin, rfl⟩) (by rw [heq]; exact hf)
  | powerCycle => simp [enabled_not_power] at he

/-- Everything a step can come to from the invariant: a refused launch, one of the two ends of a run, or a step that is taken and meets
no guard. -/
theorem Inv.step_proceeds (hi : Inv s) :
    (∃ r, step s = .refused r) ∨ step s = .fault (.faulted s) ∨ step s = .fault (.runEnded s) ∨ Proceeds (step s) := by
  obtain ⟨-, hrefused⟩ | ⟨-, rest, -, hcycle⟩ | ⟨hl, -, hagent⟩ := step_cases (s := s) rfl
  · exact .inl hrefused
  · exact .inr (.inr (.inr (.live hcycle rfl)))
  · obtain ⟨-, hend⟩ | ⟨-, -, hend⟩ | ⟨-, e, sc, d, he, htake⟩ := agentStep_cases hagent
    · exact .inr (.inl hend)
    · exact .inr (.inr (.inl hend))
    · exact .inr (.inr (.inr (htake ▸ (hi.sched sc d).takeEvent_proceeds hl he)))

/-- Settles O51: of what a step can come to from the invariant, only a step that meets no guard is a next state, and only the two ends
are stops. -/
theorem guardFaultsAreUnreachable : Obligations.GuardFaultsAreUnreachable := by
  unfold Obligations.GuardFaultsAreUnreachable
  refine ⟨fun s t hi _ hx => ?_, fun s hi => ?_⟩
  · obtain ⟨r, ho⟩ | ho | ho | ⟨u, ho, hu⟩ := hi.step_proceeds <;> rw [ho] at hx <;> cases hx
    exact hu
  · obtain ⟨r, ho⟩ | ho | ho | ⟨u, ho, -⟩ := hi.step_proceeds <;> simp [ho]

end Sys2Proof.Machine

/-! PROOFS. The statements of 70_reset_and_hazards.md: the machine's invariant is kept by every step (rules R272 to R274), a machine before
`INIT` (R262), the testable properties (R275), and the ends of a run (R281). -/

namespace Sys2Proof.Machine

open Sys2Proof

variable {s t u : State} {e : Event} {b v : Byte} {h tl n : Index}

/-! ### The invariant: the streams and the fault code -/

/-- The invariant speaks of neither `FAULT` nor the streams, which every machine may hold (70_reset_and_hazards.md rule R262). -/
theorem Inv.streams_inv (hi : Inv s) (f : FaultCode) (out rin : List Byte) (log : List RespWord) :
    Inv { s with fault := f, lineOut := out, rxIn := rin, respLog := log } where
  __ := hi
  beforeInit hn := by
    have hp := hi.beforeInit hn
    unfold AtPowerUp at hp ⊢
    rw [hp]
    rfl
  afterInit hn :=
    have ini := hi.afterInit hn
    have ⟨_, _, qt⟩ := ini.tx
    have ⟨_, _, qr⟩ := ini.rx
    { ini with tx := ⟨_, _, { qt with }⟩, rx := ⟨_, _, { qr with }⟩ }

/-! ### The invariant: the shared operations -/

/-- No byte is queued before `INIT`, and after it no queued byte is left unarmed (41_transmit.md rule R152). -/
theorem Inv.queuedIsArmed (hi : Inv s) : QueuedIsArmed s := by
  cases hn : s.inited with
  | true => exact (hi.afterInit hn).noLostWakeup
  | false =>
    rw [hi.beforeInit hn]
    exact fun _ _ hq => absurd rfl hq

/-- A state that has run `INIT` is not subject to what holds before it. -/
theorem AtPowerUp.of_inited (hn : s.inited = true) (hf : s.inited = false) : AtPowerUp s :=
  Bool.noConfusion (hn.symm.trans hf)

/-- The transmit queue between the indices that its registers hold (70_reset_and_hazards.md rule R272). -/
theorem Inv.txQueue (hi : Inv s) (hh : s.txHead = some h) (ht : s.txTail = some tl) : TxQueue s h tl := by
  obtain ⟨h', tl', q⟩ := (hi.afterInit (hi.inited_of_txHead hh)).tx
  obtain rfl : h' = h := Option.some.inj (q.head.symm.trans hh)
  obtain rfl : tl' = tl := Option.some.inj (q.tail.symm.trans ht)
  exact q

/-- The receive queue between the indices that its registers hold (70_reset_and_hazards.md rule R273). -/
theorem Inv.rxQueue (hi : Inv s) (hh : s.rxHead = some h) (ht : s.rxTail = some tl) : RxQueue s h tl := by
  obtain ⟨h', tl', q⟩ := (hi.afterInit (hi.inited_of_rxHead hh)).rx
  obtain rfl : h' = h := Option.some.inj (q.head.symm.trans hh)
  obtain rfl : tl' = tl := Option.some.inj (q.tail.symm.trans ht)
  exact q

/-- Writing `TXIE` and no other bit of `CTRL` (10_state.md rule R38). -/
theorem Inv.writeTxie_inv (hi : Inv s) (hn : s.inited = true) {c : BitVec 8} (hc : ∀ j, j ≠ 3 → c.getLsbD j = s.ctrl.getLsbD j)
    (hm : s.cfg.txMode = .polled → c.getLsbD 3 = false) (ha : QueuedIsArmed { s with ctrl := c }) : Inv { s with ctrl := c } := by
  obtain ⟨hte, hre, hrie, hini, hres⟩ := enables_congr (s := s) (t := { s with ctrl := c }) hc
  have ini := hi.afterInit hn
  obtain ⟨_, _, qt⟩ := ini.tx
  obtain ⟨_, _, qr⟩ := ini.rx
  exact
    { hi with
      ctrlReserved := hres.trans hi.ctrlReserved
      beforeInit := .of_inited (hini.trans hn)
      afterInit := fun _ =>
        { ini with
          txEn := hte.trans ini.txEn
          rxEn := hre.trans ini.rxEn
          rxie := hrie.trans ini.rxie
          polledTx := hm
          tx := ⟨_, _, { qt with }⟩
          rx := ⟨_, _, { qr with }⟩
          noLostWakeup := ha } }

/-- Disarming an empty queue (41_transmit.md rule R147). -/
theorem Inv.disarm_inv (hi : Inv s) (hn : s.inited = true) (hq : s.txHead = s.txTail) : Inv (disableTransmitInterrupt s) :=
  hi.writeTxie_inv hn (fun j hj => by simp [hj]) (fun _ => by simp) fun _ _ hne => absurd hq hne

/-- Arming (41_transmit.md rule R144). -/
theorem Inv.armTransmit_inv (hi : Inv s) (hn : s.inited = true) : Inv (armTransmit s) := by
  unfold armTransmit
  cases hm : s.cfg.txMode with
  | interrupt => exact hi.writeTxie_inv hn (fun j hj => by simp [hj]) (by simp [hm]) fun _ _ _ => by simp [State.txie]
  | polled => exact hi

/-- A byte taken off the transmit queue and given to the peripheral (41_transmit.md rule R145). -/
theorem Inv.sendOldest_inv (hi : Inv s) (hw : s.cfg.wf = true) (hh : s.txHead = some h) (ht : s.txTail = some tl) (hne : h ≠ tl)
    (v : Byte) : Inv (sendOldest tl v s) := by
  have hn := hi.inited_of_txHead hh
  have ini := hi.afterInit hn
  obtain ⟨_, _, qr⟩ := ini.rx
  exact
    { hi with
      txData := fun _ => rfl
      rxData := fun hr => hi.rxData ((sendOldest_rxne tl v s).symm.trans hr)
      beforeInit := .of_inited hn
      afterInit := fun _ =>
        { ini with
          tx := ⟨h, _, (hi.txQueue hh ht).take hw hne v⟩
          rx := ⟨_, _, { qr with }⟩
          noLostWakeup := fun hm hp _ => ini.noLostWakeup hm hp (by simpa [hh, ht] using hne) } }

/-- The drain (41_transmit.md rule R145). -/
theorem Inv.txDrain_inv (hi : Inv s) (hw : s.cfg.wf = true) (hu : txDrain s = .ok u) : Inv u := by
  obtain ⟨h, tl, hh, ht, ⟨rfl, rfl⟩ | ⟨hne, -, -, v, -, rfl⟩⟩ := txDrain_ok.mp hu
  · exact hi.disarm_inv (hi.inited_of_txHead hh) (hh.trans ht.symm)
  · exact hi.sendOldest_inv hw hh ht hne v

/-- `PSTAT.RXNE` cleared (42_receive.md rule R163). -/
theorem Inv.clearRxne_inv (hi : Inv s) (hn : s.inited = true) : Inv { s with pstat := clearBit s.pstat 1 } := by
  have ini := hi.afterInit hn
  obtain ⟨_, _, qt⟩ := ini.tx
  obtain ⟨_, _, qr⟩ := ini.rx
  exact
    { hi with
      txData := fun hx => hi.txData (by simpa [State.txe] using hx)
      rxData := fun hr => absurd hr (by simp [State.rxne])
      beforeInit := .of_inited hn
      afterInit := fun _ => { ini with tx := ⟨_, _, { qt with }⟩, rx := ⟨_, _, { qr with }⟩ } }

/-- A written cell holds a byte, and no other loses its own. -/
theorem Memory.isSome_read_write {m : Memory} (hm : m.wf) {j : Nat} (hj : (m.read j).isSome = true) (i : Nat) (v : Byte) :
    ((m.write i v).read j).isSome = true := by
  rw [Memory.read_write m hm]
  split
  · rfl
  · exact hj

/-- A fill with room publishes the cell it writes; a `RX_POP` in progress keeps its byte (70_reset_and_hazards.md rule R273). -/
theorem RxQueue.store (q : RxQueue s h tl) (hw : s.cfg.wf = true) (hm : s.rxBuf.wf) (hne : nextRx s.cfg h ≠ tl) (v : Byte) :
    RxQueue (storeArrival h v s) (nextRx s.cfg h) tl where
  head := rfl
  tail := q.tail
  headLt := nextRx_lt hw h
  tailLt := q.tailLt
  written i hi := by
    change i ∈ pendingFrom (nextRx s.cfg) (pendingCount s.cfg.nRx (nextRx s.cfg h) tl) tl at hi
    rw [pending_head (succ_rx hw) q.headLt q.tailLt hne, List.mem_append, List.mem_singleton] at hi
    obtain hi | rfl := hi
    · exact Memory.isSome_read_write hm (q.written i hi) _ v
    · exact congrArg Option.isSome (Memory.read_write_same s.rxBuf hm _ v)
  atRx2 hp := ⟨(q.atRx2 hp).1, hne⟩
  atRx3 hp := ⟨(q.atRx3 hp).1, Memory.isSome_read_write hm (q.atRx3 hp).2 _ v⟩

/-- A byte stored by the fill (42_receive.md rule R161). -/
theorem Inv.storeArrival_inv (hi : Inv s) (hw : s.cfg.wf = true) (hh : s.rxHead = some h) (ht : s.rxTail = some tl)
    (hne : nextRx s.cfg h ≠ tl) (v : Byte) : Inv (storeArrival h v s) := by
  have hn := hi.inited_of_rxHead hh
  have ini := hi.afterInit hn
  obtain ⟨_, _, qt⟩ := ini.tx
  have hm := memWrite_ok (m := s.rxBuf) (v := v) |>.mpr ⟨nextRx_lt hw h, rfl⟩
  exact
    { hi.clearRxne_inv hn with
      rxBufWf := memWrite_wf hi.rxBufWf hm
      rxBufIn := memWrite_in hi.rxBufIn hm
      beforeInit := .of_inited hn
      afterInit := fun _ =>
        { ini with tx := ⟨_, _, { qt with }⟩, rx := ⟨_, _, (hi.rxQueue hh ht).store hw hi.rxBufWf hne v⟩ } }

/-- The fill (42_receive.md rule R161). -/
theorem Inv.rxFill_inv (hi : Inv s) (hw : s.cfg.wf = true) (hu : rxFill s = .ok u) : Inv u := by
  obtain ⟨-, v, h, tl, -, hh, ht, ⟨-, rfl⟩ | ⟨hne, -, rfl⟩⟩ := rxFill_ok.mp hu
  · exact hi.clearRxne_inv (hi.inited_of_rxHead hh)
  · exact hi.storeArrival_inv hw hh ht hne v

/-! ### The invariant: the sequencer -/

/-- An operation is under way only inside the program. -/
theorem fgPc_lt (hc : (currentInstr s).isSome = true) : s.fgPc < s.prog.length := by
  obtain ⟨i, hc⟩ := Option.isSome_iff_exists.mp hc
  obtain ⟨w, hw, -⟩ := Option.bind_eq_some_iff.mp hc
  exact (List.getElem?_eq_some_iff.mp hw).1

/-- Inside a `TX_PUSH` the byte to be pushed is in `FG_B` (10_state.md rule R34). -/
theorem Inv.pushed_byte (hi : Inv s) (hp : s.fgPhase ∈ [Phase.tx2, .tx3, .tx4]) :
    ∃ b, currentInstr s = some (.txPush b) ∧ s.fgB = some b := by
  have hprog := hi.inProgress
  simp only [List.mem_cons, List.not_mem_nil, or_false] at hp
  rcases hp with hp | hp | hp <;> simpa only [InProgress, hp] using hprog

/-- Inside an operation FG is at that operation's word (10_state.md rules R34, R35). -/
theorem Inv.current_of_inside (hi : Inv s) (hp : s.fgPhase ≠ .idle) : (currentInstr s).isSome = true := by
  cases hphase : s.fgPhase with
  | idle => exact absurd hphase hp
  | tx2 | tx3 | tx4 =>
    obtain ⟨b, hc, -⟩ := hi.pushed_byte (by simp [hphase])
    simp [hc]
  | rx2 | rx3 | svcTx =>
    have hprog := hi.inProgress
    simp only [InProgress, hphase] at hprog
    simp [hprog]

/-- FG ends its operation (10_state.md rule R35). -/
theorem Inv.fgDone_inv (hi : Inv s) (hn : s.inited = true) (hc : (currentInstr s).isSome = true) (ha : QueuedIsArmed (fgDone s)) :
    Inv (fgDone s) := by
  have ini := hi.afterInit hn
  obtain ⟨_, _, qt⟩ := ini.tx
  obtain ⟨_, _, qr⟩ := ini.rx
  exact
    { hi with
      fgPcLe := fgPc_lt hc
      inProgress := ⟨rfl, rfl⟩
      beforeInit := .of_inited hn
      afterInit := fun _ =>
        { ini with
          tx := ⟨_, _, { qt with atTx2 := nofun, atTx3 := nofun, atTx4 := nofun }⟩
          rx := ⟨_, _, { qr with atRx2 := nofun, atRx3 := nofun }⟩
          noLostWakeup := ha } }

/-- The last micro-step of an operation of several. -/
theorem Inv.fgDone_inside_inv (hi : Inv s) (hp : s.fgPhase ≠ .idle) (ha : QueuedIsArmed (fgDone s)) : Inv (fgDone s) :=
  hi.fgDone_inv (hi.inited_of_inside hp) (hi.current_of_inside hp) ha

/-- FG's answer (30_encoding.md rule R108). -/
theorem Inv.respond_inv (hi : Inv s) (w : RespWord) : Inv (respond w s) := hi.streams_inv s.fault s.lineOut s.rxIn (s.respLog ++ [w])

/-- FG goes on from SVC.RX to SVC.TX (43_polling.md rule R180). -/
theorem Inv.gotoSvcTx_inv (hi : Inv s) (hn : s.inited = true) (hc : currentInstr s = some .service) (ha : QueuedIsArmed (fgGoto .svcTx s)) :
    Inv (fgGoto .svcTx s) := by
  have ini := hi.afterInit hn
  obtain ⟨_, _, qt⟩ := ini.tx
  obtain ⟨_, _, qr⟩ := ini.rx
  exact
    { hi with
      inProgress := hc
      beforeInit := .of_inited hn
      afterInit := fun _ =>
        { ini with
          tx := ⟨_, _, { qt with atTx2 := nofun, atTx3 := nofun, atTx4 := nofun }⟩
          rx := ⟨_, _, { qr with atRx2 := nofun, atRx3 := nofun }⟩
          noLostWakeup := ha } }

/-- TX.1 with room (41_transmit.md rule R141): the cell after the head is free. -/
theorem Inv.tx1_inv (hi : Inv s) (hc : currentInstr s = some (.txPush b)) (hh : s.txHead = some h)
    (ht : s.txTail = some tl) (hne : nextTx s.cfg h ≠ tl)
    (ha : QueuedIsArmed (fgGoto .tx2 { s with fgN := some (nextTx s.cfg h), fgB := some b })) :
    Inv (fgGoto .tx2 { s with fgN := some (nextTx s.cfg h), fgB := some b }) := by
  have hn := hi.inited_of_txHead hh
  have ini := hi.afterInit hn
  obtain ⟨_, _, qr⟩ := ini.rx
  exact
    { hi with
      inProgress := ⟨b, hc, rfl⟩
      beforeInit := .of_inited hn
      afterInit := fun _ =>
        { ini with
          tx := ⟨_, _, { hi.txQueue hh ht with atTx2 := fun _ => ⟨rfl, hne⟩, atTx3 := nofun, atTx4 := nofun }⟩
          rx := ⟨_, _, { qr with atRx2 := nofun, atRx3 := nofun }⟩
          noLostWakeup := ha } }

/-- TX.2 stores the byte in the cell that TX.3 publishes; every cell that held a byte still does (70_reset_and_hazards.md rule R272). -/
theorem TxQueue.store (q : TxQueue s h tl) (hm : s.txBuf.wf) (hp : s.fgPhase = .tx2) (hb : s.fgB = some b) :
    TxQueue (fgGoto .tx3 { s with txBuf := s.txBuf.write (nextTx s.cfg h).toNat b }) h tl :=
  { q with
    written := fun i hi => Memory.isSome_read_write hm (q.written i hi) _ b
    atTx2 := nofun
    atTx3 := fun _ => ⟨(q.atTx2 hp).1, (q.atTx2 hp).2, (Memory.read_write_same s.txBuf hm _ b).trans hb.symm⟩
    atTx4 := nofun }

/-- TX.2 (41_transmit.md rule R141). -/
theorem Inv.tx2_inv (hi : Inv s) (hp : s.fgPhase = .tx2) (hN : s.fgN = some n) (hb : s.fgB = some b) (hlt : n.toNat < s.cfg.nTx)
    (ha : QueuedIsArmed (fgGoto .tx3 { s with txBuf := s.txBuf.write n.toNat b })) :
    Inv (fgGoto .tx3 { s with txBuf := s.txBuf.write n.toNat b }) := by
  have hn := hi.inited_of_inside (by simp [hp])
  have ini := hi.afterInit hn
  obtain ⟨h, _, qt⟩ := ini.tx
  obtain ⟨_, _, qr⟩ := ini.rx
  obtain rfl : n = nextTx s.cfg h := Option.some.inj (hN.symm.trans (qt.atTx2 hp).1)
  have hm := memWrite_ok (m := s.txBuf) (v := b) |>.mpr ⟨hlt, rfl⟩
  exact
    { hi with
      txBufWf := memWrite_wf hi.txBufWf hm
      txBufIn := memWrite_in hi.txBufIn hm
      inProgress := hi.pushed_byte (by simp [hp])
      beforeInit := .of_inited hn
      afterInit := fun _ =>
        { ini with
          tx := ⟨_, _, qt.store hi.txBufWf hp hb⟩
          rx := ⟨_, _, { qr with atRx2 := nofun, atRx3 := nofun }⟩
          noLostWakeup := ha } }

/-- TX.3 publishes the cell that TX.2 stored the byte in (70_reset_and_hazards.md rule R272). -/
theorem TxQueue.publish (q : TxQueue s h tl) (hw : s.cfg.wf = true) (hp : s.fgPhase = .tx3) (hb : s.fgB = some b) :
    TxQueue (fgGoto .tx4 { s with txHead := some (nextTx s.cfg h) }) (nextTx s.cfg h) tl := by
  obtain ⟨hN, hne, hcell⟩ := q.atTx3 hp
  have hstored : (s.txBuf.read (nextTx s.cfg h).toNat).isSome = true := by simp [hcell, hb]
  refine
    { head := rfl, tail := q.tail, headLt := nextTx_lt hw q.headLt, tailLt := q.tailLt, written := fun i hi => ?_, atTx2 := nofun
      atTx3 := nofun, atTx4 := fun _ => ⟨hN, hstored⟩ }
  change i ∈ pendingFrom (nextTx s.cfg) (pendingCount s.cfg.nTx (nextTx s.cfg h) tl) tl at hi
  rw [pending_head (succ_tx hw) q.headLt q.tailLt hne, List.mem_append, List.mem_singleton] at hi
  obtain hi | rfl := hi
  · exact q.written i hi
  · exact hstored

/-- TX.3 (41_transmit.md rule R141). -/
theorem Inv.tx3_inv (hi : Inv s) (hw : s.cfg.wf = true) (hp : s.fgPhase = .tx3) (hN : s.fgN = some n)
    (ha : QueuedIsArmed (fgGoto .tx4 { s with txHead := some n })) : Inv (fgGoto .tx4 { s with txHead := some n }) := by
  have hn := hi.inited_of_inside (by simp [hp])
  have ini := hi.afterInit hn
  obtain ⟨h, _, qt⟩ := ini.tx
  obtain ⟨_, _, qr⟩ := ini.rx
  obtain rfl : n = nextTx s.cfg h := Option.some.inj (hN.symm.trans (qt.atTx3 hp).1)
  obtain ⟨b, hc, hb⟩ := hi.pushed_byte (by simp [hp])
  exact
    { hi with
      inProgress := ⟨b, hc, hb⟩
      beforeInit := .of_inited hn
      afterInit := fun _ =>
        { ini with
          tx := ⟨_, _, qt.publish hw hp hb⟩
          rx := ⟨_, _, { qr with atRx2 := nofun, atRx3 := nofun }⟩
          noLostWakeup := ha } }

/-- RX.1 with a byte pending (42_receive.md rule R165). -/
theorem Inv.rx1_inv (hi : Inv s) (hc : currentInstr s = some .rxPop) (hh : s.rxHead = some h)
    (ht : s.rxTail = some tl) (hne : h ≠ tl) (ha : QueuedIsArmed (fgGoto .rx2 { s with fgN := some (nextRx s.cfg tl) })) :
    Inv (fgGoto .rx2 { s with fgN := some (nextRx s.cfg tl) }) := by
  have hn := hi.inited_of_rxHead hh
  have ini := hi.afterInit hn
  obtain ⟨_, _, qt⟩ := ini.tx
  exact
    { hi with
      inProgress := hc
      beforeInit := .of_inited hn
      afterInit := fun _ =>
        { ini with
          tx := ⟨_, _, { qt with atTx2 := nofun, atTx3 := nofun, atTx4 := nofun }⟩
          rx := ⟨_, _, { hi.rxQueue hh ht with atRx2 := fun _ => ⟨rfl, hne⟩, atRx3 := nofun }⟩
          noLostWakeup := ha } }

/-- RX.2 takes the oldest byte, which RX.3 finds at the new tail (70_reset_and_hazards.md rule R273). -/
theorem RxQueue.take (q : RxQueue s h tl) (hw : s.cfg.wf = true) (hp : s.fgPhase = .rx2) :
    RxQueue (fgGoto .rx3 { s with rxTail := some (nextRx s.cfg tl) }) h (nextRx s.cfg tl) := by
  obtain ⟨hN, hne⟩ := q.atRx2 hp
  have hpend := pending_tail (succ_rx hw) q.headLt q.tailLt hne
  exact
    { head := q.head, tail := rfl, headLt := q.headLt, tailLt := nextRx_lt hw tl
      written := fun i hi => q.written i (hpend ▸ List.mem_cons_of_mem _ hi)
      atRx2 := nofun
      atRx3 := fun _ => ⟨hN, q.written _ (hpend ▸ List.mem_cons_self)⟩ }

/-- RX.2 (42_receive.md rule R165). -/
theorem Inv.rx2_inv (hi : Inv s) (hw : s.cfg.wf = true) (hp : s.fgPhase = .rx2) (hN : s.fgN = some n)
    (ha : QueuedIsArmed (fgGoto .rx3 { s with rxTail := some n })) : Inv (fgGoto .rx3 { s with rxTail := some n }) := by
  have hn := hi.inited_of_inside (by simp [hp])
  have ini := hi.afterInit hn
  obtain ⟨_, _, qt⟩ := ini.tx
  obtain ⟨_, tl, qr⟩ := ini.rx
  obtain rfl : n = nextRx s.cfg tl := Option.some.inj (hN.symm.trans (qr.atRx2 hp).1)
  have hc : currentInstr s = some .rxPop := by simpa [InProgress, hp] using hi.inProgress
  exact
    { hi with
      inProgress := hc
      beforeInit := .of_inited hn
      afterInit := fun _ =>
        { ini with
          tx := ⟨_, _, { qt with atTx2 := nofun, atTx3 := nofun, atTx4 := nofun }⟩
          rx := ⟨_, _, qr.take hw hp⟩
          noLostWakeup := ha } }

/-- `INIT` (40_line_controller.md rule R130): both queues empty, whatever stood in the buffers. -/
theorem Inv.initStep_inv (hi : Inv s) (hw : s.cfg.wf = true) {k : BitVec 4} (hc : currentInstr s = some (.init k))
    (hk : k.toNat < s.cfg.nclk) (ha : QueuedIsArmed (initStep k s)) : Inv (initStep k s) := by
  have htx := (wf_sizes hw).1
  have hrx := (wf_nRx hw).1
  have hrxie : (initStep k s).rxie = (s.cfg.rxMode == .interrupt) := by
    rw [initStep_rxie]
    cases hn : s.inited with
    | false =>
      have hoff : s.rxie = false := by
        rw [hi.beforeInit hn]
        simp [State.rxie, State.powerUp]
      rw [hoff, Bool.or_false, beq_eq_decide]
    | true => simp [(hi.afterInit hn).rxie]
  have hbits : (initStep k s).ctrlReserved = 0#3 := (initStep_ctrlReserved k s).trans hi.ctrlReserved
  have hini := initStep_inited k s
  have hte := initStep_txEn k s
  have hre := initStep_rxEn k s
  have htxie := initStep_txie k s
  rw [initStep_eq] at *
  exact
    { hi with
      ctrlReserved := hbits
      fgPcLe := fgPc_lt (by simp [hc])
      inProgress := ⟨rfl, rfl⟩
      beforeInit := .of_inited hini
      afterInit := fun _ =>
        { txEn := hte, rxEn := hre, rxie := hrxie, polledTx := fun _ => htxie, lineClk := ⟨k, rfl, hk⟩
          tx := ⟨0, 0, rfl, rfl, by simp; omega, by simp; omega, by simp [pendingCount, pendingFrom], nofun, nofun, nofun⟩
          rx := ⟨0, 0, rfl, rfl, by simp; omega, by simp; omega, by simp [pendingCount, pendingFrom], nofun, nofun⟩
          noLostWakeup := ha } }

/-! ### The invariant: the peripheral -/

/-- A byte is being sent after `INIT` only (70_reset_and_hazards.md rule R262). -/
theorem Inv.inited_of_busy (hi : Inv s) (hx : s.txe = false) : s.inited = true :=
  hi.inited_of_ne_powerUp State.txe (hx.trans_ne (by simp [State.txe, State.powerUp]))

/-- `TX_DONE` (44_peripheral_boundary.md rule R204). -/
theorem Inv.txDone_inv (hi : Inv s) (hx : s.txe = false) (b : Byte) :
    Inv { s with lineOut := s.lineOut ++ [b], pstat := setBit s.pstat 0 } := by
  have hn := hi.inited_of_busy hx
  have ini := hi.afterInit hn
  obtain ⟨_, _, qt⟩ := ini.tx
  obtain ⟨_, _, qr⟩ := ini.rx
  exact
    { hi with
      txData := fun hx' => absurd hx' (by simp [State.txe])
      rxData := fun hr => hi.rxData (by simpa [State.rxne] using hr)
      beforeInit := .of_inited hn
      afterInit := fun _ => { ini with tx := ⟨_, _, { qt with }⟩, rx := ⟨_, _, { qr with }⟩ } }

/-- A byte latched into `RXDATA`, with `RXNE` set or as it was (44_peripheral_boundary.md rules R205, R207). -/
theorem Inv.latch_inv (hi : Inv s) (hn : s.inited = true) (b : Byte) {p : BitVec 2} (hx : p.getLsbD 0 = s.txe) :
    Inv { s with rxData := some b, pstat := p } := by
  have ini := hi.afterInit hn
  obtain ⟨_, _, qt⟩ := ini.tx
  obtain ⟨_, _, qr⟩ := ini.rx
  exact
    { hi with
      txData := fun hx' => hi.txData (hx.symm.trans hx')
      rxData := fun _ => rfl
      beforeInit := .of_inited hn
      afterInit := fun _ => { ini with tx := ⟨_, _, { qt with }⟩, rx := ⟨_, _, { qr with }⟩ } }

/-- The receiver is enabled after `INIT` only (70_reset_and_hazards.md rule R262). -/
theorem Inv.inited_of_rxEn (hi : Inv s) (he : s.rxEn = true) : s.inited = true :=
  hi.inited_of_ne_powerUp State.rxEn (he.trans_ne (by simp [State.rxEn, State.powerUp]))

/-- An overrun keeps the unread byte or replaces it (44_peripheral_boundary.md rule R207). -/
theorem overrunArrival_cases (r : Bool) (b : Byte) (s : State) :
    overrunArrival r b s = s ∨ overrunArrival r b s = { s with rxData := some b } := by
  cases ho : s.cfg.overrun with
  | keepOld => exact .inl (overrunArrival_keepOld r b ho)
  | replace => exact .inr (overrunArrival_replace r b ho)
  | draw =>
    rw [overrunArrival_draw r b ho]
    cases r with
    | false => exact .inl rfl
    | true => exact .inr rfl

/-- `RX_ARRIVE` (44_peripheral_boundary.md rules R205 to R207). -/
theorem Inv.arrive_inv (hi : Inv s) (r : Bool) (b : Byte) : Inv (arrive r b s) := by
  cases he : s.rxEn with
  | false => rwa [arrive_discard r b he]
  | true =>
    have hn := hi.inited_of_rxEn he
    cases hr : s.rxne with
    | false =>
      rw [arrive_latch r b he hr]
      exact hi.latch_inv hn b (by simp [State.txe])
    | true =>
      rw [arrive_overrun r b he hr]
      obtain ho | ho := overrunArrival_cases r b s <;> rw [ho]
      · exact hi
      · exact hi.latch_inv hn b rfl

/-! ### The invariant: every step -/

/-- Every event keeps the invariant: the shared operations do, and so does each micro-step, which may end with one of them. -/
theorem Took.inv (hi : Inv s) (hw : s.cfg.wf = true) (ht : Took s e t) : Inv t := by
  have ha : QueuedIsArmed t := ht.queuedIsArmed hi.queuedIsArmed
  cases ht with
  | raised e c => exact hi.streams_inv c s.lineOut s.rxIn s.respLog
  | init k _ hc hk => exact hi.initStep_inv hw hc hk ha
  | txFull _ _ _ hc hn | rxEmpty _ _ hc hn => exact (hi.respond_inv _).fgDone_inv hn (Option.isSome_of_mem hc) ha
  | tx1 b h tl _ hc _ hh ht hne => exact hi.tx1_inv hc hh ht hne ha
  | tx2 n b hp hN hb hlt => exact hi.tx2_inv hp hN hb hlt ha
  | tx3 n hp hN => exact hi.tx3_inv hw hp hN ha
  | tx4 hp =>
    have harmed := hi.armTransmit_inv (hi.inited_of_inside (by simp [hp]))
    exact (harmed.respond_inv _).fgDone_inside_inv (by simp [armTransmit_eq, hp]) ha
  | rx1 h tl _ hc _ hh ht hne => exact hi.rx1_inv hc hh ht hne ha
  | rx2 n hp hN => exact hi.rx2_inv hw hp hN ha
  | rx3 n v hp => exact (hi.respond_inv _).fgDone_inside_inv (by simp [hp]) ha
  | svcRxNone _ hc hn => exact hi.gotoSvcTx_inv hn hc ha
  | svcRxFill u _ hc hn _ _ hu =>
    have hfill := hi.rxFill_inv hw hu
    rw [rxFill_frame hu] at hfill ha ⊢
    exact hfill.gotoSvcTx_inv hn hc ha
  | svcTxNone hp => exact hi.fgDone_inside_inv (by simp [hp]) ha
  | svcTxDrain u hp _ _ hu => exact (hi.txDrain_inv hw hu).fgDone_inside_inv (by rw [txDrain_frame hu]; simp [hp]) ha
  | txIsr u _ hu => exact hi.txDrain_inv hw hu
  | rxIsr u _ hu => exact hi.rxFill_inv hw hu
  | txDone b hx => exact hi.txDone_inv hx b
  | rxArrive r b rest => exact (hi.streams_inv s.fault s.lineOut rest s.respLog).arrive_inv r b
  | powerCycle => exact powerUp_inv _ _ _ _ _ _ _

/-- Settles O50: the schedule moves on, and whatever event is taken keeps the invariant. -/
theorem everyStepKeepsInvariant : Obligations.EveryStepKeepsInvariant := by
  unfold Obligations.EveryStepKeepsInvariant
  intro s t hi hstep
  obtain ⟨hl, ⟨rest, -, rfl⟩ | ⟨-, -, e, sc, d, -, ht⟩⟩ := step_next hstep
  · exact powerUp_inv _ _ _ _ _ _ _
  · exact (took_of_takeEvent ht).inv (hi.sched sc d) hl.1

/-! ### Before INIT -/

/-- Settles O17: a request, a byte being sent or an enabled receiver would show an `INIT`, and so would an index. -/
theorem nothingMovesBeforeInit : Obligations.NothingMovesBeforeInit := by
  unfold Obligations.NothingMovesBeforeInit
  intro s hi hf hn
  have off {p : Bool} (hp : p = true → s.inited = true) : p = false := by simpa [hn] using hp
  have htx : s.txIrq = false := off hi.inited_of_txIrq
  have hrx : s.rxIrq = false := off hi.inited_of_rxIrq
  have hx : s.txe = true := by simpa [hn] using hi.inited_of_busy
  have hdiscard (r b rest) : arrive r b { s with rxIn := rest } = { s with rxIn := rest } :=
    arrive_discard r b (off hi.inited_of_rxEn)
  have hindices : s.indices = ⟨none, none, none, none⟩ := congrArg State.indices (hi.beforeInit hn)
  obtain ⟨hth, htt, hrh, hrt⟩ := Indices.ext_iff.mp hindices
  exact ⟨by simp [enabled, htx], by simp [enabled, hrx], by simp [enabled, hx],
    fun r b rest hin => perRxArrive_next.mpr ⟨hf, b, rest, hin, (hdiscard r b rest).symm⟩, hth, htt, hrh, hrt⟩

/-! ### The ends of a run -/

/-- No agent has a step exactly at a successful end (70_reset_and_hazards.md rule R281). -/
theorem noStep_iff_successfulEnd (hf : s.fault = .noFault) (hpc : s.fgPc ≤ s.prog.length) : NoStep s ↔ SuccessfulEnd s := by
  constructor
  · intro hno
    obtain ⟨hp, hend⟩ : s.fgPhase = .idle ∧ s.prog.length ≤ s.fgPc := by simpa [enabled, hf, fgEnabled] using hno .fg
    have htx : s.txIrq = false := by simpa [enabled, hf] using hno .txIsr
    have hrx : s.rxIrq = false := by simpa [enabled, hf] using hno .rxIsr
    have hx : s.txe = true := by simpa [enabled, hf] using hno .txDone
    have hin : s.rxIn = [] := by simpa [enabled, hf] using hno (.rxArrive false)
    exact ⟨hf, hp, hpc.antisymm hend, htx, hrx, hx, hin⟩
  · rintro ⟨-, hp, hpc, htx, hrx, hx, hin⟩ e
    cases e <;> simp [enabled, fgEnabled, hp, hpc, htx, hrx, hx, hin]

theorem step_eq_agentStep (hl : LaunchOk s) (hp : powerCycleNext s = false) : step s = agentStep s := by
  rw [step_of_launchOk hl, launchedStep_agent hp]

/-- A machine at a successful end stops there (70_reset_and_hazards.md rule R281). -/
theorem step_successfulEnd (hl : LaunchOk s) (hp : powerCycleNext s = false) (hend : SuccessfulEnd s) :
    step s = .fault (.runEnded s) := by
  obtain ⟨hf, -, hpc, -⟩ := id hend
  have hno := (noStep_iff_successfulEnd hf hpc.le).mpr hend
  simp only [step_eq_agentStep hl hp, agentStep, whileLive_live hf, choices_nil.mpr hno]

/-- Not an end of a run: if the outcome is a stop, it is one of the two that `step` never comes to from the invariant (log entries 9,
14). -/
def NoEnd (o : Host.Outcome State Fault Refusal) : Prop := ∀ r, o = .fault r → r = .notEnabled ∨ ∃ x, r = .bottomRead x

theorem NoEnd.next : NoEnd (.next t) := fun _ hr => by cases hr

theorem NoEnd.refused {r : Refusal} : NoEnd (.refused r) := fun _ hr => by cases hr

theorem NoEnd.notEnabled : NoEnd (.fault .notEnabled) := fun _ hr => .inl (by cases hr; rfl)

theorem NoEnd.of_commit {body : Eff State} : NoEnd (commit s body) := fun _ hr => by
  obtain ⟨x, -, rfl⟩ := commit_fault.mp hr
  exact .inr ⟨x, rfl⟩

/-- An instruction ends no run while `FAULT = NONE`. -/
theorem NoEnd.of_exec (hf : s.fault = .noFault) (i : Instr) : NoEnd (exec i s) := by
  cases i with
  | init k =>
    simp only [exec, execInit, whileLive_live hf]
    split
    · cases s.fgPhase with
      | idle => exact .next
      | tx2 | tx3 | tx4 | rx2 | rx3 | svcTx => exact .notEnabled
    · exact .refused
  | txPush b =>
    simp only [exec, execTxPush, whileLive_live hf]
    cases s.fgPhase with
    | idle | tx2 | tx3 | tx4 => exact .of_commit
    | rx2 | rx3 | svcTx => exact .notEnabled
  | rxPop =>
    simp only [exec, execRxPop, whileLive_live hf]
    cases s.fgPhase with
    | idle | rx2 | rx3 => exact .of_commit
    | tx2 | tx3 | tx4 | svcTx => exact .notEnabled
  | service =>
    simp only [exec, execService, whileLive_live hf]
    cases s.fgPhase with
    | idle | svcTx => exact .of_commit
    | tx2 | tx3 | tx4 | rx2 | rx3 => exact .notEnabled
  | txIsr =>
    simp only [exec, execTxIsr, whileLive_live hf]
    split
    · exact .of_commit
    · exact .notEnabled
  | rxIsr =>
    simp only [exec, execRxIsr, whileLive_live hf]
    split
    · exact .of_commit
    · exact .notEnabled

theorem NoEnd.of_fgStep (hf : s.fault = .noFault) : NoEnd (fgStep s) := by
  unfold fgStep
  split
  · split
    · unfold fgDecode
      split
      · exact .next
      · split
        · exact .next
        · exact .of_exec hf _
    · exact .notEnabled
  · unfold fgContinue
    cases s.fgPhase with
    | idle => exact .notEnabled
    | tx2 | tx3 | tx4 | rx2 | rx3 | svcTx => exact .of_commit

/-- No event ends a run: only their absence or a fault does (70_reset_and_hazards.md rule R281). -/
theorem NoEnd.of_takeEvent (hf : s.fault = .noFault) (e : Event) : NoEnd (takeEvent e s) := by
  cases e with
  | fg => exact .of_fgStep hf
  | txIsr => exact .of_exec hf .txIsr
  | rxIsr => exact .of_exec hf .rxIsr
  | txDone =>
    simp only [takeEvent, perTxDone, whileLive_live hf]
    split
    · exact .notEnabled
    · exact .of_commit
  | rxArrive r =>
    simp only [takeEvent, perRxArrive, whileLive_live hf]
    split
    · exact .notEnabled
    · exact .next
  | powerCycle => exact .next

/-- Every way in which a step of a launched machine can stop. -/
theorem step_fault_cases (hl : LaunchOk s) (hp : powerCycleNext s = false) (hpc : s.fgPc ≤ s.prog.length) {r : Fault}
    (hx : step s = .fault r) :
    (r = .faulted s ∧ FaultedEnd s) ∨ (r = .runEnded s ∧ SuccessfulEnd s) ∨ r = .notEnabled ∨ ∃ x, r = .bottomRead x := by
  rw [step_eq_agentStep hl hp] at hx
  obtain ⟨hf, hr⟩ | ⟨hf, hno, hr⟩ | ⟨hf, e, sc, d, -, htake⟩ := agentStep_cases hx
  · cases hr
    exact .inl ⟨rfl, hf⟩
  · cases hr
    exact .inr (.inl ⟨rfl, (noStep_iff_successfulEnd hf hpc).mp hno⟩)
  · exact .inr (.inr (NoEnd.of_takeEvent (s := { s with sched := sc, draws := d }) hf e r htake.symm))

/-- An end of a run is observed in its own state after any number of steps from 1 on (70_reset_and_hazards.md rule R281). -/
theorem observeRun_of_end (hx : step s = .fault (.runEnded s) ∨ step s = .fault (.faulted s)) (k : Nat) :
    observeRun (k + 1) s = some (observation s) := by
  refine observeOutcome_eq_some.mpr ⟨s, rfl, hx.imp (fun hx => ?_) (fun hx => ?_)⟩
  · exact run_fault k hx
  · exact run_fault k hx

/-- Settles O55: the ways a step can stop, read in both directions. -/
theorem runEndsAreAsDescribed : Obligations.RunEndsAreAsDescribed := by
  unfold Obligations.RunEndsAreAsDescribed
  intro s hl hp hpc
  have hsuccess := step_successfulEnd hl hp
  have hfaulted : FaultedEnd s → step s = .fault (.faulted s) := fun hend => step_faulted hl hend hp
  have hcases := fun r => step_fault_cases hl hp hpc (r := r)
  refine ⟨⟨fun hx => ?_, hsuccess⟩, ⟨fun hx => ?_, hfaulted⟩, fun t hx => ?_,
    fun hend k => observeRun_of_end (hend.imp hsuccess hfaulted) k⟩
  · simpa using hcases _ hx
  · simpa using hcases _ hx
  · obtain hx | hx := hx
    · exact (by simpa using hcases _ hx : t = s ∧ SuccessfulEnd s).1
    · exact (by simpa using hcases _ hx : t = s ∧ FaultedEnd s).1

/-- Settles O56: no request at the end, the register empty, so it is disarmed; and a queued byte would be armed. -/
theorem interruptModeEndsDrained : Obligations.InterruptModeEndsDrained := by
  unfold Obligations.InterruptModeEndsDrained
  intro s hi hn hm ⟨hf, hp, hpc, htx, hrx, hx, hin⟩
  have hoff : s.txie = false := by simpa [State.txIrq, hx] using htx
  have hempty : s.txHead = s.txTail := by
    by_contra hq
    have hon := hi.queuedIsArmed hm (by simp [hp]) hq
    simp [hoff] at hon
  exact ⟨hempty, hoff, txPending_empty hempty⟩

/-! ### Every run ends -/

/-- The steps that IH and PER have left at most. -/
def agentsLeft (s : State) : Nat :=
  2 * s.rxIn.length + (if s.rxne then 1 else 0) + 2 * (txPending s).length + (if s.txe then 0 else 1) + (if s.txie then 1 else 0)

theorem stepsLeft_eq (s : State) : stepsLeft s = 3 * fgLeft s + agentsLeft s := by
  simp only [stepsLeft, agentsLeft]
  omega

/-- Two states that differ, for IH and PER, in the transmit queue and `TXIE` alone. -/
theorem agentsLeft_add (hin : t.rxIn = s.rxIn) (hr : t.rxne = s.rxne) (hx : t.txe = s.txe) :
    agentsLeft t + (2 * (txPending s).length + (if s.txie then 1 else 0)) =
      agentsLeft s + (2 * (txPending t).length + (if t.txie then 1 else 0)) := by
  simp only [agentsLeft, hin, hr, hx]
  omega

/-- A byte taken off the queue is one step nearer the line (41_transmit.md rule R145). -/
theorem TxQueue.agentsLeft_sendOldest (q : TxQueue s h tl) (hw : s.cfg.wf = true) (hne : h ≠ tl) (hx : s.txe = true) (v : Byte) :
    agentsLeft (sendOldest tl v s) < agentsLeft s := by
  have hp : (txPending s).length = (txPending (sendOldest tl v s)).length + 1 := congrArg List.length (q.txPending_take hw hne)
  have hin : (sendOldest tl v s).rxIn = s.rxIn := rfl
  have hie : (sendOldest tl v s).txie = s.txie := rfl
  simp only [agentsLeft, hp, hx, hin, hie, sendOldest_txe, sendOldest_rxne, if_true, Bool.false_eq_true, if_false]
  omega

/-- The drain sends a byte, or disarms (41_transmit.md rule R145). -/
theorem Inv.agentsLeft_txDrain (hi : Inv s) (hw : s.cfg.wf = true) (hu : txDrain s = .ok u) :
    agentsLeft u ≤ agentsLeft s ∧ (s.txie = true → agentsLeft u < agentsLeft s) := by
  obtain ⟨h, tl, hh, ht, ⟨rfl, rfl⟩ | ⟨hne, -, hx, v, -, rfl⟩⟩ := txDrain_ok.mp hu
  · have hoff : (disableTransmitInterrupt s).txie = false := by simp [State.txie]
    have hsum := agentsLeft_add (s := s) (t := disableTransmitInterrupt s) rfl rfl rfl
    have hp : txPending (disableTransmitInterrupt s) = txPending s := rfl
    simp only [hoff, hp, Bool.false_eq_true, if_false] at hsum
    exact ⟨by omega, fun hon => by simp only [hon, if_true] at hsum; omega⟩
  · have hlt := (hi.txQueue hh ht).agentsLeft_sendOldest hw hne hx v
    exact ⟨hlt.le, fun _ => hlt⟩

/-- The fill reads the arrived byte, stored or dropped (42_receive.md rule R163). -/
theorem agentsLeft_rxFill (hu : rxFill s = .ok u) : agentsLeft u < agentsLeft s := by
  have hx := rxFill_txe hu
  obtain ⟨hr, hr'⟩ : s.rxne = true ∧ u.rxne = false := by
    obtain ⟨hr, v, h, tl, -, -, -, ⟨-, rfl⟩ | ⟨-, -, rfl⟩⟩ := rxFill_ok.mp hu
    · exact ⟨hr, by simp [State.rxne]⟩
    · exact ⟨hr, storeArrival_rxne h v s⟩
  have hframe := rxFill_frame hu
  have hin : u.rxIn = s.rxIn := (congrArg State.rxIn hframe :)
  have hie : u.txie = s.txie := (congrArg State.txie hframe :)
  have hp : txPending u = txPending s := (congrArg txPending hframe :)
  simp only [agentsLeft, hin, hie, hp, hx, hr, hr', if_true, Bool.false_eq_true, if_false]
  omega

/-- An arrival leaves `TXE` (44_peripheral_boundary.md rules R205 to R207). -/
theorem arrive_txe (r : Bool) (b : Byte) (s : State) : (arrive r b s).txe = s.txe := by
  cases he : s.rxEn with
  | false => rw [arrive_discard r b he]
  | true =>
    cases hr : s.rxne with
    | false => simp [arrive_latch r b he hr, State.txe]
    | true =>
      rw [arrive_overrun r b he hr]
      obtain ⟨d, heq⟩ := overrunArrival_eq r b s
      rw [heq]
      rfl

/-- An arrival takes a byte off `RX_IN` and sets `RXNE` at most (44_peripheral_boundary.md rules R205 to R207). -/
theorem agentsLeft_arrive (r : Bool) {rest : List Byte} (hin : s.rxIn = b :: rest) :
    agentsLeft (arrive r b { s with rxIn := rest }) < agentsLeft s := by
  have hx : (arrive r b { s with rxIn := rest }).txe = s.txe := arrive_txe r b _
  obtain ⟨d, p, heq⟩ := arrive_eq r b { s with rxIn := rest }
  rw [heq] at hx ⊢
  have hp : txPending { s with rxIn := rest, rxData := d, pstat := p } = txPending s := rfl
  have hie : { s with rxIn := rest, rxData := d, pstat := p }.txie = s.txie := rfl
  simp only [agentsLeft, hin, hx, hp, hie, List.length_cons]
  split_ifs <;> omega

/-- `TX_DONE` empties the register (44_peripheral_boundary.md rule R204). -/
theorem agentsLeft_txDone (hx : s.txe = false) (b : Byte) :
    agentsLeft { s with lineOut := s.lineOut ++ [b], pstat := setBit s.pstat 0 } < agentsLeft s := by
  have hx' : { s with lineOut := s.lineOut ++ [b], pstat := setBit s.pstat 0 }.txe = true := by simp [State.txe]
  have hr : { s with lineOut := s.lineOut ++ [b], pstat := setBit s.pstat 0 }.rxne = s.rxne := by simp [State.rxne]
  have hp : txPending { s with lineOut := s.lineOut ++ [b], pstat := setBit s.pstat 0 } = txPending s := rfl
  have hie : { s with lineOut := s.lineOut ++ [b], pstat := setBit s.pstat 0 }.txie = s.txie := rfl
  simp only [agentsLeft, hx, hx', hr, hp, hie, if_true, Bool.false_eq_true, if_false]
  omega

/-- A step of IH or PER leaves them less to do, unless it raises. -/
theorem Took.agentsLeft_lt (hi : Inv s) (hw : s.cfg.wf = true) (ht : Took s e t) (hfg : e ≠ .fg) (he : e ≠ .powerCycle) :
    t.fault ≠ .noFault ∨ agentsLeft t < agentsLeft s := by
  cases ht with
  | raised e c _ hc => exact .inl hc
  | txIsr u hq hu => exact .inr ((hi.agentsLeft_txDrain hw hu).2 (Bool.and_eq_true_iff.mp hq).1)
  | rxIsr u _ hu => exact .inr (agentsLeft_rxFill hu)
  | txDone b hx => exact .inr (agentsLeft_txDone hx b)
  | rxArrive r b rest hin => exact .inr (agentsLeft_arrive r hin)
  | powerCycle => exact absurd rfl he
  | _ => exact absurd rfl hfg

/-- A micro-step of FG gives IH and PER two steps more to do at most: TX.3 queues a byte, TX.4 arms. -/
theorem Took.agentsLeft_le (hi : Inv s) (hw : s.cfg.wf = true) (ht : Took s .fg t) : agentsLeft t ≤ agentsLeft s + 2 := by
  cases ht with
  | init k =>
    have hsum := agentsLeft_add (s := s) (t := initStep k s) (by simp [initStep_eq]) (by simp [initStep_eq, State.rxne])
      (by simp [initStep_eq, State.txe])
    have hp : txPending (initStep k s) = [] := txPending_empty (by simp [initStep_eq])
    simp only [hp, initStep_txie, List.length_nil, Bool.false_eq_true, if_false] at hsum
    omega
  | tx2 n b hp hN =>
    obtain ⟨h, tl, q⟩ := (hi.afterInit (hi.inited_of_inside (by simp [hp]))).tx
    obtain ⟨hN', hne⟩ := q.atTx2 hp
    obtain rfl : n = nextTx s.cfg h := Option.some.inj (hN.symm.trans hN')
    have hsum := agentsLeft_add (s := s) (t := fgGoto .tx3 { s with txBuf := s.txBuf.write (nextTx s.cfg h).toNat b }) rfl rfl rfl
    have hpend : txPending (fgGoto .tx3 { s with txBuf := s.txBuf.write (nextTx s.cfg h).toNat b }) = txPending s :=
      q.txPending_write hw hi.txBufWf hne b
    have hie : (fgGoto .tx3 { s with txBuf := s.txBuf.write (nextTx s.cfg h).toNat b }).txie = s.txie := rfl
    rw [hpend, hie] at hsum
    omega
  | tx3 n hp hN =>
    obtain ⟨h, tl, q⟩ := (hi.afterInit (hi.inited_of_inside (by simp [hp]))).tx
    obtain ⟨hN', hne, -⟩ := q.atTx3 hp
    obtain rfl : n = nextTx s.cfg h := Option.some.inj (hN.symm.trans hN')
    have hsum := agentsLeft_add (s := s) (t := fgGoto .tx4 { s with txHead := some (nextTx s.cfg h) }) rfl rfl rfl
    have hpend : txPending (fgGoto .tx4 { s with txHead := some (nextTx s.cfg h) }) = txPending s ++ [_] :=
      q.txPending_publish hw hne
    have hie : (fgGoto .tx4 { s with txHead := some (nextTx s.cfg h) }).txie = s.txie := rfl
    rw [hpend, hie, List.length_append, List.length_singleton] at hsum
    omega
  | tx4 =>
    have hsum := agentsLeft_add (s := s) (t := fgDone (respond (respWord true 0x00#8) (armTransmit s))) (by simp [armTransmit_eq])
      (by simp [armTransmit_eq, State.rxne]) (by simp [armTransmit_eq, State.txe])
    have hp : txPending (fgDone (respond (respWord true 0x00#8) (armTransmit s))) = txPending s := by rw [armTransmit_eq]; rfl
    rw [hp] at hsum
    split_ifs at hsum <;> omega
  | svcRxFill u _ _ _ _ _ hu => exact (agentsLeft_rxFill hu).le.trans (Nat.le_add_right _ _)
  | svcTxDrain u _ _ _ hu => exact (hi.agentsLeft_txDrain hw hu).1.trans (Nat.le_add_right _ _)
  | raised | txFull | tx1 | rxEmpty | rx1 | rx2 | rx3 | svcRxNone | svcTxNone => exact Nat.le_add_right _ _

/-- The micro-steps of its operation that FG has done in a phase. -/
def Phase.done : Phase → Nat
  | .idle => 0
  | .tx2 | .rx2 | .svcTx => 1
  | .tx3 | .rx3 => 2
  | .tx4 => 3

theorem fgLeft_eq (s : State) : fgLeft s = 4 * (s.prog.length - s.fgPc) - s.fgPhase.done := by
  unfold fgLeft
  cases s.fgPhase <;> rfl

theorem Phase.done_le (p : Phase) : p.done ≤ 3 := by cases p <;> decide

/-- FG goes past its word, or on inside its operation (10_state.md rule R35). -/
def Advances (s t : State) : Prop := t.fgPc = s.fgPc + 1 ∨ (t.fgPc = s.fgPc ∧ s.fgPhase.done < t.fgPhase.done)

/-- An operation has four micro-steps at most, and FG has done three of them at most. -/
theorem Advances.fgLeft_lt (ha : Advances s t) (hprog : t.prog = s.prog) (hpc : s.fgPc < s.prog.length) : fgLeft t < fgLeft s := by
  have hs := s.fgPhase.done_le
  have ht := t.fgPhase.done_le
  rw [fgLeft_eq, fgLeft_eq, hprog]
  obtain hnext | ⟨hsame, hphase⟩ := ha <;> omega

/-- A micro-step of FG raises or advances (10_state.md rule R35). -/
theorem Took.advances (ht : Took s .fg t) : t.fault ≠ .noFault ∨ Advances s t := by
  cases ht with
  | raised e c _ hc => exact .inl hc
  | init => exact .inr (.inl (by simp [initStep_eq]))
  | txFull | rxEmpty | rx3 | svcTxNone => exact .inr (.inl rfl)
  | tx4 => exact .inr (.inl (by simp [armTransmit_eq]))
  | svcTxDrain u _ _ _ hu => exact .inr (.inl (by rw [txDrain_frame hu]; rfl))
  | svcRxFill u hp _ _ _ _ hu => exact .inr (.inr (by rw [rxFill_frame hu, hp]; exact ⟨rfl, Nat.zero_lt_one⟩))
  | tx1 _ _ _ hp | tx2 _ _ hp | tx3 _ hp | rx1 _ _ hp | rx2 _ hp | svcRxNone hp =>
    exact .inr (.inr ⟨rfl, by rw [hp]; exact Nat.lt_succ_self _⟩)

/-- Where FG has a step, its word is inside the program. -/
theorem Inv.fgPc_lt_of_enabled (hi : Inv s) (he : enabled s .fg = true) : s.fgPc < s.prog.length := by
  obtain hp | hpc := (enabled_fg_iff.mp he).2
  · exact fgPc_lt (hi.current_of_inside hp)
  · exact hpc

/-- Where an agent has a step, the bound is not used up. -/
theorem Inv.stepsLeft_pos (hi : Inv s) (he : enabled s e = true) : 0 < stepsLeft s := by
  rw [stepsLeft_eq]
  cases e with
  | fg =>
    have hpc := hi.fgPc_lt_of_enabled he
    have hdone := s.fgPhase.done_le
    rw [fgLeft_eq]
    omega
  | txIsr =>
    have hie := (enabled_txIsr_iff.mp he).2.1
    simp [agentsLeft, hie]
  | rxIsr =>
    have hr := (enabled_rxIsr_iff.mp he).2.2
    simp [agentsLeft, hr]
  | txDone =>
    have hx := (enabled_txDone_iff.mp he).2
    simp [agentsLeft, hx]
  | rxArrive r =>
    have hin := List.length_pos_iff.mpr (enabled_rxArrive_iff.mp he).2
    simp only [agentsLeft]
    omega
  | powerCycle => simp [enabled_not_power] at he

/-- Every step of every agent raises or lowers the bound. -/
theorem Took.stepsLeft_lt (hi : Inv s) (hw : s.cfg.wf = true) (he : enabled s e = true) (ht : Took s e t) :
    t.fault ≠ .noFault ∨ stepsLeft t < stepsLeft s := by
  have hprog := ht.keeps_cfg_prog.2
  rw [stepsLeft_eq, stepsLeft_eq]
  by_cases hfg : e = .fg
  · subst hfg
    have hagents := ht.agentsLeft_le hi hw
    refine ht.advances.imp_right fun ha => ?_
    have hleft := ha.fgLeft_lt hprog (hi.fgPc_lt_of_enabled he)
    omega
  · have hpower := ne_powerCycle_of_enabled he
    obtain ⟨hphase, hpc⟩ := ht.sequencer hfg hpower
    refine (ht.agentsLeft_lt hi hw hfg hpower).imp_right fun hlt => ?_
    rw [fgLeft_eq, fgLeft_eq, hprog, hphase, hpc]
    omega

/-- An event leaves the schedule to the step that takes it (log entry 6). -/
theorem Took.keeps_sched (ht : Took s e t) : t.sched = s.sched := by
  cases ht with
  | svcRxFill u _ _ _ _ _ hu => exact (congrArg State.sched (rxFill_frame hu) :)
  | svcTxDrain u _ _ _ hu => exact (congrArg State.sched (txDrain_frame hu) :)
  | txIsr u _ hu => exact (congrArg State.sched (txDrain_frame hu) :)
  | rxIsr u _ hu => exact (congrArg State.sched (rxFill_frame hu) :)
  | init => simp [initStep_eq]
  | tx4 => simp [armTransmit_eq]
  | rxArrive r b rest =>
    obtain ⟨d, p, heq⟩ := arrive_eq r b { s with rxIn := rest }
    exact (congrArg State.sched heq :)
  | raised | txFull | tx1 | tx2 | tx3 | rxEmpty | rx1 | rx2 | rx3 | svcRxNone | svcTxNone | txDone | powerCycle => rfl

theorem consume_sched_subset (more : List Event) : (consume s more).sched ⊆ s.sched := by
  unfold consume
  split
  · rename_i hs
    rw [hs]
    exact List.subset_cons_self _ _
  · split <;> exact List.Subset.refl _

/-- What is left of the schedule was on it (log entry 6). -/
theorem step_sched_subset (hp : powerCycleNext s = false) (hstep : step s = .next t) : t.sched ⊆ s.sched := by
  have hl := (step_next hstep).1
  rw [step_eq_agentStep hl hp, agentStep, whileLive_next] at hstep
  obtain ⟨-, hstep⟩ := hstep
  split at hstep
  · cases hstep
  · rw [(took_of_takeEvent hstep).keeps_sched]
    exact consume_sched_subset _

theorem powerCycleNext_of_notMem (hs : Event.powerCycle ∉ s.sched) : powerCycleNext s = false := by
  rw [Bool.eq_false_iff, ne_eq, powerCycleNext_iff]
  rintro ⟨rest, heq⟩
  simp [heq] at hs

/-- A launched machine of the invariant that will not be power-cycled. -/
structure Running (s : State) : Prop where
  inv : Inv s
  launchOk : LaunchOk s
  powered : Event.powerCycle ∉ s.sched

/-- A step of a running machine: it runs on, and has raised a fault with the bound not used up, or has lowered the bound. -/
theorem Running.lowers (hr : Running s) (hstep : step s = .next t) :
    Running t ∧ ((t.fault ≠ .noFault ∧ 0 < stepsLeft s) ∨ stepsLeft t < stepsLeft s) := by
  have hp := powerCycleNext_of_notMem hr.powered
  obtain ⟨hcfg, hprog⟩ := parametersAndProgramAreFixed s t hstep
  have hl : LaunchOk t := by
    unfold LaunchOk clocksSupported
    rw [hcfg, hprog]
    exact hr.launchOk
  refine ⟨⟨everyStepKeepsInvariant s t hr.inv hstep, hl, fun hmem => hr.powered (step_sched_subset hp hstep hmem)⟩, ?_⟩
  obtain ⟨⟨hw, -⟩, ⟨rest, hs, -⟩ | ⟨-, -, e, sc, d, he, htake⟩⟩ := step_next hstep
  · simp [powerCycleNext_iff.mpr ⟨rest, hs⟩] at hp
  · exact ((took_of_takeEvent htake).stepsLeft_lt (hr.inv.sched sc d) hw he).imp_left fun hf => ⟨hf, hr.inv.stepsLeft_pos he⟩

/-- A run of at most `k` steps comes to one of its two ends. -/
def EndsWithin (k : Nat) (s : State) : Prop :=
  ∃ n t, n ≤ k ∧
    ((Host.Core.run core n s = .fault (.runEnded t) ∧ SuccessfulEnd t) ∨
      (Host.Core.run core n s = .fault (.faulted t) ∧ FaultedEnd t))

theorem EndsWithin.mono {k m : Nat} (hend : EndsWithin k s) (hkm : k ≤ m) : EndsWithin m s := by
  obtain ⟨n, t, hn, ht⟩ := hend
  exact ⟨n, t, hn.trans hkm, ht⟩

theorem EndsWithin.of_next {k : Nat} (hstep : step s = .next t) (hend : EndsWithin k t) : EndsWithin (k + 1) s := by
  obtain ⟨n, u, hn, hu⟩ := hend
  exact ⟨n + 1, u, Nat.succ_le_succ hn, by rwa [run_next n hstep]⟩

theorem EndsWithin.of_faulted (hf : FaultedEnd s) (hx : step s = .fault (.faulted s)) : EndsWithin 1 s :=
  ⟨1, s, le_rfl, .inr ⟨run_fault 0 hx, hf⟩⟩

/-- Induction on the bound: a step lowers it, or raises, and then the next step is the faulted end. -/
theorem Running.endsWithin (hr : Running s) : EndsWithin (stepsLeft s + 1) s := by
  induction hk : stepsLeft s using Nat.strong_induction_on generalizing s with
  | _ k ih =>
    subst hk
    have hp := powerCycleNext_of_notMem hr.powered
    obtain ⟨hsuccess, hfaulted, -⟩ := runEndsAreAsDescribed s hr.launchOk hp hr.inv.fgPcLe
    obtain ⟨r, hx⟩ | hx | hx | ⟨t, hx, -⟩ := hr.inv.step_proceeds
    · rw [step_refused_iff, launchRefusal_none.mpr hr.launchOk] at hx
      cases hx
    · exact (EndsWithin.of_faulted (hfaulted.mp hx) hx).mono (Nat.le_add_left 1 _)
    · exact ⟨1, s, Nat.le_add_left 1 _, .inl ⟨run_fault 0 hx, hsuccess.mp hx⟩⟩
    · obtain ⟨hrt, ⟨hf, hpos⟩ | hlt⟩ := hr.lowers hx
      · have hend := EndsWithin.of_faulted hf (step_faulted hrt.launchOk hf (powerCycleNext_of_notMem hrt.powered))
        exact (hend.of_next hx).mono (Nat.succ_le_succ hpos)
      · exact ((ih _ hlt hrt rfl).of_next hx).mono (Nat.succ_le_succ hlt)

/-- Settles O57: a running machine ends within the bound, and either end is observed in its own state. -/
theorem everyRunEnds : Obligations.EveryRunEnds := by
  unfold Obligations.EveryRunEnds
  intro s hi hl hs
  obtain ⟨n, t, hn, hend⟩ := (Running.mk hi hl hs).endsWithin
  exact ⟨n, t, hn, observeOutcome_eq_some.mpr ⟨t, rfl, hend.imp And.left And.left⟩, hend⟩

/-! ### The testable properties -/

theorem TxQueue.length_txPending (q : TxQueue s h tl) : (txPending s).length = pendingCount s.cfg.nTx h tl := by
  rw [txPending_eq q.head q.tail, List.length_map, length_pendingFrom]

theorem TxQueue.txPending_eq_nil (q : TxQueue s h tl) : txPending s = [] ↔ h = tl := by
  rw [← List.length_eq_zero_iff, q.length_txPending, pendingCount_zero q.headLt q.tailLt]

theorem TxQueue.full_iff (q : TxQueue s h tl) (hw : s.cfg.wf = true) : nextTx s.cfg h = tl ↔ (txPending s).length = s.cfg.nTx - 1 := by
  rw [q.length_txPending, (succ_tx hw).full_iff q.headLt q.tailLt]

theorem RxQueue.length_rxPending (q : RxQueue s h tl) : (rxPending s).length = pendingCount s.cfg.nRx h tl := by
  simp [rxPending, q.head, q.tail]

theorem RxQueue.rxPending_eq_nil (q : RxQueue s h tl) : rxPending s = [] ↔ h = tl := by
  rw [← List.length_eq_zero_iff, q.length_rxPending, pendingCount_zero q.headLt q.tailLt]

theorem RxQueue.full_iff (q : RxQueue s h tl) (hw : s.cfg.wf = true) : nextRx s.cfg h = tl ↔ (rxPending s).length = s.cfg.nRx - 1 := by
  rw [q.length_rxPending, (succ_rx hw).full_iff q.headLt q.tailLt]

/-- TX.3 adds the pushed byte as the last pending one (70_reset_and_hazards.md rule R275 (1)). -/
theorem TxQueue.exec_publish (q : TxQueue s h tl) (hw : s.cfg.wf = true) (hf : s.fault = .noFault) (hp : s.fgPhase = .tx3) (b : Byte) :
    ∃ t, exec (.txPush b) s = .next t ∧ txPending t = txPending s ++ [s.fgB] := by
  obtain ⟨hN, hne, hcell⟩ := q.atTx3 hp
  exact ⟨_, exec_txPush_publish hf hp hN, (q.txPending_publish hw hne).trans (by rw [hcell])⟩

/-- The drain sends the first pending byte (70_reset_and_hazards.md rule R275 (1)). -/
theorem TxQueue.txDrain_sends_first (q : TxQueue s h tl) (hw : s.cfg.wf = true) (hx : s.txe = true) (hpend : txPending s ≠ []) :
    ∃ t, txDrain s = .ok t ∧ t.txe = false ∧ txPending s = t.txData :: txPending t := by
  have hne : h ≠ tl := fun heq => hpend (q.txPending_eq_nil.mpr heq)
  obtain ⟨v, hv⟩ := q.oldest_written hw hne
  refine ⟨sendOldest tl v s, ?_, sendOldest_txe tl v s, (q.txPending_take hw hne).trans (by rw [hv]; rfl)⟩
  exact txDrain_ok.mpr ⟨h, tl, q.head, q.tail, .inr ⟨hne, nextTx_lt hw q.tailLt, hx, v, hv, rfl⟩⟩

/-- TX.1 answers "full" exactly with `N_TX − 1` bytes pending, and then only answers (70_reset_and_hazards.md rule R275 (2)). -/
theorem Inv.exec_txPush_idle (hi : Inv s) (q : TxQueue s h tl) (hw : s.cfg.wf = true) (hf : s.fault = .noFault) (hn : s.inited = true)
    (hp : s.fgPhase = .idle) (b : Byte) :
    ∃ t, exec (.txPush b) s = .next t ∧
      (t.respLog = s.respLog ++ [0x0000#16] ↔ (txPending s).length = s.cfg.nTx - 1) ∧
      ((txPending s).length = s.cfg.nTx - 1 → t = { s with respLog := t.respLog, fgPc := s.fgPc + 1 }) := by
  by_cases hfull : nextTx s.cfg h = tl
  · have hlen := (q.full_iff hw).mp hfull
    obtain ⟨hN, hb⟩ : s.fgN = none ∧ s.fgB = none := by simpa [InProgress, hp] using hi.inProgress
    refine ⟨_, exec_txPush_full hf hp hn q.head (hfull ▸ q.tail), ⟨fun _ => hlen, fun _ => rfl⟩, fun _ => ?_⟩
    simp [fgDone, respond, hp, hN, hb]
  · have hlen := fun hc => hfull ((q.full_iff hw).mpr hc)
    exact ⟨_, exec_txPush_room hf hp hn q.head q.tail hfull, by simpa using hlen, fun hc => absurd hc hlen⟩

/-- The fill with room adds the arrived byte as the last pending one (70_reset_and_hazards.md rule R275 (3)). -/
theorem Inv.rxFill_adds_last (hi : Inv s) (q : RxQueue s h tl) (hw : s.cfg.wf = true) (hr : s.rxne = true)
    (hroom : (rxPending s).length < s.cfg.nRx - 1) : ∃ t, rxFill s = .ok t ∧ rxPending t = rxPending s ++ [s.rxData] := by
  obtain ⟨v, hv⟩ := Option.isSome_iff_exists.mp (hi.rxData hr)
  have hne : nextRx s.cfg h ≠ tl := fun hfull => hroom.ne ((q.full_iff hw).mp hfull)
  exact ⟨_, rxFill_store hr hv q.head q.tail hne (nextRx_lt hw h), by rw [hv, q.rxPending_store hw hi.rxBufWf hne]⟩

/-- RX.2 takes the first pending byte (70_reset_and_hazards.md rule R275 (3)). -/
theorem RxQueue.exec_take (q : RxQueue s h tl) (hw : s.cfg.wf = true) (hf : s.fault = .noFault) (hp : s.fgPhase = .rx2) :
    ∃ t v, exec .rxPop s = .next t ∧ rxInHand t = [some v] ∧ rxPending s = some v :: rxPending t := by
  obtain ⟨hN, hne⟩ := q.atRx2 hp
  obtain ⟨v, hv⟩ := Option.isSome_iff_exists.mp ((q.take hw hp).atRx3 rfl).2
  have hhand := rxInHand_of_rx3 (s := { s with fgPhase := .rx3, rxTail := some (nextRx s.cfg tl) }) rfl hN
  have hpend := q.rxPending_take hw hne
  change s.rxBuf.read (nextRx s.cfg tl).toNat = some v at hv
  rw [hv] at hhand hpend
  exact ⟨_, v, exec_rxPop_take hf hp hN, hhand, hpend⟩

/-- RX.3 returns the byte that RX.2 took (70_reset_and_hazards.md rule R275 (3)). -/
theorem RxQueue.exec_return (q : RxQueue s h tl) (hf : s.fault = .noFault) (hp : s.fgPhase = .rx3) :
    ∃ t v, exec .rxPop s = .next t ∧ rxInHand s = [some v] ∧ t.respLog = s.respLog ++ [0x0100#16 ||| v.zeroExtend 16] := by
  obtain ⟨hN, hcell⟩ := q.atRx3 hp
  obtain ⟨v, hv⟩ := Option.isSome_iff_exists.mp hcell
  exact ⟨_, v, exec_rxPop_return hf hp hN q.tailLt hv, by rw [rxInHand_of_rx3 hp hN, hv], rfl⟩

/-- RX.1 answers "empty" exactly with nothing pending (70_reset_and_hazards.md rule R275 (3)). -/
theorem RxQueue.exec_rxPop_idle (q : RxQueue s h tl) (hf : s.fault = .noFault) (hn : s.inited = true) (hp : s.fgPhase = .idle) :
    ∃ t, exec .rxPop s = .next t ∧ (t.respLog = s.respLog ++ [0x0000#16] ↔ rxPending s = []) := by
  by_cases hempty : h = tl
  · exact ⟨_, rxPopOnEmptyQueueOnlyResponds s h hf hp hn q.head (hempty ▸ q.tail), by simp [q.rxPending_eq_nil, hempty]⟩
  · exact ⟨_, exec_rxPop_pending hf hp hn q.head q.tail hempty, by simp [q.rxPending_eq_nil, hempty]⟩

/-- The fill of a full queue drops the byte (70_reset_and_hazards.md rule R275 (4)). -/
theorem Inv.rxFill_drops (hi : Inv s) (q : RxQueue s h tl) (hw : s.cfg.wf = true) (hr : s.rxne = true)
    (hfull : (rxPending s).length = s.cfg.nRx - 1) :
    ∃ t, rxFill s = .ok t ∧ t.rxne = false ∧ t.txe = s.txe ∧ t = { s with pstat := t.pstat } := by
  obtain ⟨v, hv⟩ := Option.isSome_iff_exists.mp (hi.rxData hr)
  have hnext := (q.full_iff hw).mpr hfull
  exact ⟨_, rxFill_drop hr hv q.head (hnext ▸ q.tail), by simp [State.rxne], by simp [State.txe], rfl⟩

/-- Settles O60: each property at its micro-step, from the form of the queue it is about. -/
theorem testablePropertiesHold : Obligations.TestablePropertiesHold := by
  unfold Obligations.TestablePropertiesHold
  intro s hi hw hf hn
  obtain ⟨h, tl, qt⟩ := (hi.afterInit hn).tx
  obtain ⟨h', tl', qr⟩ := (hi.afterInit hn).rx
  exact
    { txFifoIn := fun b hp => qt.exec_publish hw hf hp b
      txFifoOut := qt.txDrain_sends_first hw
      pushFailsExactlyWhenFull := fun b hp => hi.exec_txPush_idle qt hw hf hn hp b
      rxFifoIn := hi.rxFill_adds_last qr hw
      rxFifoOut := qr.exec_take hw hf
      rxReturnsByteInHand := qr.exec_return hf
      popIsEmptyExactlyWhenNothingPends := qr.exec_rxPop_idle hf hn
      fullReceiveQueueDrops := hi.rxFill_drops qr hw
      emptyHandlerOnlyDisarms := fun hq hempty => by
        obtain rfl := qt.txPending_eq_nil.mp hempty
        exact txIsrOnEmptyQueueOnlyDisarms s h hf hq qt.head qt.tail
      noLostWakeup := fun hm hp hq => hi.queuedIsArmed hm hp fun heq => hq (txPending_empty heq) }

end Sys2Proof.Machine
